-- ==== Sys2Proof/Word.lean ====
section
/-! DEFINITION. The two word types that cross ACE's ports: the 64-bit command and response words of
rules R70 and R72, and the byte of rules R55 and R56. Every other quantity of the spec is a natural
number with exact arithmetic (rule R9). -/

namespace Sys2Proof

/-- A command word or a response word (rules R70, R72). -/
abbrev Word := BitVec 64

/-- A byte of the coded stream (rules R55, R56). -/
abbrev Byte := BitVec 8

end Sys2Proof
end

