-- ==== Sys2Proof/Syntax.lean ====
section
/-! DEFINITION. The fourteen commands of rule R73, one constructor per row of the opcode table. Operands
are the naturals of rule R83 (`s`, `r` from the `sym` field, `f`, `n` from the `data` field). -/

namespace Sys2Proof

/-- ACE's commands (rules R12, R73). -/
inductive Instr where
  /-- `RESET` (rule R90) -/
  | reset
  /-- `RDREG r` (rule R91) -/
  | rdreg (r : Nat)
  /-- `TINIT n` (rule R124) -/
  | tinit (n : Nat)
  /-- `TSET s, f` (rule R125) -/
  | tset (s f : Nat)
  /-- `TINC s` (rule R126) -/
  | tinc (s : Nat)
  /-- `TGET s` (rule R127) -/
  | tget (s : Nat)
  /-- `TCLO s` (rule R128) -/
  | tclo (s : Nat)
  /-- `TCHI s` (rule R129) -/
  | tchi (s : Nat)
  /-- `TTOT` (rule R130) -/
  | ttot
  /-- `EINIT` (rule R151) -/
  | einit
  /-- `EWRITE s` (rule R153) -/
  | ewrite (s : Nat)
  /-- `EFINISH` (rule R157) -/
  | efinish
  /-- `DINIT` (rule R181) -/
  | dinit
  /-- `DREAD` (rule R184) -/
  | dread
deriving DecidableEq, Repr

end Sys2Proof
end

