-- ==== Sys2Proof/Decode.lean ====
section
/-! DEFINITION. The command word of rules R70 to R76 and R83, read and written: field extraction, the opcode
map, the decoder (total on every word, rejecting by name), and after it the encoder. -/

namespace Sys2Proof

/-- `v[hi:lo]` as a natural (rule R10). -/
def slice (v hi lo : Nat) : Nat := v / 2 ^ lo % 2 ^ (hi - lo + 1)

/-- The `op` field, bits 63:56 (rule R71). -/
def opField (w : Word) : Nat := slice w.toNat 63 56

/-- The `rsv` field, bits 55:48 (rule R71). -/
def rsvField (w : Word) : Nat := slice w.toNat 55 48

/-- The `sym` field, bits 47:32 (rule R71). -/
def symField (w : Word) : Nat := slice w.toNat 47 32

/-- The `data` field, bits 31:0 (rule R71). -/
def dataField (w : Word) : Nat := slice w.toNat 31 0

/-- One row of the opcode map: the opcode and the operand fields the command uses (rules R73, R74). -/
structure OpcodeRow where
  op : Nat
  usesSym : Bool
  usesData : Bool
  /-- the command, from its `sym` and `data` fields (rule R83) -/
  make : Nat → Nat → Instr

/-- The fourteen rows of rules R73 and R74. -/
def opcodeMap : List OpcodeRow :=
  [ ⟨0x01, false, false, fun _ _ => .reset⟩,
    ⟨0x02, true,  false, fun s _ => .rdreg s⟩,
    ⟨0x10, false, true,  fun _ d => .tinit d⟩,
    ⟨0x11, true,  true,  fun s d => .tset s d⟩,
    ⟨0x12, true,  false, fun s _ => .tinc s⟩,
    ⟨0x13, true,  false, fun s _ => .tget s⟩,
    ⟨0x14, true,  false, fun s _ => .tclo s⟩,
    ⟨0x15, true,  false, fun s _ => .tchi s⟩,
    ⟨0x16, false, false, fun _ _ => .ttot⟩,
    ⟨0x20, false, false, fun _ _ => .einit⟩,
    ⟨0x21, true,  false, fun s _ => .ewrite s⟩,
    ⟨0x22, false, false, fun _ _ => .efinish⟩,
    ⟨0x30, false, false, fun _ _ => .dinit⟩,
    ⟨0x31, false, false, fun _ _ => .dread⟩ ]

/-- Why a word is not well formed (rules R75, R76). -/
inductive DecodeError where
  /-- `op` is none of the fourteen of rule R73 -/
  | undefinedOpcode
  /-- `rsv` is not 0 -/
  | reservedNotZero
  /-- the command does not use `sym`, and `sym` is not 0 -/
  | unusedSymNotZero
  /-- the command does not use `data`, and `data` is not 0 -/
  | unusedDataNotZero
deriving DecidableEq, Repr

/-- What a command word is: a command, or not well formed. -/
inductive Decoded where
  | instr (i : Instr)
  | bad (e : DecodeError)
deriving DecidableEq, Repr

/-- Read a command word (rules R71, R73 to R76, R83). -/
def decode (w : Word) : Decoded :=
  match opcodeMap.find? (fun r => r.op == opField w) with
  | none => .bad .undefinedOpcode
  | some r =>
    if rsvField w ≠ 0 then .bad .reservedNotZero
    else if r.usesSym = false ∧ symField w ≠ 0 then .bad .unusedSymNotZero
    else if r.usesData = false ∧ dataField w ≠ 0 then .bad .unusedDataNotZero
    else .instr (r.make (symField w) (dataField w))

/-- The opcode of a command (rule R73). -/
def opcodeOf : Instr → Nat
  | .reset => 0x01
  | .rdreg _ => 0x02
  | .tinit _ => 0x10
  | .tset _ _ => 0x11
  | .tinc _ => 0x12
  | .tget _ => 0x13
  | .tclo _ => 0x14
  | .tchi _ => 0x15
  | .ttot => 0x16
  | .einit => 0x20
  | .ewrite _ => 0x21
  | .efinish => 0x22
  | .dinit => 0x30
  | .dread => 0x31

/-- What a command's word carries in `sym`; 0 where the command does not use it (rules R71, R74). -/
def symOf : Instr → Nat
  | .rdreg r => r
  | .tset s _ => s
  | .tinc s => s
  | .tget s => s
  | .tclo s => s
  | .tchi s => s
  | .ewrite s => s
  | .reset => 0
  | .tinit _ => 0
  | .ttot => 0
  | .einit => 0
  | .efinish => 0
  | .dinit => 0
  | .dread => 0

/-- What a command's word carries in `data`; 0 where the command does not use it (rules R71, R74). -/
def dataOf : Instr → Nat
  | .tinit n => n
  | .tset _ f => f
  | .reset => 0
  | .rdreg _ => 0
  | .tinc _ => 0
  | .tget _ => 0
  | .tclo _ => 0
  | .tchi _ => 0
  | .ttot => 0
  | .einit => 0
  | .ewrite _ => 0
  | .efinish => 0
  | .dinit => 0
  | .dread => 0

/-- `cmd = (op << 56) OR (rsv << 48) OR (sym << 32) OR data` with `rsv = 0` (rule R71). -/
def commandWord (op sym data : Nat) : Word :=
  BitVec.ofNat 64 (op * 2 ^ 56 + sym * 2 ^ 32 + data)

/-- The word of a command (rules R71, R73, R74). -/
def encode (i : Instr) : Word := commandWord (opcodeOf i) (symOf i) (dataOf i)

/-- The command the decoder reads from `w`'s low `nbits` bits; every command is one 64-bit word (rule
R70), whose bits the opcode table numbers from its least significant one. -/
def decodeTableWord (nbits w : Nat) : Option Instr :=
  if nbits ≤ 64 then
    match decode (BitVec.ofNat 64 (w % 2 ^ nbits)) with
    | .instr i => some i
    | .bad _ => none
  else none

end Sys2Proof
end

