-- ==== Sys2Proof/Config.lean ====
section
/-! DEFINITION. What an implementation of ACE fixes (the four parameters of rule R6 and the constants
rule R7 derives from them), and the one free value of the model: the contents of the table RAM after a
reset (rules R49, R90). -/

namespace Sys2Proof

/-- The four implementation parameters of rule R6, fixed for the life of an instance. -/
structure Params where
  /-- width in bits of `low`, `high` and `code` -/
  W : Nat
  /-- depth of the table RAM -/
  NMAX : Nat
  /-- width in bits of `pend` -/
  PW : Nat
  /-- how many padded reads a session may make -/
  PADMAX : Nat
deriving DecidableEq, Repr

namespace Params

/-- "This hardware", where a single instance is meant: the default column of rule R6. -/
def standard : Params := { W := 32, NMAX := 256, PW := 32, PADMAX := 32 }

/-- The legal ranges of rule R6. -/
abbrev Legal (p : Params) : Prop :=
  3 ≤ p.W ∧ p.W ≤ 32 ∧ 1 ≤ p.NMAX ∧ p.NMAX ≤ 65535 ∧ 1 ≤ p.PW ∧ p.PW ≤ 32 ∧ p.PADMAX ≤ 65535

/-- `FULL = 2^W` (rule R7). -/
def FULL (p : Params) : Nat := 2 ^ p.W

/-- `HALF = 2^(W-1)`, the top bit of a `W`-bit value (rule R7). -/
def HALF (p : Params) : Nat := 2 ^ (p.W - 1)

/-- `QUARTER = 2^(W-2)`, the second-highest bit (rule R7). -/
def QUARTER (p : Params) : Nat := 2 ^ (p.W - 2)

/-- `MASK = 2^W - 1` (rule R7). -/
def MASK (p : Params) : Nat := 2 ^ p.W - 1

/-- `MAXTOTAL = 2^(W-2) - 1`, the largest legal table total (rule R7). -/
def MAXTOTAL (p : Params) : Nat := 2 ^ (p.W - 2) - 1

/-- `2^PW - 1`, the value at which an increment of `pend` raises `PendOverflow` (rules R24, R208). -/
def PENDMAX (p : Params) : Nat := 2 ^ p.PW - 1

end Params

/-- FREE VALUE. What the RAM holds at an index after a reset: "**unspecified**" (rule R49), "entries become
unspecified" (rule R90). The first argument counts the resets, the second is the index. It has no body:
nothing can be proved of its value. Assumption log 3. -/
opaque Config.ramAfterReset : Nat → Nat → Nat

end Sys2Proof
end

