-- ==== Sys2Proof/Machine/State.lean ====
section
/-! DEFINITION. The state of the machine as plain data: the engine's registers, flags and table RAM exactly as
rule R20 lists them, the implementation parameters (rule R6), and the host's side of the five interface
points of rule R52 (what the host will present and answer, and what it has been given). Also the reasons a
step can stop, and the state after reset (rule R49). -/

namespace Sys2Proof.Machine

/-- `MODE`: "four values"; "Values 4 to 7 never occur" (rule R31). -/
inductive Mode where
  | idle
  | enc
  | encDone
  | dec
deriving DecidableEq, Repr

/-- The two byte ports (rules R55, R56). -/
inductive Port where
  | sink
  | source
deriving DecidableEq, Repr

/-- The host's answer to `SinkAppend` (rule R55). -/
inductive SinkReply where
  | ok
  | err
deriving DecidableEq, Repr

/-- The host's answer to `SourceNext` (rule R56). -/
inductive SourceReply where
  | byte (b : Byte)
  | eof
  | err
deriving DecidableEq, Repr

/-- What the host does next at the CMD and RST ports (rules R52, R230). -/
inductive Event where
  /-- a command word is presented and its response awaited -/
  | cmd (w : Word)
  /-- RST is asserted between commands -/
  | rst
  /-- a command word is presented, and RST is asserted before its response, once the command has made `k`
  port transactions (or all of its own, if they are fewer) -/
  | cmdCutByRst (w : Word) (k : Nat)
deriving DecidableEq, Repr

/-- The architectural state of one ACE instance "and nothing else" (rule R20), under the spec's own names.
Quantities of a parameter's width are naturals (rule R9), kept within their width by the rules' own
`AND MASK`; that they stay within it is the invariant of `Safety.lean`. -/
structure Engine where
  /-- `W` bits (rule R21) -/
  low : Nat
  /-- `W` bits, inclusive (rule R22) -/
  high : Nat
  /-- `W` bits (rule R23) -/
  code : Nat
  /-- `PW` bits (rule R24) -/
  pend : Nat
  /-- 8 bits (rule R25) -/
  obuf : Byte
  /-- "values 0 to 7 between primitives" (rule R25) -/
  onb : Fin 8
  /-- 8 bits (rule R26) -/
  ibuf : Byte
  /-- "values 0 to 8" (rule R26) -/
  inb : Fin 9
  /-- 1 bit (rule R26) -/
  eof : Bool
  /-- 16 bits (rule R26) -/
  padcnt : Nat
  /-- the table RAM, `NMAX` entries of `W - 2` bits (rule R27) -/
  F : List Nat
  /-- 16 bits (rule R28) -/
  NSYM : Nat
  /-- `CW` bits (rule R29) -/
  TOTAL : Nat
  /-- 1 bit (rule R30) -/
  CV : Bool
  /-- 3 bits, four values (rule R31) -/
  MODE : Mode
  /-- 1 bit (rule R32) -/
  FAULT : Bool
  /-- 8 bits (rule R32) -/
  CAUSE : BitVec 8
  /-- 25 bits (rule R32) -/
  FINFO : BitVec 25
deriving DecidableEq, Repr

/-- The host's side of the interface points of rule R52. `none` in a list of answers is a request the host
never answers (rule R240). -/
structure Env where
  /-- what the host presents at CMD and RST, in order -/
  inbox : List Event
  /-- the response words given at RSP, oldest first (rule R72) -/
  rsps : List Word
  /-- the bytes appended to the sink, oldest first (rule R55) -/
  sink : List Byte
  /-- the host's answers to the coming `SinkAppend`s; `OK` once they are used up -/
  sinkAnswers : List (Option SinkReply)
  /-- the host's answers to the coming `SourceNext`s; `EOF` once they are used up -/
  source : List (Option SourceReply)
  /-- `some k` while a command runs that RST cuts short after `k` more port transactions (rule R230) -/
  rstIn : Option Nat
deriving DecidableEq, Repr

/-- The whole state: an instance's parameters, its engine, its environment, and how many resets there have
been, which is the model's own field (the free value of `Config.lean` is read with it). -/
structure State where
  params : Params
  eng : Engine
  env : Env
  /-- MODEL's own field: the counter the free value is applied to -/
  fresh : Nat
deriving DecidableEq, Repr

/-- Why the machine stops. ACE's own faults (rule R201) are not here: a fault of the spec is a next state with
`FAULT`, `CAUSE` and `FINFO` written (rule R210). -/
inductive Fault where
  /-- Raised by a command whose `SinkAppend` or `SourceNext` the host never answers, when no RST comes either:
  "**stuck**: the command never ends" (93_implementation_defined.md I9; rule R240 assumes it away). Safe: the
  machine makes no step where the hardware makes none. -/
  | portUnanswered (p : Port)
deriving DecidableEq, Repr

/-- Why the model gives an instruction no meaning. -/
inductive Refusal where
  /-- Raised by an arm of `exec` that has no meaning yet. Safe. No arm does. -/
  | notModelled (mnemonic : String)
deriving DecidableEq, Repr

/-- The value of every engine register and flag after a reset (rule R49), over a given RAM content. -/
def Engine.afterReset (p : Params) (ram : List Nat) : Engine :=
  { low := 0, high := p.MASK, code := 0, pend := 0
    obuf := 0, onb := 0
    ibuf := 0, inb := 0, eof := false, padcnt := 0
    F := ram, NSYM := 0, TOTAL := 0, CV := false
    MODE := .idle, FAULT := false, CAUSE := 0, FINFO := 0 }

/-- A host that presents nothing, and whose ports have moved nothing. -/
def Env.empty : Env :=
  { inbox := [], rsps := [], sink := [], sinkAnswers := [], source := [], rstIn := none }

/-- An instance with parameters `p` right after its power-on RST (rule R230). The RAM's "unspecified" content
is shown as zeros: DESIGN CHOICE, unsafe, assumption log 3. -/
def State.resetOf (p : Params) : State :=
  { params := p
    eng := Engine.afterReset p (List.replicate p.NMAX 0)
    env := Env.empty
    fresh := 0 }

/-- "This hardware" (rule R6) right after reset. -/
def State.reset : State := State.resetOf Params.standard

namespace State

/-- `low <- l; high <- h`. -/
def setBounds (s : State) (l h : Nat) : State := { s with eng.low := l, eng.high := h }

/-- `code <- c`. -/
def setCode (s : State) (c : Nat) : State := { s with eng.code := c }

/-- `pend <- n`. -/
def setPend (s : State) (n : Nat) : State := { s with eng.pend := n }

/-- `obuf <- b; onb <- n`. -/
def setPacker (s : State) (b : Byte) (n : Fin 8) : State := { s with eng.obuf := b, eng.onb := n }

/-- `ibuf <- b; inb <- n`. -/
def setUnpacker (s : State) (b : Byte) (n : Fin 9) : State := { s with eng.ibuf := b, eng.inb := n }

/-- `eof <- e`. -/
def setEof (s : State) (e : Bool) : State := { s with eng.eof := e }

/-- `padcnt <- n`. -/
def setPadcnt (s : State) (n : Nat) : State := { s with eng.padcnt := n }

/-- `F <- f; TOTAL <- t; CV <- 0`: what every table write does (rule R122 (a)). -/
def setTable (s : State) (f : List Nat) (t : Nat) : State :=
  { s with eng.F := f, eng.TOTAL := t, eng.CV := false }

/-- `NSYM <- n`. -/
def setNsym (s : State) (n : Nat) : State := { s with eng.NSYM := n }

/-- `CV <- 1` (rule R122 (b)). -/
def setCV (s : State) : State := { s with eng.CV := true }

/-- `MODE <- m`. -/
def setMode (s : State) (m : Mode) : State := { s with eng.MODE := m }

/-- `FAULT <- 1; CAUSE <- c; FINFO <- i` (rule R210). -/
def setFault (s : State) (c : BitVec 8) (i : BitVec 25) : State :=
  { s with eng.FAULT := true, eng.CAUSE := c, eng.FINFO := i }

/-- The whole engine at once (a reset). -/
def setEngine (s : State) (e : Engine) : State := { s with eng := e }

/-- The host's side changes. -/
def setEnv (s : State) (v : Env) : State := { s with env := v }

/-- One more reset has happened. -/
def countReset (s : State) : State := { s with fresh := s.fresh + 1 }

end State

end Sys2Proof.Machine
end

