-- ==== Sys2Proof/Machine/Flags.lean ====
section
/-! DEFINITION. The tests and flags the rules compute from state: the two renormalisation conditions (rules
R155, R156), table validity (rule R123), and the fields of `STATUS` (rule R37). -/

namespace Sys2Proof.Machine

/-- `NOT_W v = MASK - v` (rule R10). -/
def notW (p : Params) (v : Nat) : Nat := p.MASK - v

/-- `((low XOR high) AND HALF) = 0`: the top bits agree (rule R155). -/
def topsAgree (p : Params) (low high : Nat) : Bool :=
  decide ((low ^^^ high) &&& p.HALF = 0)

/-- `(low AND (NOT_W high) AND QUARTER) != 0`: the underflow condition (rule R156). -/
def underflowing (p : Params) (low high : Nat) : Bool :=
  decide (low &&& notW p high &&& p.QUARTER ≠ 0)

/-- `v[W-1]`, the top bit of a `W`-bit value (rule R10). -/
def topBit (p : Params) (v : Nat) : Bool := v.testBit (p.W - 1)

/-- `TableValid` is `1 <= TOTAL <= MAXTOTAL` (rule R123). -/
def tableValid (s : State) : Bool :=
  decide (1 ≤ s.eng.TOTAL) && decide (s.eng.TOTAL ≤ s.params.MAXTOTAL)

/-- The number of a `MODE` value (rule R31). -/
def modeNumber : Mode → Nat
  | .idle => 0
  | .enc => 1
  | .encDone => 2
  | .dec => 3

/-- `STATUS`: bits 2:0 `MODE`, bit 3 `FAULT`, bit 4 `CV`, bit 5 `SRCEOF` (rule R37). -/
def statusValue (e : Engine) : Nat :=
  modeNumber e.MODE + e.FAULT.toNat * 2 ^ 3 + e.CV.toNat * 2 ^ 4 + e.eof.toNat * 2 ^ 5

end Sys2Proof.Machine
end

