-- ==== Sys2Proof/Machine/Operands.lean ====
section
/-! DEFINITION. What a command's operand names: a table entry, a cumulative frequency (rule R121), a symbol's
sub-interval (rule R152), the point and the symbol a code value stands for (rules R182, R183), and a register
of the register map (rules R36, R37, R47, R48). -/

namespace Sys2Proof.Machine

/-- `F[s]`. -/
def freqAt (e : Engine) (s : Nat) : Nat := e.F.getD s 0

/-- `C(i) = F[0] + F[1] + ... + F[i-1]` (rule R121). -/
def cum (e : Engine) (i : Nat) : Nat := (e.F.take i).sum

/-- `range = high - low + 1`, exactly (rule R152). -/
def rangeOf (e : Engine) : Int := (e.high : Int) - e.low + 1

/-- `Narrow(s)`: the new bounds, exactly; `high'` is -1 where its formula gives that (rules R9, R152). -/
def narrow (e : Engine) (s : Nat) : Int × Int :=
  (e.low + rangeOf e * cum e s / e.TOTAL,
   e.low + rangeOf e * cum e (s + 1) / e.TOTAL - 1)

/-- `DecodeValue()` (rule R182). -/
def decodeValue (e : Engine) : Int :=
  (((e.code : Int) - e.low + 1) * e.TOTAL - 1) / rangeOf e

/-- `FindSymbol(value)`: "the s with 0 <= s < NSYM and C(s) <= value < C(s + 1), if there is one; else NONE"
(rule R183). -/
def findSymbol (e : Engine) (value : Int) : Option Nat :=
  (List.range e.NSYM).find? fun s => decide ((cum e s : Int) ≤ value) && decide (value < cum e (s + 1))

/-- `CONFIG0` (rule R47). -/
def config0 (p : Params) : Nat := p.W + p.PW * 2 ^ 8 + p.NMAX * 2 ^ 16

/-- `CONFIG1` (rule R48). -/
def config1 (p : Params) : Nat := p.PADMAX

/-- `Reg(r)`: the register map of rule R36. -/
def regValue (s : State) (r : Nat) : Nat :=
  match r with
  | 0x0 => statusValue s.eng
  | 0x1 => s.eng.CAUSE.toNat
  | 0x2 => s.eng.FINFO.toNat
  | 0x3 => s.eng.NSYM
  | 0x4 => s.eng.TOTAL
  | 0x5 => s.eng.low
  | 0x6 => s.eng.high
  | 0x7 => s.eng.code
  | 0x8 => s.eng.pend
  | 0x9 => s.eng.obuf.toNat + s.eng.onb.val * 2 ^ 8
  | 0xA => s.eng.ibuf.toNat + s.eng.inb.val * 2 ^ 8
  | 0xB => s.eng.padcnt
  | 0xC => config0 s.params
  | 0xD => config1 s.params
  | _ => 0

end Sys2Proof.Machine
end

