-- ==== Sys2Proof/Machine/Ops.lean ====
section
/-! DEFINITION. The operations every command is written with: how a piece of pseudocode ends (rule R11), the
table RAM, the two byte ports (rules R55, R56), the response word (rule R72), ENTERING A FAULT (rule R210) and
the one way out of it, a reset (rules R213, R230), and the frame around a command's pseudocode (rules R78,
R212). -/

namespace Sys2Proof.Machine

/-! ### How a piece of pseudocode ends -/

/-- The cause a `raise` names (rule R201). An `IoError` carries its port. -/
inductive Cause where
  | invalidFrequencyTable
  | codingRangeError
  | decodingRangeError
  | prematureEndOfStream
  | ioError (p : Port)
  | illegalCommand
  | pendOverflow
deriving DecidableEq, Repr

/-- What ends a piece of pseudocode early. -/
inductive Stop where
  /-- `raise K` (rule R11) -/
  | raised (c : Cause)
  /-- the request at this port is never answered (rule R240) -/
  | unanswered (p : Port)
  /-- RST was asserted (rule R230) -/
  | rst
deriving DecidableEq, Repr

/-- A piece of pseudocode ran to its end with a result, or stopped early; "the statements already run keep
their effect, the rest do not run" (rule R11), so both carry the state. -/
inductive Run (α : Type) where
  | done (a : α) (s : State)
  | stop (w : Stop) (s : State)
deriving DecidableEq, Repr

/-- One piece of pseudocode after another. -/
def Run.bind {α β : Type} (r : Run α) (k : α → State → Run β) : Run β :=
  match r with
  | .done a s => k a s
  | .stop w s => .stop w s

/-- `raise K`. -/
def raise {α : Type} (c : Cause) (s : State) : Run α := .stop (.raised c) s

/-! ### The table RAM -/

namespace Memory

/-- The RAM is `NMAX` entries of `W - 2` bits (rule R27): its one form. -/
def wf (p : Params) (f : List Nat) : Bool :=
  decide (f.length = p.NMAX) && f.all fun v => decide (v < 2 ^ (p.W - 2))

/-- `F[s] <- v`. -/
def write (f : List Nat) (s v : Nat) : List Nat := f.set s v

/-- `for i in 0 .. n-1: F[i] <- 0` (rule R124). -/
def zeroFirst (f : List Nat) (n : Nat) : List Nat := List.replicate n 0 ++ f.drop n

/-- The content after a reset, free in every entry's `W - 2` bits (rule R49). -/
def afterReset (p : Params) (k : Nat) : List Nat :=
  (List.range p.NMAX).map fun i => Config.ramAfterReset k i % 2 ^ (p.W - 2)

end Memory

/-! ### The byte ports -/

/-- RST is asserted before the next port transaction is made (rule R230). -/
def rstDue (s : State) : Bool := decide (s.env.rstIn = some 0)

/-- One port transaction has been made. -/
def Env.transacted (v : Env) : Env := { v with rstIn := v.rstIn.map (· - 1) }

/-- A request that is never answered: only RST helps (rule R240, 93_implementation_defined.md I9). -/
def unanswered {α : Type} (p : Port) (s : State) : Run α :=
  if s.env.rstIn.isSome then .stop .rst s else .stop (.unanswered p) s

/-- `SinkAppend(byte)` (rule R55). -/
def sinkAppend (b : Byte) (s : State) : Run SinkReply :=
  if rstDue s then .stop .rst s
  else match s.env.sinkAnswers with
    | [] => .done .ok (s.setEnv { s.env.transacted with sink := s.env.sink ++ [b] })
    | some .ok :: r =>
      .done .ok (s.setEnv { s.env.transacted with sink := s.env.sink ++ [b], sinkAnswers := r })
    | some .err :: r => .done .err (s.setEnv { s.env.transacted with sinkAnswers := r })
    | none :: r => unanswered .sink (s.setEnv { s.env.transacted with sinkAnswers := r })

/-- `SourceNext()` (rule R56). -/
def sourceNext (s : State) : Run SourceReply :=
  if rstDue s then .stop .rst s
  else match s.env.source with
    | [] => .done .eof (s.setEnv s.env.transacted)
    | some a :: r => .done a (s.setEnv { s.env.transacted with source := r })
    | none :: r => unanswered .source (s.setEnv { s.env.transacted with source := r })

/-! ### The response -/

/-- `rsp(st, val)`: `st` in bits 63:56, bits 55:48 zero, `val` in bits 47:0 (rule R72). -/
def responseWord (st val : Nat) : Word := BitVec.ofNat 64 (st % 2 ^ 8 * 2 ^ 56 + val % 2 ^ 48)

/-- The response word is given at RSP. -/
def respond (st val : Nat) (s : State) : State :=
  s.setEnv { s.env with rsps := s.env.rsps ++ [responseWord st val] }

/-! ### Faults and resets -/

/-- The cause codes of rule R201. -/
def causeCode : Cause → Nat
  | .invalidFrequencyTable => 1
  | .codingRangeError => 2
  | .decodingRangeError => 3
  | .prematureEndOfStream => 4
  | .ioError _ => 5
  | .illegalCommand => 6
  | .pendOverflow => 7

/-- `FINFO[24]`: "1 only for IoError on the source" (rule R210). -/
def portBit : Cause → Nat
  | .ioError .source => 1
  | .ioError .sink => 0
  | .invalidFrequencyTable => 0
  | .codingRangeError => 0
  | .decodingRangeError => 0
  | .prematureEndOfStream => 0
  | .illegalCommand => 0
  | .pendOverflow => 0

/-- `op OR (sym << 8) OR (port << 24)` (rule R210). -/
def finfoValue (op sym port : Nat) : BitVec 25 :=
  BitVec.ofNat 25 (op % 2 ^ 8 + sym % 2 ^ 16 * 2 ^ 8 + port * 2 ^ 24)

/-- FAULT ENTRY, all but the response (rule R210): "Nothing is saved anywhere else; no mode changes". -/
def enterFault (c : Cause) (op sym : Nat) (s : State) : State :=
  s.setFault (BitVec.ofNat 8 (causeCode c)) (finfoValue op sym (portBit c))

/-- A reset of either kind (rules R90, R230), the one way out of a fault (rule R213): every item of engine
state gets its value of rule R49, the RAM's content becomes free; "What reset does not touch" (rule R231) is
the parameters and the ports. -/
def resetEngine (s : State) : State :=
  (s.setEngine (Engine.afterReset s.params (Memory.afterReset s.params s.fresh))).countReset

/-- RST (rule R230): the reset, with no command left running. -/
def hardReset (s : State) : State :=
  (resetEngine s).setEnv { s.env with rstIn := none }

/-! ### The frame around a command's pseudocode -/

/-- A command's last act is its response (rule R72), unless RST was to come before it (rule R230: "it gives
no response"). -/
def answer (st val : Nat) (s : State) : Host.Outcome State Fault Refusal :=
  .next (if s.env.rstIn.isSome then hardReset s else respond st val s)

/-- How a command ends, its `op` and `sym` fields being these: with `rsp(st=0, val=result)` (rule R78), in a
fault (rule R210), abandoned by RST (rule R230), or never (rule R240). -/
def conclude (op sym : Nat) (r : Run Nat) : Host.Outcome State Fault Refusal :=
  match r with
  | .done v s => answer 0 v s
  | .stop (.raised c) s => answer (causeCode c) 0 (enterFault c op sym s)
  | .stop (.unanswered p) _ => .fault (.portUnanswered p)
  | .stop .rst s => .next (hardReset s)

/-- A command that runs whatever `FAULT` says: `RESET` and `RDREG` (rule R78). -/
def issueAlways (i : Instr) (body : State → Run Nat) (s : State) : Host.Outcome State Fault Refusal :=
  conclude (opcodeOf i) (symOf i) (body s)

/-- Every other command: refused while `FAULT = 1`, "answered `rsp(st = CAUSE, val = 0)`" (rules R78, R212). -/
def issue (i : Instr) (body : State → Run Nat) (s : State) : Host.Outcome State Fault Refusal :=
  if s.eng.FAULT then answer s.eng.CAUSE.toNat 0 s
  else conclude (opcodeOf i) (symOf i) (body s)

/-- A word that is not well formed: `IllegalCommand`, or refused while `FAULT = 1` (rules R75, R78, R212). -/
def issueMalformed (w : Word) (s : State) : Host.Outcome State Fault Refusal :=
  if s.eng.FAULT then answer s.eng.CAUSE.toNat 0 s
  else conclude (opField w) (symField w) (raise .illegalCommand s)

end Sys2Proof.Machine
end

