-- ==== Sys2Proof/Machine/Control.lean ====
section
/-! DEFINITION. The control commands `RESET` and `RDREG` (rules R90, R91), the two that run while
`FAULT = 1`. -/

namespace Sys2Proof.Machine

/-- `RESET` (rule R90). -/
def execReset (s : State) : Host.Outcome State Fault Refusal :=
  issueAlways .reset (fun s => .done 0 (resetEngine s)) s

/-- `RDREG r` (rule R91). -/
def execRdreg (r : Nat) (s : State) : Host.Outcome State Fault Refusal :=
  issueAlways (.rdreg r) (fun s => .done (regValue s r) s) s

end Sys2Proof.Machine
end

