-- ==== Sys2Proof/Machine/Bitstream.lean ====
section
/-! DEFINITION. The bit stream unit (rules R100 to R105): the packer's `WriteBit` and `CloseBits`, the
unpacker's `ReadBit` and `ReadBitPad`. Bits go most significant first (rule R57). -/

namespace Sys2Proof.Machine

/-- `((obuf << 1) OR b) AND 0xFF` (rule R101). -/
def packBit (obuf : Byte) (b : Bool) : Byte := obuf <<< 1 ||| BitVec.ofNat 8 b.toNat

/-- `WriteBit(b)` (rule R101). -/
def writeBit (b : Bool) (s : State) : Run Unit :=
  let byte := packBit s.eng.obuf b
  if h : s.eng.onb.val + 1 = 8 then
    (sinkAppend byte (s.setPacker 0 0)).bind fun r s' =>
      match r with
      | .ok => .done () s'
      | .err => raise (.ioError .sink) s'
  else .done () (s.setPacker byte ⟨s.eng.onb.val + 1, by omega⟩)

/-- `while onb != 0: WriteBit(0)`, at most `n` times (rule R102). -/
def closeLoop : Nat → State → Run Unit
  | 0, s => .done () s
  | n + 1, s =>
    if s.eng.onb.val = 0 then .done () s
    else (writeBit false s).bind fun _ s' => closeLoop n s'

/-- `CloseBits()`: at most 7 bits are written (rules R102, R240). -/
def closeBits (s : State) : Run Unit := closeLoop 7 s

/-- `inb <- inb - 1; return ibuf[inb]` (rule R104). -/
def takeBit (s : State) : Run (Option Bool) :=
  .done (some (s.eng.ibuf.getLsbD (s.eng.inb.val - 1)))
    (s.setUnpacker s.eng.ibuf ⟨s.eng.inb.val - 1, by omega⟩)

/-- `ReadBit()`; `none` is the indicator `EOFIND` (rule R104). -/
def readBit (s : State) : Run (Option Bool) :=
  if s.eng.eof then .done none s
  else if s.eng.inb.val = 0 then
    (sourceNext s).bind fun r s' =>
      match r with
      | .err => raise (.ioError .source) s'
      | .eof => .done none (s'.setEof true)
      | .byte b => takeBit (s'.setUnpacker b 8)
  else takeBit s

/-- `ReadBitPad()` (rule R105). -/
def readBitPad (s : State) : Run Bool :=
  (readBit s).bind fun r s' =>
    match r with
    | some b => .done b s'
    | none =>
      if s'.eng.padcnt = s'.params.PADMAX then raise .prematureEndOfStream s'
      else .done false (s'.setPadcnt (s'.eng.padcnt + 1))

end Sys2Proof.Machine
end

