-- ==== Sys2Proof/Machine/Renorm.lean ====
section
/-! DEFINITION. `EmitBit` (rule R154) and `Renorm` (rules R155, R156), which the encoder and the decoder
share. -/

namespace Sys2Proof.Machine

/-- `while pend > 0: WriteBit(1 - b); pend <- pend - 1`, where `pend` holds the first argument (rule R154). -/
def emitOwed (b : Bool) : Nat → State → Run Unit
  | 0, s => .done () s
  | n + 1, s => (writeBit (!b) s).bind fun _ s' => emitOwed b n (s'.setPend n)

/-- `EmitBit(b)` (rule R154). -/
def emitBit (b : Bool) (s : State) : Run Unit :=
  (writeBit b s).bind fun _ s' => emitOwed b s'.eng.pend s'

/-- `code <- c OR ReadBitPad()`, for a `c` whose bit 0 is 0 (rules R155, R156, R181). -/
def pullBit (c : Nat) (s : State) : Run Unit :=
  (readBitPad s).bind fun b s' => .done () (s'.setCode (c ||| b.toNat))

/-- Which side renormalises (rule R155). -/
inductive Side where
  | encode
  | decode
deriving DecidableEq, Repr

/-- `(v << 1) AND MASK`. -/
def shiftIn (p : Params) (v : Nat) : Nat := v <<< 1 &&& p.MASK

/-- One pass of the first loop: a shift (rule R155). -/
def shiftStep (side : Side) (s : State) : Run Unit :=
  let p := s.params
  (match side with
    | .encode => emitBit (topBit p s.eng.low) s
    | .decode => pullBit (shiftIn p s.eng.code) s).bind fun _ s' =>
      .done () (s'.setBounds (shiftIn p s'.eng.low) (shiftIn p s'.eng.high ||| 1))

/-- One pass of the second loop: an underflow step (rule R156). -/
def underflowStep (side : Side) (s : State) : Run Unit :=
  let p := s.params
  (match side with
    | .encode =>
      if s.eng.pend = p.PENDMAX then raise .pendOverflow s
      else .done () (s.setPend (s.eng.pend + 1))
    | .decode => pullBit (shiftIn p (s.eng.code ^^^ p.QUARTER)) s).bind fun _ s' =>
      .done () (s'.setBounds (shiftIn p (s'.eng.low ^^^ p.QUARTER)) (shiftIn p (s'.eng.high ^^^ p.QUARTER) ||| 1))

/-- The first loop, at most `n` passes (rule R155). -/
def shiftLoop (side : Side) : Nat → State → Run Unit
  | 0, s => .done () s
  | n + 1, s =>
    if topsAgree s.params s.eng.low s.eng.high then
      (shiftStep side s).bind fun _ s' => shiftLoop side n s'
    else .done () s

/-- The second loop, at most `n` passes (rule R156). -/
def underflowLoop (side : Side) : Nat → State → Run Unit
  | 0, s => .done () s
  | n + 1, s =>
    if underflowing s.params s.eng.low s.eng.high then
      (underflowStep side s).bind fun _ s' => underflowLoop side n s'
    else .done () s

/-- `Renorm(side)`: "The loop ends after at most `W` passes" (rule R155), "after at most `W - 1` passes" (rule
R156), so that many are allowed. -/
def renorm (side : Side) (s : State) : Run Unit :=
  (shiftLoop side s.params.W s).bind fun _ s' => underflowLoop side (s'.params.W - 1) s'

end Sys2Proof.Machine
end

