-- ==== Sys2Proof/Machine/Encoder.lean ====
section
/-! DEFINITION. The encoder's commands `EINIT`, `EWRITE`, `EFINISH` (rules R151, R153, R157). -/

namespace Sys2Proof.Machine

/-- The pseudocode of `EINIT` (rule R151). -/
def einitBody (s : State) : Run Nat :=
  if s.eng.MODE ≠ .idle then raise .illegalCommand s
  else .done 0 (((((s.setBounds 0 s.params.MASK).setCode 0).setPend 0).setPacker 0 0).setMode .enc)

/-- `(low', high') <- Narrow(s)`, the guard of rule R203, and `low <- low'; high <- high'`; shared by `EWRITE`
and `DREAD` (rules R152, R153, R184). -/
def narrowTo (sym : Nat) (s : State) : Run Unit :=
  let b := narrow s.eng sym
  if b.2 < b.1 then raise .codingRangeError s
  else .done () (s.setBounds b.1.toNat b.2.toNat)

/-- The pseudocode of `EWRITE s` (rule R153). -/
def ewriteBody (sym : Nat) (s : State) : Run Nat :=
  if s.eng.MODE ≠ .enc then raise .illegalCommand s
  else if s.eng.NSYM ≤ sym then raise .illegalCommand s
  else if tableValid s = false then raise .invalidFrequencyTable s
  else if freqAt s.eng sym = 0 then raise .invalidFrequencyTable s
  else (narrowTo sym s.setCV).bind fun _ s' =>
    (renorm .encode s').bind fun _ t => .done 0 t

/-- The pseudocode of `EFINISH` (rule R157). -/
def efinishBody (s : State) : Run Nat :=
  if s.eng.MODE ≠ .enc then raise .illegalCommand s
  else if s.eng.pend = s.params.PENDMAX then raise .pendOverflow s
  else (emitBit (decide (¬ s.eng.low < s.params.QUARTER)) (s.setPend (s.eng.pend + 1))).bind fun _ s' =>
    (closeBits s').bind fun _ t => .done 0 (t.setMode .encDone)

/-- `EINIT` (rule R151). -/
def execEinit (s : State) : Host.Outcome State Fault Refusal :=
  issue .einit einitBody s

/-- `EWRITE s` (rule R153). -/
def execEwrite (sym : Nat) (s : State) : Host.Outcome State Fault Refusal :=
  issue (.ewrite sym) (ewriteBody sym) s

/-- `EFINISH` (rule R157). -/
def execEfinish (s : State) : Host.Outcome State Fault Refusal :=
  issue .efinish efinishBody s

end Sys2Proof.Machine
end

