-- ==== Sys2Proof/Machine/Decoder.lean ====
section
/-! DEFINITION. The decoder's commands `DINIT` and `DREAD` (rules R181, R184). -/

namespace Sys2Proof.Machine

/-- `for i in 1 .. n: code <- ((code << 1) AND MASK) OR ReadBitPad()` (rule R181). -/
def fillCode : Nat → State → Run Unit
  | 0, s => .done () s
  | n + 1, s => (pullBit (shiftIn s.params s.eng.code) s).bind fun _ s' => fillCode n s'

/-- The pseudocode of `DINIT` (rule R181). -/
def dinitBody (s : State) : Run Nat :=
  if s.eng.MODE ≠ .idle then raise .illegalCommand s
  else
    (fillCode s.params.W
      (((((((s.setBounds 0 s.params.MASK).setCode 0).setPend 0).setUnpacker 0 0).setEof false).setPadcnt 0).setMode
        .dec)).bind
      fun _ t => .done 0 t

/-- The pseudocode of `DREAD` (rule R184). -/
def dreadBody (s : State) : Run Nat :=
  if s.eng.MODE ≠ .dec then raise .illegalCommand s
  else if tableValid s = false then raise .invalidFrequencyTable s
  else match findSymbol s.eng (decodeValue s.eng) with
    | none => raise .decodingRangeError s.setCV
    | some sym => (narrowTo sym s.setCV).bind fun _ s' =>
      (renorm .decode s').bind fun _ t => .done sym t

/-- `DINIT` (rule R181). -/
def execDinit (s : State) : Host.Outcome State Fault Refusal :=
  issue .dinit dinitBody s

/-- `DREAD` (rule R184). -/
def execDread (s : State) : Host.Outcome State Fault Refusal :=
  issue .dread dreadBody s

end Sys2Proof.Machine
end

