-- ==== Sys2Proof/Machine/Table.lean ====
section
/-! DEFINITION. The table commands `TINIT`, `TSET`, `TINC`, `TGET`, `TCLO`, `TCHI`, `TTOT` (rules R124 to
R130). -/

namespace Sys2Proof.Machine

/-- `if s >= NSYM: raise IllegalCommand`, then the rest: the range check of every symbol operand (rule R207). -/
def withSymbol (sym : Nat) (body : State → Run Nat) (s : State) : Run Nat :=
  if s.eng.NSYM ≤ sym then raise .illegalCommand s else body s

/-- The pseudocode of `TINIT n` (rule R124). -/
def tinitBody (n : Nat) (s : State) : Run Nat :=
  if s.eng.MODE ≠ .idle then raise .illegalCommand s
  else if n = 0 ∨ s.params.NMAX < n then raise .illegalCommand s
  else .done 0 ((s.setNsym n).setTable (Memory.zeroFirst s.eng.F n) 0)

/-- The pseudocode of `TSET s, f` (rule R125). -/
def tsetBody (sym f : Nat) : State → Run Nat :=
  withSymbol sym fun s =>
    if s.params.MAXTOTAL < f then raise .invalidFrequencyTable s
    else .done 0 (s.setTable (Memory.write s.eng.F sym f) (s.eng.TOTAL - freqAt s.eng sym + f))

/-- The pseudocode of `TINC s` (rule R126). -/
def tincBody (sym : Nat) : State → Run Nat :=
  withSymbol sym fun s =>
    if s.params.MAXTOTAL < freqAt s.eng sym + 1 then raise .invalidFrequencyTable s
    else .done 0 (s.setTable (Memory.write s.eng.F sym (freqAt s.eng sym + 1)) (s.eng.TOTAL + 1))

/-- The pseudocode of `TGET s` (rule R127). -/
def tgetBody (sym : Nat) : State → Run Nat :=
  withSymbol sym fun s => .done (freqAt s.eng sym) s

/-- The pseudocode of `TCLO s` (rule R128). -/
def tcloBody (sym : Nat) : State → Run Nat :=
  withSymbol sym fun s => .done (cum s.eng sym) s.setCV

/-- The pseudocode of `TCHI s` (rule R129). -/
def tchiBody (sym : Nat) : State → Run Nat :=
  withSymbol sym fun s => .done (cum s.eng (sym + 1)) s.setCV

/-- `TINIT n` (rule R124). -/
def execTinit (n : Nat) (s : State) : Host.Outcome State Fault Refusal :=
  issue (.tinit n) (tinitBody n) s

/-- `TSET s, f` (rule R125). -/
def execTset (sym f : Nat) (s : State) : Host.Outcome State Fault Refusal :=
  issue (.tset sym f) (tsetBody sym f) s

/-- `TINC s` (rule R126). -/
def execTinc (sym : Nat) (s : State) : Host.Outcome State Fault Refusal :=
  issue (.tinc sym) (tincBody sym) s

/-- `TGET s` (rule R127). -/
def execTget (sym : Nat) (s : State) : Host.Outcome State Fault Refusal :=
  issue (.tget sym) (tgetBody sym) s

/-- `TCLO s` (rule R128). -/
def execTclo (sym : Nat) (s : State) : Host.Outcome State Fault Refusal :=
  issue (.tclo sym) (tcloBody sym) s

/-- `TCHI s` (rule R129). -/
def execTchi (sym : Nat) (s : State) : Host.Outcome State Fault Refusal :=
  issue (.tchi sym) (tchiBody sym) s

/-- `TTOT` (rule R130). -/
def execTtot (s : State) : Host.Outcome State Fault Refusal :=
  issue .ttot (fun s => .done s.eng.TOTAL s) s

end Sys2Proof.Machine
end

