-- ==== Sys2Proof/Machine/Dispatch.lean ====
section
/-! DEFINITION. One arm per command: which meaning a command has. -/

namespace Sys2Proof.Machine

def exec (i : Instr) (s : State) : Host.Outcome State Fault Refusal :=
  match i with
  | .reset => Sys2Proof.Machine.execReset s
  | .rdreg r => Sys2Proof.Machine.execRdreg r s
  | .tinit n => Sys2Proof.Machine.execTinit n s
  | .tset sym f => Sys2Proof.Machine.execTset sym f s
  | .tinc sym => Sys2Proof.Machine.execTinc sym s
  | .tget sym => Sys2Proof.Machine.execTget sym s
  | .tclo sym => Sys2Proof.Machine.execTclo sym s
  | .tchi sym => Sys2Proof.Machine.execTchi sym s
  | .ttot => Sys2Proof.Machine.execTtot s
  | .einit => Sys2Proof.Machine.execEinit s
  | .ewrite sym => Sys2Proof.Machine.execEwrite sym s
  | .efinish => Sys2Proof.Machine.execEfinish s
  | .dinit => Sys2Proof.Machine.execDinit s
  | .dread => Sys2Proof.Machine.execDread s

end Sys2Proof.Machine
end

