-- ==== Sys2Proof/Machine/Sequencer.lean ====
section
/-! DEFINITION. The command sequencer (rules R2, R52, R78): what the host's next event makes the engine do. -/

namespace Sys2Proof.Machine

/-- Examine one command word and run it to completion (rule R78). -/
def runWord (w : Word) (s : State) : Host.Outcome State Fault Refusal :=
  match decode w with
  | .instr i => exec i s
  | .bad _ => issueMalformed w s

/-- The event at the head of the inbox has been taken; `cut` says after how many port transactions RST cuts
the command short, if it does. -/
def takeEvent (rest : List Event) (cut : Option Nat) (s : State) : State :=
  s.setEnv { s.env with inbox := rest, rstIn := cut }

/-- One event of the host's; with none, "an idle ACE (no command in hand) keeps all its state" (rule R221). -/
def serve (s : State) : Host.Outcome State Fault Refusal :=
  match s.env.inbox with
  | [] => .next s
  | .cmd w :: rest => runWord w (takeEvent rest none s)
  | .rst :: rest => .next (hardReset (takeEvent rest none s))
  | .cmdCutByRst w k :: rest => runWord w (takeEvent rest (some k) s)

/-- The host will present this word next. -/
def presentWord (w : Word) (s : State) : State :=
  s.setEnv { s.env with inbox := .cmd w :: s.env.inbox }

end Sys2Proof.Machine
end

