-- ==== Sys2Proof/Machine/Step.lean ====
section
/-! DEFINITION. One step: one event of the host's, served to its end (rules R52, R59). ACE has no program
counter and fetches nothing (rule R34): its next instruction is the word the host presents next. -/

namespace Sys2Proof.Machine

/-- One step of the machine. -/
def step (s : State) : Host.Outcome State Fault Refusal := serve s

/-- `s` with the host about to present the command word whose low `nbits` bits are `w`'s, all bits above them
0 (a command is one 64-bit word, rule R70). -/
def State.withFetchWord (s : State) (nbits w : Nat) : State :=
  presentWord (BitVec.ofNat 64 (w % 2 ^ nbits)) s

end Sys2Proof.Machine
end

