-- ==== Sys2Proof/WellFormed.lean ====
section
/-! DEFINITION. Which commands a command word can carry: the field widths of rule R71. A well-formed
command may still be out of the engine's range (`s >= NSYM`, `n > NMAX`, `f > MAXTOTAL`); that is the
command's own rule to catch (rule R83), not this check's. -/

namespace Sys2Proof

/-- A value of the 16-bit `sym` field (rule R71). -/
abbrev FitsSym (v : Nat) : Prop := v < 2 ^ 16

/-- A value of the 32-bit `data` field (rule R71). -/
abbrev FitsData (v : Nat) : Prop := v < 2 ^ 32

/-- The operands of a command fit their fields (rules R71, R74, R83). -/
def Instr.wf : Instr → Bool
  | .reset => true
  | .rdreg r => decide (FitsSym r)
  | .tinit n => decide (FitsData n)
  | .tset s f => decide (FitsSym s) && decide (FitsData f)
  | .tinc s => decide (FitsSym s)
  | .tget s => decide (FitsSym s)
  | .tclo s => decide (FitsSym s)
  | .tchi s => decide (FitsSym s)
  | .ttot => true
  | .einit => true
  | .ewrite s => decide (FitsSym s)
  | .efinish => true
  | .dinit => true
  | .dread => true

end Sys2Proof
end

