-- ==== Sys2Proof/Safety.lean ====
section
/-! DEFINITION. The terms the claims use: the invariant of rule R33 with the widths of rule R20, what a session's
bits are as a sequence (rules R57, R58, R103), the renormalisation "in numbers" (rules R155, R156), and the
states a command may be answered from and in. Nothing here is called by the machine. -/

namespace Sys2Proof.Machine

/-! ### The invariant (rule R33) -/

/-- Every register holds a value of its width (rules R20 to R30, R33 (d), (e), (g)). -/
abbrev RegistersFit (s : State) : Prop :=
  s.eng.low < 2 ^ s.params.W ∧ s.eng.high < 2 ^ s.params.W ∧ s.eng.code < 2 ^ s.params.W ∧
  s.eng.pend < 2 ^ s.params.PW ∧ s.eng.obuf.toNat < 2 ^ s.eng.onb.val ∧ s.eng.padcnt ≤ s.params.PADMAX

/-- The RAM has its form, the alphabet fits it, and `TOTAL` is the exact sum (rules R27 to R29, R33 (f)). -/
abbrev TableExact (s : State) : Prop :=
  Memory.wf s.params s.eng.F = true ∧ s.eng.NSYM ≤ s.params.NMAX ∧
  s.eng.TOTAL = (s.eng.F.take s.eng.NSYM).sum

/-- In a session the bounds' top bits are 0 and 1 and no underflow step is due (rule R33 (a)). -/
abbrev IntervalSettled (s : State) : Prop :=
  s.eng.FAULT = false → s.eng.MODE = .enc ∨ s.eng.MODE = .dec →
    s.eng.low < s.params.HALF ∧ s.params.HALF ≤ s.eng.high ∧
    ¬ (s.params.QUARTER ≤ s.eng.low ∧ s.eng.high < s.params.HALF + s.params.QUARTER)

/-- In a decode session `low <= code <= high` (rule R33 (b)). -/
abbrev CodeInside (s : State) : Prop :=
  s.eng.FAULT = false → s.eng.MODE = .dec → s.eng.low ≤ s.eng.code ∧ s.eng.code ≤ s.eng.high

/-- In a decode session nothing is owed (rule R33 (c)). -/
abbrev NothingOwedInDecode (s : State) : Prop := s.eng.MODE = .dec → s.eng.pend = 0

/-- `CAUSE` and `FINFO` are 0 while `FAULT = 0`, and `CAUSE` is one of the seven codes while it is 1 (rules
R32, R201). -/
abbrev FaultLatchExact (s : State) : Prop :=
  (s.eng.FAULT = false → s.eng.CAUSE = 0 ∧ s.eng.FINFO = 0) ∧
  (s.eng.FAULT = true → 1 ≤ s.eng.CAUSE.toNat ∧ s.eng.CAUSE.toNat ≤ 7)

/-- The invariant of rule R33, for an instance with legal parameters (rule R6). -/
abbrev Inv (s : State) : Prop :=
  s.params.Legal ∧ RegistersFit s ∧ TableExact s ∧ IntervalSettled s ∧ CodeInside s ∧
  NothingOwedInDecode s ∧ FaultLatchExact s

/-! ### The coded stream as a sequence of bits -/

/-- The low `n` bits of `v`, the highest first. -/
def bitsOf (n v : Nat) : List Bool := (List.range n).map fun k => v.testBit (n - 1 - k)

/-- A byte's bits, "most significant bit first" (rule R57). -/
def byteBits (b : Byte) : List Bool := bitsOf 8 b.toNat

/-- Every bit written so far: those in the sink, then "the low `onb` bits of `obuf`, oldest highest" (rule
R103). -/
def outBits (s : State) : List Bool :=
  s.env.sink.flatMap byteBits ++ bitsOf s.eng.onb.val s.eng.obuf.toNat

/-- A list of bytes as the host's coming answers at the source, then `EOF` (rule R56). -/
def answersOf (bytes : List Byte) : List (Option SourceReply) := bytes.map fun b => some (.byte b)

/-- Every bit still to come when the source holds these bytes: the unread bits of `ibuf`, then the bytes'; none
once `eof` is latched (rules R26, R104). -/
def inBits (e : Engine) (bytes : List Byte) : List Bool :=
  if e.eof then [] else bitsOf e.inb.val e.ibuf.toNat ++ bytes.flatMap byteBits

/-- The host's coming answers at the source when it has these bytes left and then says `EOF` (rule R56): because its
list is used up (`none`, assumption log 4), or by an `EOF` of its own, whatever its list holds after it. -/
def streamOf (bytes : List Byte) (more : Option (List (Option SourceReply))) : List (Option SourceReply) :=
  answersOf bytes ++ more.elim [] (some .eof :: ·)

/-- The source holds these bytes and then says `EOF`; once `eof` is latched it "is not asked again" (rule R26), and
may hold anything. -/
abbrev SourceHolds (s : State) (bytes : List Byte) (more : Option (List (Option SourceReply))) : Prop :=
  s.eng.eof = false → s.env.source = streamOf bytes more

/-- How many of these bytes reading `n` bits takes: "a byte is fetched only when a bit of it is needed" (rule
R104). -/
def bytesFetched (e : Engine) (bytes : List Byte) (n : Nat) : Nat :=
  if e.eof then 0 else min ((n - e.inb.val + 7) / 8) bytes.length

/-- How many bits of `ibuf` are unread after reading `n` bits (rules R26, R104). -/
def unreadAfter (e : Engine) (bytes : List Byte) (n : Nat) : Nat :=
  if e.eof then e.inb.val else e.inb.val + 8 * bytesFetched e bytes n - n

/-- The source's coming answers after reading `n` bits, padding among them (rules R56, R104). -/
def sourceAfter (s : State) (bytes : List Byte) (more : Option (List (Option SourceReply))) (n : Nat) :
    List (Option SourceReply) :=
  if s.eng.eof then s.env.source
  else if (inBits s.eng bytes).length < n then more.getD []
  else streamOf (bytes.drop (bytesFetched s.eng bytes n)) more

/-- The number a sequence of bits writes in binary, the first bit highest. -/
def bitsValue (bits : List Bool) : Nat := bits.foldl (fun v b => 2 * v + b.toNat) 0

/-- The first `n` bits of a sequence continued with zeros for ever (rules R105, R107). -/
def padded (n : Nat) (bits : List Bool) : List Bool := (bits ++ List.replicate n false).take n

/-! ### Narrowing and renormalisation in numbers -/

/-- `low'` of rule R152, over naturals. -/
def narrowedLow (e : Engine) (sym : Nat) : Nat :=
  e.low + (e.high - e.low + 1) * cum e sym / e.TOTAL

/-- `high'` of rule R152, over naturals. -/
def narrowedHigh (e : Engine) (sym : Nat) : Nat :=
  e.low + (e.high - e.low + 1) * cum e (sym + 1) / e.TOTAL - 1

/-- How many shifts, how many underflow steps, and the bounds they lead to. -/
structure RenormPlan where
  shifts : Nat
  underflows : Nat
  low : Nat
  high : Nat
deriving DecidableEq, Repr

/-- At most `n` shifts: "a shift maps `low` to `2 * low - b * FULL`, `high` to `2 * high - b * FULL + 1`", `b`
being the top bit both share (rule R155). -/
def shiftPlan (p : Params) : Nat → Nat → Nat → RenormPlan
  | 0, l, h => ⟨0, 0, l, h⟩
  | n + 1, l, h =>
    if h < p.HALF then
      let r := shiftPlan p n (2 * l) (2 * h + 1)
      { r with shifts := r.shifts + 1 }
    else if p.HALF ≤ l then
      let r := shiftPlan p n (2 * l - p.FULL) (2 * h - p.FULL + 1)
      { r with shifts := r.shifts + 1 }
    else ⟨0, 0, l, h⟩

/-- At most `n` underflow steps: "`low` maps to `2 * low - HALF`, `high` to `2 * high - HALF + 1`", while both
lie in `[QUARTER, HALF + QUARTER)` (rule R156). -/
def underflowPlan (p : Params) : Nat → Nat → Nat → RenormPlan
  | 0, l, h => ⟨0, 0, l, h⟩
  | n + 1, l, h =>
    if p.QUARTER ≤ l ∧ h < p.HALF + p.QUARTER then
      let r := underflowPlan p n (2 * l - p.HALF) (2 * h - p.HALF + 1)
      { r with underflows := r.underflows + 1 }
    else ⟨0, 0, l, h⟩

/-- The shifts, then the underflow steps (rules R155, R156). -/
def renormPlan (p : Params) (l h : Nat) : RenormPlan :=
  let a := shiftPlan p p.W l h
  let b := underflowPlan p (p.W - 1) a.low a.high
  ⟨a.shifts, b.underflows, b.low, b.high⟩

/-- What coding `sym` does to the bounds. -/
def planFor (s : State) (sym : Nat) : RenormPlan :=
  renormPlan s.params (narrowedLow s.eng sym) (narrowedHigh s.eng sym)

/-- The settled bits of a renormalisation with what is owed paid after the first (rule R154). -/
def withOwed (owed : Nat) : List Bool → List Bool
  | [] => []
  | b :: bs => b :: (List.replicate owed (!b) ++ bs)

/-! ### Where a command starts and how it is answered -/

/-- No fault is latched and RST leaves the command alone. -/
abbrev Running (s : State) : Prop := s.eng.FAULT = false ∧ s.env.rstIn = none

/-- The host answers every request (rule R240). -/
abbrev HostAnswers (s : State) : Prop :=
  (∀ a ∈ s.env.sinkAnswers, a ≠ none) ∧ (∀ a ∈ s.env.source, a ≠ none)

/-- The sink answers `OK` to every byte. -/
abbrev SinkAccepts (s : State) : Prop := ∀ a ∈ s.env.sinkAnswers, a = some .ok

/-- `s` with one more response word given and nothing else changed. -/
def State.answered (s : State) (st val : Nat) : State :=
  { s with env.rsps := s.env.rsps ++ [responseWord st val] }

/-- `s` with a fault recorded, answered, and nothing else changed (rule R210). -/
def State.faulted (s : State) (code op sym port : Nat) : State :=
  { s with
    eng.FAULT := true
    eng.CAUSE := BitVec.ofNat 8 code
    eng.FINFO := BitVec.ofNat 25 (op % 2 ^ 8 + sym % 2 ^ 16 * 2 ^ 8 + port * 2 ^ 24)
    env.rsps := s.env.rsps ++ [responseWord code 0] }

/-- Every item of engine state but the RAM has its value of rule R49. -/
abbrev AtReset (p : Params) (e : Engine) : Prop :=
  e.low = 0 ∧ e.high = 2 ^ p.W - 1 ∧ e.code = 0 ∧ e.pend = 0 ∧ e.obuf = 0 ∧ e.onb = 0 ∧
  e.ibuf = 0 ∧ e.inb = 0 ∧ e.eof = false ∧ e.padcnt = 0 ∧ e.NSYM = 0 ∧ e.TOTAL = 0 ∧ e.CV = false ∧
  e.MODE = .idle ∧ e.FAULT = false ∧ e.CAUSE = 0 ∧ e.FINFO = 0

/-- The commands that run whatever `FAULT` says (rule R78). -/
abbrev RunsFaulted (i : Instr) : Prop := i = .reset ∨ ∃ r, i = .rdreg r

end Sys2Proof.Machine
end

