-- ==== Sys2Proof/Certificates/Slice0/Obligations.lean ====
section
/-! DEFINITION. The statements for the provers, from the spec's numbered rules. Each docstring names the rules.
No statement rests on the free content of the RAM (assumption log 3) or on what a host that has used up its
listed answers says (log 4), but for those that say so, and these say it beside what an explicit `EOF` does. -/

open Sys2Proof Sys2Proof.Machine

/-! ### The command word -/

/-- Rule R80's example words, and R73's for the commands without operands, decode to the commands they stand
for. -/
def Obligations.ExampleWordsDecodeAsTheSpecAssemblesThem : Prop :=
  decode 0x1000000000000005 = .instr (.tinit 5) ∧
  decode 0x1100000100001999 = .instr (.tset 1 6553) ∧
  decode 0x2100000400000000 = .instr (.ewrite 4) ∧
  decode 0x0200000500000000 = .instr (.rdreg 5) ∧
  decode 0x3100000000000000 = .instr .dread ∧
  decode 0x1200000100000000 = .instr (.tinc 1) ∧
  decode 0x1600000000000000 = .instr .ttot ∧
  decode 0x2200000000000000 = .instr .efinish

/-- Every command whose operands fit their fields is read back from its own word (rules R71, R73, R74, R83). -/
def Obligations.EveryWellFormedCommandIsReadBackFromItsWord : Prop :=
  ∀ i : Instr, i.wf = true → decode (encode i) = .instr i

/-- A word that decodes is the word of the command it decodes to, so no two words stand for one command and no
bit of a word is ignored (rules R74, R75). -/
def Obligations.OnlyTheWordOfACommandDecodesToIt : Prop :=
  ∀ (w : Word) (i : Instr), decode w = .instr i → i.wf = true ∧ encode i = w

/-- Rule R75: which words are well formed, and that any other raises `IllegalCommand` (code 6) when no fault is
latched, changing nothing else. -/
def Obligations.WordNotWellFormedRaisesIllegalCommand : Prop :=
  (∀ w : Word, (∃ i, decode w = .instr i) ↔
    (opField w ∈ [0x01, 0x02, 0x10, 0x11, 0x12, 0x13, 0x14, 0x15, 0x16, 0x20, 0x21, 0x22, 0x30, 0x31] ∧
     rsvField w = 0 ∧
     (opField w ∈ [0x01, 0x10, 0x16, 0x20, 0x22, 0x30, 0x31] → symField w = 0) ∧
     (opField w ∉ [0x10, 0x11] → dataField w = 0))) ∧
  (∀ (s : State) (w : Word) (rest : List Event), s.env.inbox = .cmd w :: rest → s.eng.FAULT = false →
    (¬ ∃ i, decode w = .instr i) →
    step s = .next ({ s with env.inbox := rest, env.rstIn := none }.faulted 6 (opField w) (symField w) 0))

/-- The response word's fields (rule R72): `st` in bits 63:56, zeros in 55:48, `val` in 47:0. -/
def Obligations.ResponseWordCarriesStatusAndValue : Prop :=
  ∀ st val : Nat, st < 2 ^ 8 → val < 2 ^ 48 →
    slice (responseWord st val).toNat 63 56 = st ∧ slice (responseWord st val).toNat 55 48 = 0 ∧
    slice (responseWord st val).toNat 47 0 = val

/-! ### The step -/

/-- A step takes the host's next event (rules R52, R59, R78): a well-formed word is run by `exec` on the state with
the event taken; RST alone resets (rule R230). Two clauses rest on the model's own deductions: that a word to be cut
short by RST runs with `rstIn` noted (DEDUCED, assumption log 5), and that a step with nothing presented keeps the
state (DEDUCED, log 10). -/
def Obligations.StepServesTheNextEvent : Prop :=
  (∀ (s : State) (w : Word) (rest : List Event) (i : Instr),
    s.env.inbox = .cmd w :: rest → decode w = .instr i →
    step s = exec i { s with env.inbox := rest, env.rstIn := none }) ∧
  (∀ (s : State) (w : Word) (k : Nat) (rest : List Event) (i : Instr),
    s.env.inbox = .cmdCutByRst w k :: rest → decode w = .instr i →
    step s = exec i { s with env.inbox := rest, env.rstIn := some k }) ∧
  (∀ (s : State) (rest : List Event), s.env.inbox = .rst :: rest →
    ∃ t, step s = .next t ∧ AtReset s.params t.eng ∧ t.params = s.params ∧
      t.env = { s.env with inbox := rest, rstIn := none }) ∧
  (∀ s : State, s.env.inbox = [] → step s = .next s)

/-- The word placed by `withFetchWord` is the next one run (the model's interface, log 6). -/
def Obligations.PresentedWordIsTheNextOneRun : Prop :=
  ∀ (i : Instr) (s : State), i.wf = true →
    step (s.withFetchWord 64 (encode i).toNat) = exec i { s with env.rstIn := none }

/-! ### Reset -/

/-- Rules R49 and R231, for both kinds of reset and for power-on: what every item of state but the RAM becomes,
and that the parameters and the ports are not touched. The command also answers 0 (rule R90). -/
def Obligations.EitherResetLeavesTheResetState : Prop :=
  (∀ s : State, s.env.rstIn = none →
    ∃ t, exec .reset s = .next t ∧ AtReset s.params t.eng ∧ t.params = s.params ∧
      t.env = { s.env with rsps := s.env.rsps ++ [responseWord 0 0] }) ∧
  (∀ (s : State) (rest : List Event), s.env.inbox = .rst :: rest →
    ∃ t, step s = .next t ∧ AtReset s.params t.eng ∧ t.params = s.params ∧
      t.env = { s.env with inbox := rest, rstIn := none }) ∧
  (∀ p : Params, AtReset p (State.resetOf p).eng)

/-- RST in the middle of any command (rule R230 (a)): the command is abandoned and gives no response, the engine
is in the reset state, and of the command's port transactions no more than the `k` made before RST remain. The same
of the event, whose word need not be well formed: then there is no port transaction at all. That RST's moment is
counted in transactions is DEDUCED, assumption log 5. -/
def Obligations.RstAbandonsTheCommandItInterrupts : Prop :=
  (∀ (i : Instr) (s : State) (k : Nat), s.env.rstIn = some k →
    ∃ t, exec i s = .next t ∧ AtReset s.params t.eng ∧ t.params = s.params ∧
      t.env.rsps = s.env.rsps ∧ t.env.inbox = s.env.inbox ∧ t.env.rstIn = none ∧
      (∃ bytes, t.env.sink = s.env.sink ++ bytes ∧ bytes.length ≤ k) ∧
      (∃ n, n ≤ k ∧ t.env.sinkAnswers = s.env.sinkAnswers.drop n) ∧
      (∃ n, n ≤ k ∧ t.env.source = s.env.source.drop n)) ∧
  (∀ (s : State) (w : Word) (k : Nat) (rest : List Event), s.env.inbox = .cmdCutByRst w k :: rest →
    ∃ t, step s = .next t ∧ AtReset s.params t.eng ∧ t.params = s.params ∧
      t.env.rsps = s.env.rsps ∧ t.env.inbox = rest ∧ t.env.rstIn = none ∧
      ((¬ ∃ i, decode w = .instr i) → t.env = { s.env with inbox := rest, rstIn := none }))

/-! ### Control and table commands -/

/-- `RDREG r` in every mode, faulted or not: the response is `Reg(r)` with `st = 0`, nothing else changes, and
`Reg` is the register map of rules R36, R37, R47 and R48 (rule R91), `MODE` under its numbers of rule R31. -/
def Obligations.RdregReadsTheRegisterMap : Prop :=
  ∀ (s : State) (r : Nat), s.env.rstIn = none →
    exec (.rdreg r) s = .next (s.answered 0 (regValue s r)) ∧
    (modeNumber .idle = 0 ∧ modeNumber .enc = 1 ∧ modeNumber .encDone = 2 ∧ modeNumber .dec = 3) ∧
    regValue s 0 = modeNumber s.eng.MODE + 8 * s.eng.FAULT.toNat + 16 * s.eng.CV.toNat + 32 * s.eng.eof.toNat ∧
    regValue s 1 = s.eng.CAUSE.toNat ∧ regValue s 2 = s.eng.FINFO.toNat ∧ regValue s 3 = s.eng.NSYM ∧
    regValue s 4 = s.eng.TOTAL ∧ regValue s 5 = s.eng.low ∧ regValue s 6 = s.eng.high ∧
    regValue s 7 = s.eng.code ∧ regValue s 8 = s.eng.pend ∧
    regValue s 9 = s.eng.obuf.toNat + 256 * s.eng.onb.val ∧
    regValue s 10 = s.eng.ibuf.toNat + 256 * s.eng.inb.val ∧ regValue s 11 = s.eng.padcnt ∧
    regValue s 12 = s.params.W + 256 * s.params.PW + 65536 * s.params.NMAX ∧
    regValue s 13 = s.params.PADMAX ∧ (13 < r → regValue s r = 0)

/-- `TINIT n` (rule R124): in `IDLE` with `1 <= n <= NMAX` the first `n` entries become 0 and the others keep
what they held; otherwise `IllegalCommand` and nothing else. -/
def Obligations.TinitStartsAnEmptyTable : Prop :=
  ∀ (s : State) (n : Nat), Running s →
    (s.eng.MODE = .idle → 1 ≤ n → n ≤ s.params.NMAX →
      ∃ f : List Nat, (∀ k, f.getD k 0 = if k < n then 0 else s.eng.F.getD k 0) ∧
        exec (.tinit n) s =
          .next ({ s with eng.NSYM := n, eng.F := f, eng.TOTAL := 0, eng.CV := false }.answered 0 0)) ∧
    (s.eng.MODE ≠ .idle ∨ n = 0 ∨ s.params.NMAX < n → exec (.tinit n) s = .next (s.faulted 6 0x10 0 0))

/-- `TSET s, f` (rule R125). -/
def Obligations.TsetWritesOneFrequency : Prop :=
  ∀ (s : State) (sym f : Nat), Running s → TableExact s →
    (sym < s.eng.NSYM → f ≤ s.params.MAXTOTAL →
      exec (.tset sym f) s = .next ({ s with
        eng.F := s.eng.F.set sym f
        eng.TOTAL := s.eng.TOTAL - freqAt s.eng sym + f
        eng.CV := false }.answered 0 0) ∧
      freqAt s.eng sym ≤ s.eng.TOTAL ∧ (s.eng.F.set sym f).getD sym 0 = f) ∧
    (s.eng.NSYM ≤ sym → exec (.tset sym f) s = .next (s.faulted 6 0x11 sym 0)) ∧
    (sym < s.eng.NSYM → s.params.MAXTOTAL < f → exec (.tset sym f) s = .next (s.faulted 1 0x11 sym 0))

/-- `TINC s` (rule R126). -/
def Obligations.TincAddsOneToAFrequency : Prop :=
  ∀ (s : State) (sym : Nat), Running s → TableExact s →
    (sym < s.eng.NSYM → freqAt s.eng sym + 1 ≤ s.params.MAXTOTAL →
      exec (.tinc sym) s = .next ({ s with
        eng.F := s.eng.F.set sym (freqAt s.eng sym + 1)
        eng.TOTAL := s.eng.TOTAL + 1
        eng.CV := false }.answered 0 0) ∧
      (s.eng.F.set sym (freqAt s.eng sym + 1)).getD sym 0 = s.eng.F.getD sym 0 + 1) ∧
    (s.eng.NSYM ≤ sym → exec (.tinc sym) s = .next (s.faulted 6 0x12 sym 0)) ∧
    (sym < s.eng.NSYM → s.params.MAXTOTAL < freqAt s.eng sym + 1 →
      exec (.tinc sym) s = .next (s.faulted 1 0x12 sym 0))

/-- `TGET`, `TCLO`, `TCHI` and `TTOT` (rules R127 to R130): the answers, the one flag written, and the one
fault. -/
def Obligations.TableQueriesAnswerFromTheTable : Prop :=
  ∀ (s : State) (sym : Nat), Running s →
    (sym < s.eng.NSYM →
      exec (.tget sym) s = .next (s.answered 0 (s.eng.F.getD sym 0)) ∧
      exec (.tclo sym) s = .next ({ s with eng.CV := true }.answered 0 (s.eng.F.take sym).sum) ∧
      exec (.tchi sym) s = .next ({ s with eng.CV := true }.answered 0 (s.eng.F.take (sym + 1)).sum)) ∧
    (s.eng.NSYM ≤ sym →
      exec (.tget sym) s = .next (s.faulted 6 0x13 sym 0) ∧
      exec (.tclo sym) s = .next (s.faulted 6 0x14 sym 0) ∧
      exec (.tchi sym) s = .next (s.faulted 6 0x15 sym 0)) ∧
    exec .ttot s = .next (s.answered 0 s.eng.TOTAL)

/-- Rule R121's consequences: `C(0) = 0`, `C(s+1) - C(s) = F[s]`, `C` is non-decreasing, `C(NSYM) = TOTAL`. -/
def Obligations.CumulativeFrequenciesArePrefixSums : Prop :=
  ∀ s : State, TableExact s →
    cum s.eng 0 = 0 ∧
    (∀ sym, sym < s.eng.NSYM → cum s.eng (sym + 1) = cum s.eng sym + freqAt s.eng sym) ∧
    (∀ a b, a ≤ b → cum s.eng a ≤ cum s.eng b) ∧
    cum s.eng s.eng.NSYM = s.eng.TOTAL

/-! ### Faults and modes -/

/-- Rule R212: while `FAULT = 1` every command but `RESET` and `RDREG`, and every word that is not well formed,
changes nothing and is answered with `CAUSE`. -/
def Obligations.CommandsAreRefusedWhileFaulted : Prop :=
  (∀ (i : Instr) (s : State), s.eng.FAULT = true → s.env.rstIn = none → ¬ RunsFaulted i →
    exec i s = .next (s.answered s.eng.CAUSE.toNat 0)) ∧
  (∀ (s : State) (w : Word) (rest : List Event), s.eng.FAULT = true → s.env.inbox = .cmd w :: rest →
    (¬ ∃ i, decode w = .instr i) →
    step s = .next ({ s with env.inbox := rest, env.rstIn := none }.answered s.eng.CAUSE.toNat 0))

/-- Rules R72, R78, R210: a command that runs gives exactly one response; without a fault its `st` is 0; with
one, `FAULT`, `CAUSE` (one of the codes 1 to 7) and `FINFO` (the command's `op` and `sym`, and the port, which
is 1 only for code 5) are recorded and `st` is the code. -/
def Obligations.EveryCommandIsAnsweredOnceAndAFaultIsRecorded : Prop :=
  ∀ (i : Instr) (s t : State), i.wf = true → Running s → exec i s = .next t →
    (t.eng.FAULT = false ∧ ∃ v, t.env.rsps = s.env.rsps ++ [responseWord 0 v]) ∨
    (t.eng.FAULT = true ∧ ∃ c port, 1 ≤ c ∧ c ≤ 7 ∧ (port = 0 ∨ port = 1 ∧ c = 5) ∧
      t.eng.CAUSE.toNat = c ∧ slice t.eng.FINFO.toNat 7 0 = opcodeOf i ∧
      slice t.eng.FINFO.toNat 23 8 = symOf i ∧ slice t.eng.FINFO.toNat 24 24 = port ∧
      t.env.rsps = s.env.rsps ++ [responseWord c 0])

/-- Rule R211: `IllegalCommand` (6) and `InvalidFrequencyTable` (1) are clean: besides the fault registers and
the response nothing changes at all. -/
def Obligations.IllegalCommandAndTableFaultsAreClean : Prop :=
  ∀ (i : Instr) (s t : State), Running s → exec i s = .next t → t.eng.FAULT = true →
    t.eng.CAUSE = 6 ∨ t.eng.CAUSE = 1 →
    t = s.faulted t.eng.CAUSE.toNat (opcodeOf i) (symOf i) 0

/-- Rule R77: the commands that need a mode raise `IllegalCommand` in any other, and nothing else changes. -/
def Obligations.CommandInTheWrongModeIsIllegal : Prop :=
  ∀ (s : State) (n sym : Nat), Running s →
    (s.eng.MODE ≠ .idle →
      exec (.tinit n) s = .next (s.faulted 6 0x10 0 0) ∧
      exec .einit s = .next (s.faulted 6 0x20 0 0) ∧
      exec .dinit s = .next (s.faulted 6 0x30 0 0)) ∧
    (s.eng.MODE ≠ .enc →
      exec (.ewrite sym) s = .next (s.faulted 6 0x21 sym 0) ∧
      exec .efinish s = .next (s.faulted 6 0x22 0 0)) ∧
    (s.eng.MODE ≠ .dec → exec .dread s = .next (s.faulted 6 0x31 0 0))

/-- Rules R123 and R202: the coder's own checks, in their order: the symbol's range, then the table's total,
then the symbol's frequency. -/
def Obligations.CoderRefusesAnUnusableTable : Prop :=
  ∀ (s : State) (sym : Nat), Running s →
    (s.eng.MODE = .enc → s.eng.NSYM ≤ sym → exec (.ewrite sym) s = .next (s.faulted 6 0x21 sym 0)) ∧
    (s.eng.MODE = .enc → sym < s.eng.NSYM →
      s.eng.TOTAL = 0 ∨ s.params.MAXTOTAL < s.eng.TOTAL ∨ freqAt s.eng sym = 0 →
      exec (.ewrite sym) s = .next (s.faulted 1 0x21 sym 0)) ∧
    (s.eng.MODE = .dec → s.eng.TOTAL = 0 ∨ s.params.MAXTOTAL < s.eng.TOTAL →
      exec .dread s = .next (s.faulted 1 0x31 0 0))

/-- Rule R31: the only transitions of `MODE`. -/
def Obligations.ModeChangesOnlyAsTheSpecLists : Prop :=
  ∀ (i : Instr) (s t : State), s.env.rstIn = none → exec i s = .next t → t.eng.MODE ≠ s.eng.MODE →
    (i = .reset ∧ t.eng.MODE = .idle) ∨
    (i = .einit ∧ s.eng.MODE = .idle ∧ t.eng.MODE = .enc) ∨
    (i = .efinish ∧ s.eng.MODE = .enc ∧ t.eng.MODE = .encDone) ∨
    (i = .dinit ∧ s.eng.MODE = .idle ∧ t.eng.MODE = .dec)

/-- Rules R32, R213: once latched, the first fault stays on record through every step that is not a reset, and
the whole engine is frozen. -/
def Obligations.LatchedFaultStaysUntilReset : Prop :=
  ∀ s t : State, s.eng.FAULT = true → step s = .next t →
    t.eng = s.eng ∨
    (AtReset s.params t.eng ∧
      ((∃ rest, s.env.inbox = .rst :: rest) ∨
       (∃ w k rest, s.env.inbox = .cmdCutByRst w k :: rest) ∨
       (∃ w rest, s.env.inbox = .cmd w :: rest ∧ decode w = .instr .reset)))

/-- Rules R28, R238: the alphabet size changes only by a `TINIT` in `IDLE` or by `RESET`. -/
def Obligations.AlphabetSizeIsFixedInASession : Prop :=
  ∀ (i : Instr) (s t : State), s.env.rstIn = none → exec i s = .next t → t.eng.NSYM ≠ s.eng.NSYM →
    i = .reset ∨ ∃ n, i = .tinit n ∧ s.eng.MODE = .idle ∧ t.eng.NSYM = n

/-- Rule R122 (a) to (c), for every end a command can have: a table write that takes effect clears `CV` and one that
faults leaves it alone; `TCLO`, `TCHI`, and an `EWRITE` or `DREAD` that passes its checks, set it, even where the
`EWRITE` or `DREAD` ends in a fault later; one that fails its checks, and every other command, leave it alone. -/
def Obligations.CacheFlagFollowsTableWritesAndQueries : Prop :=
  ∀ (i : Instr) (s t : State), Running s → exec i s = .next t →
    (i = .reset → t.eng.CV = false) ∧
    ((∃ n, i = .tinit n) ∨ (∃ sym f, i = .tset sym f) ∨ (∃ sym, i = .tinc sym) →
      t.eng.CV = (t.eng.FAULT && s.eng.CV)) ∧
    ((∃ sym, i = .tclo sym) ∨ (∃ sym, i = .tchi sym) → t.eng.CV = (!t.eng.FAULT || s.eng.CV)) ∧
    (∀ sym, i = .ewrite sym →
      t.eng.CV = (s.eng.CV || decide (s.eng.MODE = .enc ∧ sym < s.eng.NSYM ∧
        1 ≤ s.eng.TOTAL ∧ s.eng.TOTAL ≤ s.params.MAXTOTAL ∧ 1 ≤ freqAt s.eng sym))) ∧
    (i = .dread →
      t.eng.CV = (s.eng.CV || decide (s.eng.MODE = .dec ∧
        1 ≤ s.eng.TOTAL ∧ s.eng.TOTAL ≤ s.params.MAXTOTAL))) ∧
    ((∃ r, i = .rdreg r) ∨ (∃ sym, i = .tget sym) ∨ i = .ttot ∨ i = .einit ∨ i = .efinish ∨ i = .dinit →
      t.eng.CV = s.eng.CV)

/-- Rules R65, R122 (d): no result of any command but a read of `STATUS` depends on `CV`. -/
def Obligations.NoResultDependsOnTheCacheFlag : Prop :=
  ∀ (i : Instr) (s : State) (b : Bool), i ≠ .rdreg 0 →
    (∃ t t', exec i s = .next t ∧ exec i { s with eng.CV := b } = .next t' ∧
      t = { t' with eng.CV := t.eng.CV }) ∨
    (∃ p, exec i s = .fault (.portUnanswered p) ∧ exec i { s with eng.CV := b } = .fault (.portUnanswered p))

/-- The frame of each unit, whatever the command's end (rules R20 to R30, R50, R180): a table command leaves the
coder, both halves of the bit stream unit and the ports alone; an encoder command leaves the table, `code`, the
unpacker and the source alone; a decoder command leaves the table, the packer and the sink alone. -/
def Obligations.EachUnitTouchesOnlyItsOwnState : Prop :=
  ∀ (i : Instr) (s t : State), s.env.rstIn = none → exec i s = .next t → i ≠ .reset →
    t.params = s.params ∧ t.env.inbox = s.env.inbox ∧ t.env.rstIn = none ∧
    ((∃ r, i = .rdreg r) → t.eng = s.eng) ∧
    ((∀ sym, i ≠ .ewrite sym) → i ≠ .efinish →
      t.env.sink = s.env.sink ∧ t.env.sinkAnswers = s.env.sinkAnswers) ∧
    (i ≠ .dinit → i ≠ .dread → t.env.source = s.env.source ∧ t.eng.ibuf = s.eng.ibuf ∧
      t.eng.inb = s.eng.inb ∧ t.eng.eof = s.eng.eof ∧ t.eng.padcnt = s.eng.padcnt) ∧
    (i ≠ .einit → i ≠ .dinit → i ≠ .dread → t.eng.code = s.eng.code) ∧
    (i ≠ .einit → (∀ sym, i ≠ .ewrite sym) → i ≠ .efinish →
      t.eng.obuf = s.eng.obuf ∧ t.eng.onb = s.eng.onb) ∧
    (i ≠ .einit → (∀ sym, i ≠ .ewrite sym) → i ≠ .efinish → i ≠ .dinit → t.eng.pend = s.eng.pend) ∧
    (i ≠ .einit → (∀ sym, i ≠ .ewrite sym) → i ≠ .dinit → i ≠ .dread →
      t.eng.low = s.eng.low ∧ t.eng.high = s.eng.high) ∧
    ((∀ n, i ≠ .tinit n) → (∀ sym f, i ≠ .tset sym f) → (∀ sym, i ≠ .tinc sym) →
      t.eng.F = s.eng.F ∧ t.eng.TOTAL = s.eng.TOTAL ∧ t.eng.NSYM = s.eng.NSYM)

/-- Rule R240: when the host answers every request, every command ends. -/
def Obligations.EveryCommandEndsWhenTheHostAnswers : Prop :=
  ∀ (i : Instr) (s : State), HostAnswers s → ∃ t, exec i s = .next t ∧ HostAnswers t

/-! ### The invariant -/

/-- Rule R33 holds right after reset, for every legal choice of the parameters; the RAM content shown at
power-on is the model's choice (log 3), and any content of the RAM's form meets the invariant. -/
def Obligations.InvariantHoldsAtReset : Prop :=
  Inv State.reset ∧
  ∀ (p : Params) (ram : List Nat), p.Legal → Memory.wf p ram = true →
    Inv { State.resetOf p with eng := Engine.afterReset p ram }

/-- Rule R33, with the widths of rule R20: every step from every state that meets the invariant, whatever the
host presents and answers, leads to one that meets it. -/
def Obligations.EveryStepKeepsTheInvariant : Prop :=
  ∀ s t : State, Inv s → step s = .next t → Inv t

/-- Rules R186, R203, R204: from a state that meets the invariant no command raises `CodingRangeError` (2) or
`DecodingRangeError` (3), whatever the stream. -/
def Obligations.RangeErrorsAreNeverRaised : Prop :=
  ∀ (i : Instr) (s t : State), Inv s → Running s → exec i s = .next t →
    t.eng.CAUSE ≠ 2 ∧ t.eng.CAUSE ≠ 3

/-- Rule R29: `TOTAL` fits its `CW` bits, `CW = (W - 2) + ceil(log2(NMAX + 1))`, and so the 48 bits of a response
(rule R72). -/
def Obligations.TotalAlwaysFitsItsRegister : Prop :=
  ∀ s : State, Inv s →
    s.eng.TOTAL ≤ s.params.NMAX * s.params.MAXTOTAL ∧
    s.eng.TOTAL < 2 ^ (s.params.W - 2 + Nat.clog 2 (s.params.NMAX + 1)) ∧
    s.params.W - 2 + Nat.clog 2 (s.params.NMAX + 1) ≤ 46

/-! ### The bit stream unit -/

/-- `WriteBit` (rules R101, R103): one bit is appended to all bits written; the eighth sends its byte at once,
most significant bit first; when the sink answers `ERR` the byte is lost and `IoError` on the sink is raised. -/
def Obligations.WriteBitAppendsOneBit : Prop :=
  ∀ (s : State) (b : Bool), s.env.rstIn = none → s.eng.obuf.toNat < 2 ^ s.eng.onb.val →
    (SinkAccepts s → ∃ t, writeBit b s = .done () t ∧ outBits t = outBits s ++ [b] ∧
      t.eng.onb.val = (s.eng.onb.val + 1) % 8 ∧ t.eng.obuf.toNat < 2 ^ t.eng.onb.val ∧
      t.env.sink.length = s.env.sink.length + (s.eng.onb.val + 1) / 8) ∧
    (∀ r, s.env.sinkAnswers = some .err :: r → s.eng.onb.val = 7 →
      writeBit b s = .stop (.raised (.ioError .sink))
        { s with eng.obuf := 0, eng.onb := 0, env.sinkAnswers := r })

/-- `EmitBit(b)` (rule R154): `b`, then as many opposite bits as were owed; nothing is owed afterwards. -/
def Obligations.EmitBitPaysWhatIsOwed : Prop :=
  ∀ (s : State) (b : Bool), s.env.rstIn = none → s.eng.obuf.toNat < 2 ^ s.eng.onb.val → SinkAccepts s →
    ∃ t, emitBit b s = .done () t ∧ t.eng.pend = 0 ∧
      outBits t = outBits s ++ b :: List.replicate s.eng.pend (!b)

/-- `CloseBits()` (rule R102): zeros up to the byte boundary, and nothing on it. -/
def Obligations.CloseBitsPadsToAByte : Prop :=
  ∀ s : State, s.env.rstIn = none → s.eng.obuf.toNat < 2 ^ s.eng.onb.val → SinkAccepts s →
    ∃ t, closeBits s = .done () t ∧ t.eng.onb = 0 ∧ t.eng.obuf = 0 ∧
      outBits t = outBits s ++ List.replicate ((8 - s.eng.onb.val) % 8) false ∧
      (s.eng.onb = 0 → t = s)

/-- `ReadBit()` (rule R104): the bits come in stream order, and a byte is fetched only when a bit of it is needed;
at the end `EOF` is latched, and once it is the source is not asked again; `ERR` raises `IoError` on the source.
`more` is what the host's list holds after an `EOF` it gives, or `none` where the list is used up and the host then
says `EOF`, which is assumption log 4. -/
def Obligations.ReadBitDeliversTheStreamInOrder : Prop :=
  ∀ (s : State) (bytes : List Byte) (more : Option (List (Option SourceReply))), s.env.rstIn = none →
    SourceHolds s bytes more →
    (∀ b bs, inBits s.eng bytes = b :: bs →
      ∃ t, readBit s = .done (some b) t ∧
        t = { s with
          eng.ibuf := t.eng.ibuf
          eng.inb := t.eng.inb
          env.source := streamOf (bytes.drop (if s.eng.inb = 0 then 1 else 0)) more } ∧
        inBits t.eng (bytes.drop (if s.eng.inb = 0 then 1 else 0)) = bs) ∧
    (inBits s.eng bytes = [] →
      readBit s = .done none
        { s with eng.eof := true, env.source := if s.eng.eof then s.env.source else more.getD [] }) ∧
    (∀ r, s.eng.eof = false → s.eng.inb = 0 →
      readBit { s with env.source := some .err :: r } =
        .stop (.raised (.ioError .source)) { s with env.source := r })

/-- `ReadBitPad()` (rule R105): a bit of the stream while there is one, then counted zeros, then
`PrematureEndOfStream` on padded read number `PADMAX + 1`. `more` is as in `ReadBitDeliversTheStreamInOrder`; that a
source used up (`none`) says `EOF` is assumption log 4. -/
def Obligations.PaddedReadsAreCountedAndBounded : Prop :=
  ∀ (s : State) (bytes : List Byte) (more : Option (List (Option SourceReply))), s.env.rstIn = none →
    SourceHolds s bytes more →
    (∀ b bs, inBits s.eng bytes = b :: bs →
      ∃ t, readBitPad s = .done b t ∧
        t = { s with
          eng.ibuf := t.eng.ibuf
          eng.inb := t.eng.inb
          env.source := streamOf (bytes.drop (if s.eng.inb = 0 then 1 else 0)) more }) ∧
    (inBits s.eng bytes = [] → s.eng.padcnt ≠ s.params.PADMAX →
      readBitPad s = .done false
        { s with
          eng.eof := true
          eng.padcnt := s.eng.padcnt + 1
          env.source := if s.eng.eof then s.env.source else more.getD [] }) ∧
    (inBits s.eng bytes = [] → s.eng.padcnt = s.params.PADMAX →
      readBitPad s = .stop (.raised .prematureEndOfStream)
        { s with eng.eof := true, env.source := if s.eng.eof then s.env.source else more.getD [] })

/-- Rule R206 in full, once for each port: a `DINIT` whose first byte the source answers with `ERR`, and an
`EFINISH` whose first bit completes a byte the sink answers with `ERR`, end in `IoError` (5), the port in
`FINFO[24]`, everything written up to then left as it is (rule R211) and nothing asked again. -/
def Obligations.PortErrorsAreRecordedWithTheirPort : Prop :=
  (∀ (s : State) (r : List (Option SourceReply)), s.params.Legal → Running s → s.eng.MODE = .idle →
    s.env.source = some .err :: r →
    exec .dinit s = .next ({ s with
      eng.low := 0
      eng.high := 2 ^ s.params.W - 1
      eng.code := 0
      eng.pend := 0
      eng.ibuf := 0
      eng.inb := 0
      eng.eof := false
      eng.padcnt := 0
      eng.MODE := .dec
      env.source := r }.faulted 5 0x30 0 1)) ∧
  (∀ (s : State) (r : List (Option SinkReply)), Running s → s.eng.MODE = .enc →
    s.eng.pend ≠ s.params.PENDMAX → s.eng.onb.val = 7 → s.env.sinkAnswers = some .err :: r →
    exec .efinish s = .next ({ s with
      eng.pend := s.eng.pend + 1
      eng.obuf := 0
      eng.onb := 0
      env.sinkAnswers := r }.faulted 5 0x22 0 0))

/-- A request the host never answers (the case rule R240 assumes away, 93_implementation_defined.md I9): the
command never ends, which the model says by its one fault (assumption log 7); RST still ends it. -/
def Obligations.UnansweredRequestNeverEndsTheCommand : Prop :=
  ∀ (s : State) (r : List (Option SourceReply)), s.params.Legal → s.eng.FAULT = false → s.eng.MODE = .idle →
    s.env.source = none :: r →
    (s.env.rstIn = none → exec .dinit s = .fault (.portUnanswered .source)) ∧
    (∀ k, s.env.rstIn = some k → ∃ t, exec .dinit s = .next t ∧ AtReset s.params t.eng)

/-! ### The coder -/

/-- `EINIT` (rule R151): in `IDLE` a fresh encode session, every other item untouched. -/
def Obligations.EinitOpensAnEncodeSession : Prop :=
  ∀ s : State, Running s → s.eng.MODE = .idle →
    exec .einit s = .next ({ s with
      eng.low := 0
      eng.high := 2 ^ s.params.W - 1
      eng.code := 0
      eng.pend := 0
      eng.obuf := 0
      eng.onb := 0
      eng.MODE := .enc }.answered 0 0)

/-- Facts (a) to (f) of rule R152: the sub-intervals lie in `[low, high]`, their sizes are within one of the
exact share, a symbol of non-zero frequency gets a non-empty one, a symbol of frequency 0 an empty one, and
they tile `[low, high]`; and one of a single value is possible, in an open session with a valid table (fact (d)). -/
def Obligations.NarrowedIntervalsTileTheInterval : Prop :=
  (∀ s : State, s.eng.low ≤ s.eng.high → TableExact s → 1 ≤ s.eng.TOTAL →
    (∀ sym, sym < s.eng.NSYM →
      (s.eng.low : Int) ≤ (narrow s.eng sym).1 ∧ (narrow s.eng sym).2 ≤ s.eng.high ∧
      rangeOf s.eng * freqAt s.eng sym / s.eng.TOTAL ≤ (narrow s.eng sym).2 - (narrow s.eng sym).1 + 1 ∧
      (narrow s.eng sym).2 - (narrow s.eng sym).1 + 1 ≤ rangeOf s.eng * freqAt s.eng sym / s.eng.TOTAL + 1 ∧
      (1 ≤ freqAt s.eng sym → (s.eng.TOTAL : Int) < rangeOf s.eng →
        (narrow s.eng sym).1 ≤ (narrow s.eng sym).2) ∧
      (freqAt s.eng sym = 0 → (narrow s.eng sym).2 = (narrow s.eng sym).1 - 1) ∧
      (narrow s.eng (sym + 1)).1 = (narrow s.eng sym).2 + 1) ∧
    (narrow s.eng 0).1 = s.eng.low ∧ (narrow s.eng s.eng.NSYM).1 = (s.eng.high : Int) + 1) ∧
  (∃ (s : State) (sym : Nat), Inv s ∧ Running s ∧ s.eng.MODE = .enc ∧ sym < s.eng.NSYM ∧ 1 ≤ s.eng.TOTAL ∧
    s.eng.TOTAL ≤ s.params.MAXTOTAL ∧ 1 ≤ freqAt s.eng sym ∧ (narrow s.eng sym).1 = (narrow s.eng sym).2)

/-- `EWRITE s` when its checks pass, the pending counter has room, and the sink accepts (rules R153 to R156): it
completes; the bounds are the narrowed ones renormalised; the settled bits are the top bits of `low'` with what
was owed paid after the first; the frame is everything else. -/
def Obligations.EwriteCodesOneSymbol : Prop :=
  ∀ (s : State) (sym : Nat), Inv s → Running s → s.eng.MODE = .enc → sym < s.eng.NSYM →
    1 ≤ s.eng.TOTAL → s.eng.TOTAL ≤ s.params.MAXTOTAL → 1 ≤ freqAt s.eng sym → SinkAccepts s →
    (if (planFor s sym).shifts = 0 then s.eng.pend else 0) + (planFor s sym).underflows ≤ s.params.PENDMAX →
    ∃ t, exec (.ewrite sym) s = .next t ∧
      t.eng = { s.eng with
        CV := true
        low := (planFor s sym).low
        high := (planFor s sym).high
        pend := (if (planFor s sym).shifts = 0 then s.eng.pend else 0) + (planFor s sym).underflows
        obuf := t.eng.obuf
        onb := t.eng.onb } ∧
      outBits t = outBits s ++
        withOwed s.eng.pend ((bitsOf s.params.W (narrowedLow s.eng sym)).take (planFor s sym).shifts) ∧
      t.params = s.params ∧
      t.env = { s.env with
        rsps := s.env.rsps ++ [responseWord 0 0]
        sink := t.env.sink
        sinkAnswers := t.env.sinkAnswers }

/-- Rule R208: when the underflow steps an `EWRITE` needs would carry `pend` past `2^PW - 1`, and when an
`EFINISH` finds it there, `PendOverflow` (7) is raised with `pend` at its limit; it never wraps. -/
def Obligations.PendNeverWraps : Prop :=
  (∀ (s : State) (sym : Nat), Inv s → Running s → s.eng.MODE = .enc → sym < s.eng.NSYM →
    1 ≤ s.eng.TOTAL → s.eng.TOTAL ≤ s.params.MAXTOTAL → 1 ≤ freqAt s.eng sym → SinkAccepts s →
    s.params.PENDMAX <
      (if (planFor s sym).shifts = 0 then s.eng.pend else 0) + (planFor s sym).underflows →
    ∃ t, exec (.ewrite sym) s = .next t ∧ t.eng.FAULT = true ∧ t.eng.CAUSE = 7 ∧
      t.eng.pend = s.params.PENDMAX) ∧
  (∀ s : State, Running s → s.eng.MODE = .enc → s.eng.pend = s.params.PENDMAX →
    exec .efinish s = .next (s.faulted 7 0x22 0 0))

/-- Rules R155, R156, R158, R159 and the argument of rule R154: a completed `EWRITE` makes some `n <= 2W - 1`
shifts and underflow steps; each adds one bit to what is written or owed and doubles the range; the bounds end
settled with `range >= QUARTER + 2`; and the exact number the encoder stands for (the bits written, the owed
bits, and `low`) is that of the narrowed interval, scaled by `2^n`. -/
def Obligations.EwriteScalesTheNarrowedInterval : Prop :=
  ∀ (s t : State) (sym : Nat), Inv s → Running s → exec (.ewrite sym) s = .next t → t.eng.FAULT = false →
    ∃ n, n ≤ 2 * s.params.W - 1 ∧
      (outBits t).length + t.eng.pend = (outBits s).length + s.eng.pend + n ∧
      t.eng.high - t.eng.low + 1 = 2 ^ n * (narrowedHigh s.eng sym - narrowedLow s.eng sym + 1) ∧
      t.eng.low < s.params.HALF ∧ s.params.HALF ≤ t.eng.high ∧
      s.params.QUARTER + 2 ≤ t.eng.high - t.eng.low + 1 ∧
      (bitsValue (outBits t) * 2 ^ (t.eng.pend + 1) + 2 ^ t.eng.pend - 1) * s.params.HALF + t.eng.low =
        2 ^ n * ((bitsValue (outBits s) * 2 ^ (s.eng.pend + 1) + 2 ^ s.eng.pend - 1) * s.params.HALF +
          narrowedLow s.eng sym)

/-- `EFINISH` with room in the counter and a sink that accepts (rules R157, R102): one bit, the owed bits and one
more, zeros to a byte boundary; `MODE = ENC_DONE`; nothing owed or waiting; a non-empty stream (rule R67); the
frame is everything else. -/
def Obligations.EfinishClosesTheStream : Prop :=
  ∀ s : State, RegistersFit s → Running s → s.eng.MODE = .enc → s.eng.pend ≠ s.params.PENDMAX → SinkAccepts s →
    ∃ t pad, exec .efinish s = .next t ∧
      t.eng = { s.eng with pend := 0, obuf := 0, onb := 0, MODE := .encDone } ∧
      outBits t = outBits s ++
        (decide (s.params.QUARTER ≤ s.eng.low) ::
          List.replicate (s.eng.pend + 1) (decide (s.eng.low < s.params.QUARTER))) ++
        List.replicate pad false ∧
      pad < 8 ∧ 8 ∣ (outBits t).length ∧ t.env.sink ≠ [] ∧
      t.params = s.params ∧
      t.env = { s.env with
        rsps := s.env.rsps ++ [responseWord 0 0]
        sink := t.env.sink
        sinkAnswers := t.env.sinkAnswers }

/-- Why the finish is "sufficient" (rule R157): whatever bits follow, the number the stream writes stays inside
the final interval. `x` is the number of the bits up to the finish bits, in units of a quarter of the code
space. -/
def Obligations.FinishBitsNameAQuarterInsideTheInterval : Prop :=
  ∀ s t : State, Inv s → Running s → s.eng.MODE = .enc → exec .efinish s = .next t → t.eng.FAULT = false →
    ∃ x, x = bitsValue ((outBits t).take ((outBits s).length + s.eng.pend + 2)) ∧
      (bitsValue (outBits s) * 2 ^ (s.eng.pend + 1) + 2 ^ s.eng.pend - 1) * s.params.HALF + s.eng.low
        ≤ x * s.params.QUARTER ∧
      (x + 1) * s.params.QUARTER ≤
        (bitsValue (outBits s) * 2 ^ (s.eng.pend + 1) + 2 ^ s.eng.pend - 1) * s.params.HALF + s.eng.high + 1

/-- `DINIT` in `IDLE`, the source holding any bytes before its `EOF`, short of padding past `PADMAX` (rule R181):
`code` is the first `W` bits of the stream continued with zeros, the padded reads are counted, `EOF` is latched
exactly when the stream was shorter, just the bytes needed are taken, and the frame is everything else. That a source
used up (`more = none`) says `EOF` is assumption log 4. -/
def Obligations.DinitFillsTheCodeRegister : Prop :=
  ∀ (s : State) (bytes : List Byte) (more : Option (List (Option SourceReply))), s.params.Legal → Running s →
    s.eng.MODE = .idle → s.env.source = streamOf bytes more →
    s.params.W - 8 * bytes.length ≤ s.params.PADMAX →
    ∃ t, exec .dinit s = .next t ∧
      t.eng = { s.eng with
        low := 0
        high := 2 ^ s.params.W - 1
        code := bitsValue (padded s.params.W (bytes.flatMap byteBits))
        pend := 0
        ibuf := (0 :: bytes).getD (min ((s.params.W + 7) / 8) bytes.length) 0
        inb := t.eng.inb
        eof := decide (8 * bytes.length < s.params.W)
        padcnt := s.params.W - 8 * bytes.length
        MODE := .dec } ∧
      t.eng.inb.val = 8 * min ((s.params.W + 7) / 8) bytes.length - s.params.W ∧
      inBits t.eng (bytes.drop ((s.params.W + 7) / 8)) = (bytes.flatMap byteBits).drop s.params.W ∧
      t.params = s.params ∧
      t.env = { s.env with
        rsps := s.env.rsps ++ [responseWord 0 0]
        source :=
          if 8 * bytes.length < s.params.W then more.getD []
          else streamOf (bytes.drop ((s.params.W + 7) / 8)) more }

/-- Rule R183: for `0 <= value < TOTAL` exactly one symbol's interval holds `value`, its frequency is not 0, and
the search finds it; for any other value there is none. -/
def Obligations.SymbolSearchFindsTheOneSymbol : Prop :=
  ∀ (s : State) (value : Int), TableExact s →
    (0 ≤ value → value < s.eng.TOTAL →
      ∃ sym, findSymbol s.eng value = some sym ∧ sym < s.eng.NSYM ∧ 1 ≤ freqAt s.eng sym ∧
        (cum s.eng sym : Int) ≤ value ∧ value < cum s.eng (sym + 1) ∧
        ∀ other, other < s.eng.NSYM → (cum s.eng other : Int) ≤ value → value < cum s.eng (other + 1) →
          other = sym) ∧
    (value < 0 ∨ (s.eng.TOTAL : Int) ≤ value → findSymbol s.eng value = none)

/-- Rule R185's core: of all symbols, the decoder finds exactly the one whose narrowed interval (rule R152), the
encoder's for the same bounds and table, holds `code`. -/
def Obligations.DecoderFindsTheSymbolWhoseIntervalHoldsTheCode : Prop :=
  ∀ (s : State) (sym : Nat), Inv s → Running s → s.eng.MODE = .dec →
    1 ≤ s.eng.TOTAL → s.eng.TOTAL ≤ s.params.MAXTOTAL →
    (findSymbol s.eng (decodeValue s.eng) = some sym ↔
      sym < s.eng.NSYM ∧ (narrow s.eng sym).1 ≤ s.eng.code ∧ (s.eng.code : Int) ≤ (narrow s.eng sym).2)

/-- `DREAD` when its checks pass, the source holding any bytes before its `EOF`, short of padding past `PADMAX`
(rules R182 to R184): it completes and returns the symbol whose interval holds `value`; the bounds are the narrowed
ones renormalised exactly as the encoder's; `code` has moved with them and taken in one bit a step; the unpacker and
the source have moved by just the bytes needed, and not at all once `eof` is latched; the frame is everything else.
That a source used up (`more = none`) says `EOF` is assumption log 4. -/
def Obligations.DreadDecodesOneSymbol : Prop :=
  ∀ (s : State) (bytes : List Byte) (more : Option (List (Option SourceReply))), Inv s → Running s →
    s.eng.MODE = .dec → 1 ≤ s.eng.TOTAL → s.eng.TOTAL ≤ s.params.MAXTOTAL → SourceHolds s bytes more →
    ∃ sym, sym < s.eng.NSYM ∧ 1 ≤ freqAt s.eng sym ∧
      cum s.eng sym ≤ ((s.eng.code - s.eng.low + 1) * s.eng.TOTAL - 1) / (s.eng.high - s.eng.low + 1) ∧
      ((s.eng.code - s.eng.low + 1) * s.eng.TOTAL - 1) / (s.eng.high - s.eng.low + 1) < cum s.eng (sym + 1) ∧
      ∀ n, n = (planFor s sym).shifts + (planFor s sym).underflows →
        s.eng.padcnt + (n - (inBits s.eng bytes).length) ≤ s.params.PADMAX →
        ∃ t, exec .dread s = .next t ∧
          t.eng = { s.eng with
            CV := true
            low := (planFor s sym).low
            high := (planFor s sym).high
            code := (planFor s sym).low + 2 ^ n * (s.eng.code - narrowedLow s.eng sym) +
              bitsValue (padded n (inBits s.eng bytes))
            ibuf := (s.eng.ibuf :: bytes).getD (bytesFetched s.eng bytes n) 0
            inb := t.eng.inb
            eof := s.eng.eof || decide ((inBits s.eng bytes).length < n)
            padcnt := s.eng.padcnt + (n - (inBits s.eng bytes).length) } ∧
          t.eng.inb.val = unreadAfter s.eng bytes n ∧
          inBits t.eng (bytes.drop (bytesFetched s.eng bytes n)) = (inBits s.eng bytes).drop n ∧
          t.params = s.params ∧
          t.env = { s.env with
            rsps := s.env.rsps ++ [responseWord 0 sym]
            source := sourceAfter s bytes more n }

/-- Rule R205: a session that needs more than `PADMAX` padded reads ends in `PrematureEndOfStream` (4), with `eof`
latched and `padcnt` at the bound, the source having said `EOF` after any bytes. That a source used up
(`more = none`) says `EOF` is assumption log 4. -/
def Obligations.ReadingFarPastTheEndIsPremature : Prop :=
  (∀ (s : State) (bytes : List Byte) (more : Option (List (Option SourceReply))), s.params.Legal → Running s →
    s.eng.MODE = .idle → s.env.source = streamOf bytes more → s.params.PADMAX < s.params.W - 8 * bytes.length →
    ∃ t, exec .dinit s = .next t ∧ t.eng.FAULT = true ∧ t.eng.CAUSE = 4 ∧ t.eng.eof = true ∧
      t.eng.padcnt = s.params.PADMAX ∧ t.eng.MODE = .dec) ∧
  (∀ (s : State) (bytes : List Byte) (more : Option (List (Option SourceReply))) (sym : Nat), Inv s → Running s →
    s.eng.MODE = .dec → 1 ≤ s.eng.TOTAL → s.eng.TOTAL ≤ s.params.MAXTOTAL → SourceHolds s bytes more →
    findSymbol s.eng (decodeValue s.eng) = some sym →
    s.params.PADMAX < s.eng.padcnt +
      ((planFor s sym).shifts + (planFor s sym).underflows - (inBits s.eng bytes).length) →
    ∃ t, exec .dread s = .next t ∧ t.eng.FAULT = true ∧ t.eng.CAUSE = 4 ∧ t.eng.eof = true ∧
      t.eng.padcnt = s.params.PADMAX)

/-- Rule R180: a decoder that returns the symbol an encoder codes, with the same width, bounds and table, ends with
the encoder's bounds. The table is `NSYM` and the entries below it (rule R120); `NMAX`, `PW`, `PADMAX` and the entries
above may differ (rule R237). -/
def Obligations.DecoderBoundsFollowTheEncoders : Prop :=
  ∀ (e d e' d' : State) (sym : Nat), Inv e → Inv d → Running e → Running d →
    e.params.W = d.params.W → e.eng.NSYM = d.eng.NSYM →
    e.eng.F.take e.eng.NSYM = d.eng.F.take d.eng.NSYM →
    e.eng.low = d.eng.low → e.eng.high = d.eng.high →
    exec (.ewrite sym) e = .next e' → e'.eng.FAULT = false →
    exec .dread d = .next d' → d'.eng.FAULT = false →
    d'.env.rsps = d.env.rsps ++ [responseWord 0 sym] →
    d'.eng.low = e'.eng.low ∧ d'.eng.high = e'.eng.high
end

