-- ==== Sys2Proof/Laws/Arithmetic.lean ====
section
/-! SUPPORT. The masks, shifts and bit tests of rules R7, R10, R155 and R156 as plain arithmetic. -/

namespace Sys2Proof.Machine

/-- The constants of rule R7, related linearly. -/
theorem sizes_of_legal {p : Params} (h : p.Legal) :
    p.FULL = 4 * p.QUARTER ∧ p.HALF = 2 * p.QUARTER ∧ p.MASK + 1 = 4 * p.QUARTER ∧
    p.MAXTOTAL + 1 = p.QUARTER ∧ 2 ≤ p.QUARTER := by
  obtain ⟨k, hk⟩ : ∃ k, p.W = k + 3 := ⟨p.W - 3, by have := h.1; omega⟩
  have := Nat.one_le_two_pow (n := k)
  simp [Params.FULL, Params.HALF, Params.QUARTER, Params.MASK, Params.MAXTOTAL, hk, pow_succ]
  omega

/-- The top bit of a number of `k + 1` bits. -/
theorem testBit_top {k v : Nat} (h : v < 2 ^ (k + 1)) : v.testBit k = decide (2 ^ k ≤ v) := by
  rw [Nat.testBit_eq_decide_div_mod_eq]
  congr 1
  rw [pow_succ] at h
  have : v / 2 ^ k < 2 := by rw [Nat.div_lt_iff_lt_mul (by positivity)]; omega
  by_cases hv : 2 ^ k ≤ v
  · have : 1 ≤ v / 2 ^ k := by rw [Nat.le_div_iff_mul_le (by positivity)]; omega
    simp [hv]; omega
  · simp [hv, Nat.div_eq_of_lt (not_le.1 hv)]

theorem topBit_eq {p : Params} (hp : p.Legal) {v : Nat} (h : v < p.FULL) : topBit p v = decide (p.HALF ≤ v) := by
  obtain ⟨k, hk⟩ : ∃ k, p.W = k + 1 := ⟨p.W - 1, by have := hp.1; omega⟩
  simp only [Params.FULL, Params.HALF, hk, topBit] at *
  exact testBit_top h

/-- The shift condition (rule R155): both bounds lie in the same half. -/
theorem topsAgree_iff {p : Params} (hp : p.Legal) {l h : Nat} (hl : l < p.FULL) (hh : h < p.FULL) :
    topsAgree p l h = true ↔ (p.HALF ≤ l ↔ p.HALF ≤ h) := by
  obtain ⟨k, hk⟩ : ∃ k, p.W = k + 1 := ⟨p.W - 1, by have := hp.1; omega⟩
  simp only [Params.FULL, Params.HALF, hk, topsAgree, decide_eq_true_eq, Nat.add_sub_cancel] at *
  rw [Nat.and_two_pow]
  simp [Nat.testBit_xor, testBit_top hl, testBit_top hh]

theorem shiftIn_eq (p : Params) (v : Nat) : shiftIn p v = 2 * v % p.FULL := by
  simp [shiftIn, Params.MASK, Params.FULL, Nat.and_two_pow_sub_one_eq_mod, Nat.shiftLeft_eq, mul_comm]

theorem shiftIn_or {p : Params} (hp : p.Legal) (v : Nat) {b : Nat} (hb : b ≤ 1) :
    shiftIn p v ||| b = 2 * v % p.FULL + b := by
  have : 2 * v % p.FULL = 2 * (v % (2 * p.QUARTER)) := by
    rw [(sizes_of_legal hp).1, show 4 * p.QUARTER = 2 * (2 * p.QUARTER) by ring, Nat.mul_mod_mul_left]
  rw [shiftIn_eq, this]
  have := Nat.two_pow_add_eq_or_of_lt (i := 1) (b := b) (by omega) (v % (2 * p.QUARTER))
  simpa using this.symm

/-- "A shift maps `v` to `2 * v - b * FULL`" (rule R155). -/
theorem double_mod_full {p : Params} (hp : p.Legal) {v : Nat} (hv : v < p.FULL) :
    2 * v % p.FULL = if p.HALF ≤ v then 2 * v - p.FULL else 2 * v := by
  have hq := sizes_of_legal hp
  split
  · rw [Nat.mod_eq_sub_mod (by omega), Nat.mod_eq_of_lt (by omega)]
  · rw [Nat.mod_eq_of_lt (by omega)]

theorem div_eq_of_between {q v k : Nat} (h1 : k * q ≤ v) (h2 : v < (k + 1) * q) : v / q = k := by
  apply Nat.div_eq_of_lt_le <;> simpa using by assumption

/-- The underflow condition (rule R156): `low` in the second quarter, `high` in the third. -/
theorem underflowing_iff {p : Params} (hp : p.Legal) {l h : Nat} (hl : l < p.HALF) (hh : h < p.FULL)
    (hh2 : p.HALF ≤ h) : underflowing p l h = true ↔ (p.QUARTER ≤ l ∧ h < p.HALF + p.QUARTER) := by
  have hq := sizes_of_legal hp
  have hbit : ∀ v : Nat, v.testBit (p.W - 2) = decide (v / p.QUARTER % 2 = 1) := fun v => by
    rw [Nat.testBit_eq_decide_div_mod_eq]; rfl
  have e1 : l.testBit (p.W - 2) = decide (p.QUARTER ≤ l) := by
    rw [hbit]
    by_cases a : p.QUARTER ≤ l
    · simp [div_eq_of_between (q := p.QUARTER) (v := l) (k := 1) (by omega) (by omega), a]
    · simp [Nat.div_eq_of_lt (not_le.1 a), a]
  have e2 : (notW p h).testBit (p.W - 2) = decide (h < p.HALF + p.QUARTER) := by
    rw [hbit, notW]
    by_cases a : h < p.HALF + p.QUARTER
    · simp [div_eq_of_between (q := p.QUARTER) (v := p.MASK - h) (k := 1) (by omega) (by omega), a]
    · simp [div_eq_of_between (q := p.QUARTER) (v := p.MASK - h) (k := 0) (by omega) (by omega), a]
  unfold underflowing
  rw [decide_eq_true_eq, show p.QUARTER = 2 ^ (p.W - 2) from rfl, Nat.and_two_pow, Nat.testBit_and, e1, e2]
  have : 0 < 2 ^ (p.W - 2) := by positivity
  rw [Ne, Nat.mul_eq_zero, not_or, Bool.toNat_eq_zero]
  simp [Params.QUARTER]
  exact and_congr decide_eq_true_iff decide_eq_true_iff

theorem xor_two_pow (m v : Nat) : v ^^^ 2 ^ m = 2 ^ m * (v / 2 ^ m ^^^ 1) + v % 2 ^ m := by
  have h1 := Nat.xor_div_two_pow (a := v) (b := 2 ^ m) (n := m)
  have h2 := Nat.xor_mod_two_pow (a := v) (b := 2 ^ m) (n := m)
  rw [Nat.div_self (by positivity)] at h1
  simp at h2
  rw [← h1, ← h2, Nat.div_add_mod]

/-- Complementing the second-highest bit in the second quarter (rule R156). -/
theorem xor_quarter_low {p : Params} (hp : p.Legal) {v : Nat} (h1 : p.QUARTER ≤ v) (h2 : v < p.HALF) :
    v ^^^ p.QUARTER = v - p.QUARTER := by
  have hq := sizes_of_legal hp
  have hd : v / p.QUARTER = 1 := div_eq_of_between (by omega) (by omega)
  have h3 : v ^^^ p.QUARTER = p.QUARTER * (v / p.QUARTER ^^^ 1) + v % p.QUARTER := xor_two_pow (p.W - 2) v
  have h4 := Nat.div_add_mod v p.QUARTER
  rw [hd] at h3 h4
  simp at h3; omega

/-- Complementing it in the third quarter (rule R156). -/
theorem xor_quarter_high {p : Params} (hp : p.Legal) {v : Nat} (h1 : p.HALF ≤ v) (h2 : v < p.HALF + p.QUARTER) :
    v ^^^ p.QUARTER = v + p.QUARTER := by
  have hq := sizes_of_legal hp
  have hd : v / p.QUARTER = 2 := div_eq_of_between (by omega) (by omega)
  have h3 : v ^^^ p.QUARTER = p.QUARTER * (v / p.QUARTER ^^^ 1) + v % p.QUARTER := xor_two_pow (p.W - 2) v
  have h4 := Nat.div_add_mod v p.QUARTER
  rw [hd] at h3 h4
  simp at h3; omega

end Sys2Proof.Machine
end

