-- ==== Sys2Proof/Laws/Bits.lean ====
section
/-! SUPPORT. Sequences of bits (rules R57, R58): reading a number's bits off, and the number a sequence writes. -/

namespace Sys2Proof.Machine

theorem bitsOf_zero (v : Nat) : bitsOf 0 v = [] := rfl

@[simp] theorem bitsOf_length (n v : Nat) : (bitsOf n v).length = n := by simp [bitsOf]

theorem bitsOf_succ (n v : Nat) : bitsOf (n + 1) v = v.testBit n :: bitsOf n v := by
  simp [bitsOf, List.range_succ_eq_map, Function.comp_def]
  intro a _
  congr 1
  omega

theorem bitsOf_pos {n : Nat} (v : Nat) (h : 0 < n) : bitsOf n v = v.testBit (n - 1) :: bitsOf (n - 1) v := by
  obtain ⟨m, rfl⟩ := Nat.exists_eq_succ_of_ne_zero (by omega : n ≠ 0)
  simp [bitsOf_succ]

theorem bitsOf_snoc (n v : Nat) (b : Bool) : bitsOf (n + 1) (2 * v + b.toNat) = bitsOf n v ++ [b] := by
  induction n with
  | zero => rw [bitsOf_succ]; simp [bitsOf_zero, Nat.testBit_zero]; cases b <;> simp
  | succ n ih =>
    rw [bitsOf_succ, ih, bitsOf_succ n v, List.cons_append]
    congr 1
    rw [Nat.testBit_succ]
    congr 1
    cases b <;> simp
    omega

theorem flatMap_byteBits_length (bytes : List Byte) : (bytes.flatMap byteBits).length = 8 * bytes.length := by
  induction bytes with
  | nil => rfl
  | cons a l ih => simp [ih, byteBits, bitsOf_length]; omega

theorem outBits_length (s : State) : (outBits s).length = 8 * s.env.sink.length + s.eng.onb.val := by
  rw [outBits, List.length_append, flatMap_byteBits_length, bitsOf_length]

theorem inBits_length {e : Engine} (bytes : List Byte) (h : e.eof = false) :
    (inBits e bytes).length = e.inb.val + 8 * bytes.length := by
  simp [inBits, h, bitsOf_length, -List.length_flatMap, flatMap_byteBits_length]

theorem bitsValue_append (a b : List Bool) : bitsValue (a ++ b) = bitsValue a * 2 ^ b.length + bitsValue b := by
  have gen : ∀ (b : List Bool) (v : Nat),
      b.foldl (fun v b => 2 * v + b.toNat) v = v * 2 ^ b.length + bitsValue b := by
    intro b
    induction b with
    | nil => intro v; simp [bitsValue]
    | cons x xs ih => intro v; simp only [List.foldl_cons, bitsValue, List.length_cons]; rw [ih, ih]; simp; ring
  rw [bitsValue, List.foldl_append, gen]
  rfl

theorem bitsValue_cons (x : Bool) (b : List Bool) : bitsValue (x :: b) = x.toNat * 2 ^ b.length + bitsValue b := by
  have := bitsValue_append [x] b
  simpa [bitsValue] using this

theorem bitsValue_lt (b : List Bool) : bitsValue b < 2 ^ b.length := by
  induction b with
  | nil => simp [bitsValue]
  | cons x xs ih => rw [bitsValue_cons, List.length_cons, pow_succ]; cases x <;> simp <;> omega

theorem bitsValue_zeros (n : Nat) : bitsValue (List.replicate n false) = 0 := by
  induction n with
  | zero => rfl
  | succ n ih => rw [List.replicate_succ, bitsValue_cons, ih]; simp

theorem bitsValue_ones (n : Nat) : bitsValue (List.replicate n true) + 1 = 2 ^ n := by
  induction n with
  | zero => rfl
  | succ n ih => rw [List.replicate_succ, bitsValue_cons, List.length_replicate, pow_succ]; simp; omega

@[simp] theorem padded_length (n : Nat) (l : List Bool) : (padded n l).length = n := by simp [padded]

/-- Padding in two goes is padding in one. -/
theorem padded_add (m n : Nat) (l : List Bool) : padded (m + n) l = padded m l ++ padded n (l.drop m) := by
  apply List.ext_getElem
  · simp [padded]
  · intro i h1 h2
    rw [List.getElem_append]
    simp [padded, List.getElem_append] at h1 ⊢
    split <;> split <;> intro _ <;> first | rfl | omega | (congr 1; omega)

theorem withOwed_zero (bs : List Bool) : withOwed 0 bs = bs := by cases bs <;> simp [withOwed]

theorem withOwed_cons (q : Nat) (b : Bool) (bs : List Bool) : withOwed q (b :: bs) = withOwed q [b] ++ bs := by
  simp [withOwed]

/-- The top bits of a number, once the highest has been shifted out (rule R155). -/
theorem take_bitsOf_shift {p : Params} (hp : p.Legal) {l k : Nat} (hl : l < p.FULL) (hk : k + 1 ≤ p.W) :
    (bitsOf p.W l).take (k + 1) = decide (p.HALF ≤ l) :: (bitsOf p.W (2 * l % p.FULL)).take k := by
  obtain ⟨w, hw⟩ : ∃ w, p.W = w + 1 := ⟨p.W - 1, by have := hp.1; omega⟩
  have hF : p.FULL = 2 ^ (w + 1) := by rw [← hw]; rfl
  have hH : p.HALF = 2 ^ w := by simp [Params.HALF, hw]
  rw [hw, bitsOf_succ, List.take_succ_cons, hH]
  congr 1
  · exact testBit_top (by rw [← hF]; exact hl)
  · apply List.ext_getElem
    · simp; omega
    · intro i h1 h2
      simp at h1 h2
      have : (w - 1 - i) + 1 < w + 1 := by omega
      simp only [bitsOf, hF, List.getElem_take, List.getElem_map, List.getElem_range, Nat.testBit_mod_two_pow]
      rw [show w + 1 - 1 - i = (w - 1 - i) + 1 by omega, Nat.testBit_succ]
      simp [this]

end Sys2Proof.Machine
end

