-- ==== Sys2Proof/Laws/State.lean ====
section
/-! SUPPORT. One lemma per field of the state per update: what it reads after it. Below the field `eng` the
updated registers are named, so every other register reads as before by projection. -/

namespace Sys2Proof.Machine.State

@[simp] theorem setBounds_params (s : State) (l h : Nat) : (s.setBounds l h).params = s.params := rfl
@[simp] theorem setBounds_eng (s : State) (l h : Nat) : (s.setBounds l h).eng = { s.eng with low := l, high := h } := rfl
@[simp] theorem setBounds_env (s : State) (l h : Nat) : (s.setBounds l h).env = s.env := rfl
@[simp] theorem setBounds_fresh (s : State) (l h : Nat) : (s.setBounds l h).fresh = s.fresh := rfl

@[simp] theorem setCode_params (s : State) (c : Nat) : (s.setCode c).params = s.params := rfl
@[simp] theorem setCode_eng (s : State) (c : Nat) : (s.setCode c).eng = { s.eng with code := c } := rfl
@[simp] theorem setCode_env (s : State) (c : Nat) : (s.setCode c).env = s.env := rfl
@[simp] theorem setCode_fresh (s : State) (c : Nat) : (s.setCode c).fresh = s.fresh := rfl

@[simp] theorem setPend_params (s : State) (n : Nat) : (s.setPend n).params = s.params := rfl
@[simp] theorem setPend_eng (s : State) (n : Nat) : (s.setPend n).eng = { s.eng with pend := n } := rfl
@[simp] theorem setPend_env (s : State) (n : Nat) : (s.setPend n).env = s.env := rfl
@[simp] theorem setPend_fresh (s : State) (n : Nat) : (s.setPend n).fresh = s.fresh := rfl

@[simp] theorem setPacker_params (s : State) (b : Byte) (n : Fin 8) : (s.setPacker b n).params = s.params := rfl
@[simp] theorem setPacker_eng (s : State) (b : Byte) (n : Fin 8) : (s.setPacker b n).eng = { s.eng with obuf := b, onb := n } := rfl
@[simp] theorem setPacker_env (s : State) (b : Byte) (n : Fin 8) : (s.setPacker b n).env = s.env := rfl
@[simp] theorem setPacker_fresh (s : State) (b : Byte) (n : Fin 8) : (s.setPacker b n).fresh = s.fresh := rfl

@[simp] theorem setUnpacker_params (s : State) (b : Byte) (n : Fin 9) : (s.setUnpacker b n).params = s.params := rfl
@[simp] theorem setUnpacker_eng (s : State) (b : Byte) (n : Fin 9) : (s.setUnpacker b n).eng = { s.eng with ibuf := b, inb := n } := rfl
@[simp] theorem setUnpacker_env (s : State) (b : Byte) (n : Fin 9) : (s.setUnpacker b n).env = s.env := rfl
@[simp] theorem setUnpacker_fresh (s : State) (b : Byte) (n : Fin 9) : (s.setUnpacker b n).fresh = s.fresh := rfl

@[simp] theorem setEof_params (s : State) (e : Bool) : (s.setEof e).params = s.params := rfl
@[simp] theorem setEof_eng (s : State) (e : Bool) : (s.setEof e).eng = { s.eng with eof := e } := rfl
@[simp] theorem setEof_env (s : State) (e : Bool) : (s.setEof e).env = s.env := rfl
@[simp] theorem setEof_fresh (s : State) (e : Bool) : (s.setEof e).fresh = s.fresh := rfl

@[simp] theorem setPadcnt_params (s : State) (n : Nat) : (s.setPadcnt n).params = s.params := rfl
@[simp] theorem setPadcnt_eng (s : State) (n : Nat) : (s.setPadcnt n).eng = { s.eng with padcnt := n } := rfl
@[simp] theorem setPadcnt_env (s : State) (n : Nat) : (s.setPadcnt n).env = s.env := rfl
@[simp] theorem setPadcnt_fresh (s : State) (n : Nat) : (s.setPadcnt n).fresh = s.fresh := rfl

@[simp] theorem setTable_params (s : State) (f : List Nat) (t : Nat) : (s.setTable f t).params = s.params := rfl
@[simp] theorem setTable_eng (s : State) (f : List Nat) (t : Nat) : (s.setTable f t).eng = { s.eng with F := f, TOTAL := t, CV := false } := rfl
@[simp] theorem setTable_env (s : State) (f : List Nat) (t : Nat) : (s.setTable f t).env = s.env := rfl
@[simp] theorem setTable_fresh (s : State) (f : List Nat) (t : Nat) : (s.setTable f t).fresh = s.fresh := rfl

@[simp] theorem setNsym_params (s : State) (n : Nat) : (s.setNsym n).params = s.params := rfl
@[simp] theorem setNsym_eng (s : State) (n : Nat) : (s.setNsym n).eng = { s.eng with NSYM := n } := rfl
@[simp] theorem setNsym_env (s : State) (n : Nat) : (s.setNsym n).env = s.env := rfl
@[simp] theorem setNsym_fresh (s : State) (n : Nat) : (s.setNsym n).fresh = s.fresh := rfl

@[simp] theorem setCV_params (s : State) : s.setCV.params = s.params := rfl
@[simp] theorem setCV_eng (s : State) : s.setCV.eng = { s.eng with CV := true } := rfl
@[simp] theorem setCV_env (s : State) : s.setCV.env = s.env := rfl
@[simp] theorem setCV_fresh (s : State) : s.setCV.fresh = s.fresh := rfl

@[simp] theorem setMode_params (s : State) (m : Mode) : (s.setMode m).params = s.params := rfl
@[simp] theorem setMode_eng (s : State) (m : Mode) : (s.setMode m).eng = { s.eng with MODE := m } := rfl
@[simp] theorem setMode_env (s : State) (m : Mode) : (s.setMode m).env = s.env := rfl
@[simp] theorem setMode_fresh (s : State) (m : Mode) : (s.setMode m).fresh = s.fresh := rfl

@[simp] theorem setFault_params (s : State) (c : BitVec 8) (i : BitVec 25) : (s.setFault c i).params = s.params := rfl
@[simp] theorem setFault_eng (s : State) (c : BitVec 8) (i : BitVec 25) : (s.setFault c i).eng = { s.eng with FAULT := true, CAUSE := c, FINFO := i } := rfl
@[simp] theorem setFault_env (s : State) (c : BitVec 8) (i : BitVec 25) : (s.setFault c i).env = s.env := rfl
@[simp] theorem setFault_fresh (s : State) (c : BitVec 8) (i : BitVec 25) : (s.setFault c i).fresh = s.fresh := rfl

@[simp] theorem setEngine_params (s : State) (e : Engine) : (s.setEngine e).params = s.params := rfl
@[simp] theorem setEngine_eng (s : State) (e : Engine) : (s.setEngine e).eng = e := rfl
@[simp] theorem setEngine_env (s : State) (e : Engine) : (s.setEngine e).env = s.env := rfl
@[simp] theorem setEngine_fresh (s : State) (e : Engine) : (s.setEngine e).fresh = s.fresh := rfl

@[simp] theorem setEnv_params (s : State) (v : Env) : (s.setEnv v).params = s.params := rfl
@[simp] theorem setEnv_eng (s : State) (v : Env) : (s.setEnv v).eng = s.eng := rfl
@[simp] theorem setEnv_env (s : State) (v : Env) : (s.setEnv v).env = v := rfl
@[simp] theorem setEnv_fresh (s : State) (v : Env) : (s.setEnv v).fresh = s.fresh := rfl

@[simp] theorem countReset_params (s : State) : s.countReset.params = s.params := rfl
@[simp] theorem countReset_eng (s : State) : s.countReset.eng = s.eng := rfl
@[simp] theorem countReset_env (s : State) : s.countReset.env = s.env := rfl
@[simp] theorem countReset_fresh (s : State) : s.countReset.fresh = s.fresh + 1 := rfl

@[simp] theorem answered_params (s : State) (st v : Nat) : (s.answered st v).params = s.params := rfl
@[simp] theorem answered_eng (s : State) (st v : Nat) : (s.answered st v).eng = s.eng := rfl
@[simp] theorem answered_env (s : State) (st v : Nat) : (s.answered st v).env = { s.env with rsps := s.env.rsps ++ [responseWord st v] } := rfl
@[simp] theorem answered_fresh (s : State) (st v : Nat) : (s.answered st v).fresh = s.fresh := rfl

@[simp] theorem faulted_params (s : State) (c op sym port : Nat) :
    (s.faulted c op sym port).params = s.params := rfl
@[simp] theorem faulted_fresh (s : State) (c op sym port : Nat) :
    (s.faulted c op sym port).fresh = s.fresh := rfl
@[simp] theorem faulted_env (s : State) (c op sym port : Nat) :
    (s.faulted c op sym port).env = { s.env with rsps := s.env.rsps ++ [responseWord c 0] } := rfl
@[simp] theorem faulted_eng (s : State) (c op sym port : Nat) :
    (s.faulted c op sym port).eng = { s.eng with
      FAULT := true
      CAUSE := BitVec.ofNat 8 c
      FINFO := BitVec.ofNat 25 (op % 2 ^ 8 + sym % 2 ^ 16 * 2 ^ 8 + port * 2 ^ 24) } := rfl

end Sys2Proof.Machine.State
end

