-- ==== Sys2Proof/Laws/Command.lean ====
section
/-! SUPPORT. What the frame around a command's pseudocode does (rules R72, R78, R210, R212, R230), said once:
`Run.bind` taken apart, and every way a command can end. -/

namespace Sys2Proof.Machine

@[simp] theorem Run.bind_done {α β : Type} (a : α) (s : State) (k : α → State → Run β) :
    (Run.done a s).bind k = k a s := rfl

@[simp] theorem Run.bind_stop {α β : Type} (w : Stop) (s : State) (k : α → State → Run β) :
    (Run.stop w s : Run α).bind k = .stop w s := rfl

@[simp] theorem raise_bind {α β : Type} (c : Cause) (s : State) (k : α → State → Run β) :
    (raise c s : Run α).bind k = raise c s := rfl

theorem Run.bind_assoc {α β γ : Type} (r : Run α) (k : α → State → Run β) (m : β → State → Run γ) :
    (r.bind k).bind m = r.bind fun a s => (k a s).bind m := by cases r <;> rfl

/-- What holds of the state a piece of pseudocode leaves, however it ends. -/
def Run.Leaves {α : Type} (P : State → Prop) : Run α → Prop
  | .done _ t => P t
  | .stop _ t => P t

@[simp] theorem Run.leaves_done {α : Type} (P : State → Prop) (a : α) (t : State) :
    (Run.done a t).Leaves P ↔ P t := Iff.rfl

@[simp] theorem Run.leaves_stop {α : Type} (P : State → Prop) (w : Stop) (t : State) :
    (Run.stop w t : Run α).Leaves P ↔ P t := Iff.rfl

@[simp] theorem Run.leaves_raise {α : Type} (P : State → Prop) (c : Cause) (t : State) :
    (raise c t : Run α).Leaves P ↔ P t := Iff.rfl

theorem Run.Leaves.mono {α : Type} {P Q : State → Prop} {r : Run α} (hr : r.Leaves P) (h : ∀ t, P t → Q t) :
    r.Leaves Q := by
  cases r <;> exact h _ hr

/-- Two pieces of pseudocode, one after the other. -/
theorem Run.Leaves.bind {α β : Type} {P : State → Prop} {r : Run α} {k : α → State → Run β}
    (hr : r.Leaves P) (hk : ∀ a t, P t → (k a t).Leaves P) : (r.bind k).Leaves P := by
  cases r with
  | done a t => exact hk a t hr
  | stop w t => exact hr

/-- How a piece of pseudocode ends: `D` if it ran to its end, `S` if it stopped early. -/
def Run.Ends {α : Type} (D : α → State → Prop) (S : Stop → State → Prop) : Run α → Prop
  | .done a t => D a t
  | .stop w t => S w t

/-- Two pieces of pseudocode, one after the other. -/
theorem Run.Ends.bind {α β : Type} {D : α → State → Prop} {D' : β → State → Prop} {S S' : Stop → State → Prop}
    {r : Run α} {k : α → State → Run β} (h : r.Ends D S) (hs : ∀ w t, S w t → S' w t)
    (hk : ∀ a t, D a t → (k a t).Ends D' S') : (r.bind k).Ends D' S' := by
  cases r with
  | done a t => exact hk a t h
  | stop w t => exact hs w t h

theorem Run.Ends.mono {α : Type} {D D' : α → State → Prop} {S S' : Stop → State → Prop} {r : Run α}
    (h : r.Ends D S) (hd : ∀ a t, D a t → D' a t) (hs : ∀ w t, S w t → S' w t) : r.Ends D' S' := by
  cases r with
  | done a t => exact hd a t h
  | stop w t => exact hs w t h

theorem answer_undisturbed {s : State} (st v : Nat) (h : s.env.rstIn = none) :
    answer st v s = .next (s.answered st v) := by
  simp [answer, h, respond, State.answered, State.setEnv]

theorem conclude_done {s : State} (op sym v : Nat) (h : s.env.rstIn = none) :
    conclude op sym (.done v s) = .next (s.answered 0 v) := answer_undisturbed 0 v h

theorem conclude_raised {s : State} (op sym : Nat) (c : Cause) (h : s.env.rstIn = none) :
    conclude op sym (.stop (.raised c) s) = .next (s.faulted (causeCode c) op sym (portBit c)) := by
  simp [conclude, answer, h, respond, State.faulted, State.setEnv, enterFault, State.setFault, finfoValue]

theorem conclude_raise {s : State} (op sym : Nat) (c : Cause) (h : s.env.rstIn = none) :
    conclude op sym (raise c s) = .next (s.faulted (causeCode c) op sym (portBit c)) :=
  conclude_raised op sym c h

/-- A running command is its pseudocode (rule R78). -/
theorem issue_running {s : State} (i : Instr) (body : State → Run Nat) (h : s.eng.FAULT = false) :
    issue i body s = conclude (opcodeOf i) (symOf i) (body s) := by simp [issue, h]

/-- A refused command (rule R212). -/
theorem issue_faulted {s : State} (i : Instr) (body : State → Run Nat) (h : s.eng.FAULT = true)
    (hr : s.env.rstIn = none) : issue i body s = .next (s.answered s.eng.CAUSE.toNat 0) := by
  simp [issue, h, answer_undisturbed _ _ hr]

/-- Everything a command's end can be, once its pseudocode has ended (rules R78, R210, R230, R240). -/
theorem conclude_next {op sym : Nat} {r : Run Nat} {t : State} (h : conclude op sym r = .next t) :
    (∃ v u, r = .done v u ∧ u.env.rstIn = none ∧ t = u.answered 0 v) ∨
    (∃ c u, r = .stop (.raised c) u ∧ u.env.rstIn = none ∧ t = u.faulted (causeCode c) op sym (portBit c)) ∨
    (∃ v u, r = .done v u ∧ u.env.rstIn ≠ none ∧ t = hardReset u) ∨
    (∃ c u, r = .stop (.raised c) u ∧ u.env.rstIn ≠ none ∧ t = hardReset (enterFault c op sym u)) ∨
    (∃ u, r = .stop .rst u ∧ t = hardReset u) := by
  match r with
  | .done v u =>
    by_cases hn : u.env.rstIn = none
    · rw [conclude_done op sym v hn] at h
      exact .inl ⟨v, u, rfl, hn, (Host.Outcome.next.inj h).symm⟩
    · refine .inr (.inr (.inl ⟨v, u, rfl, hn, ?_⟩))
      simpa [conclude, answer, Option.isSome_iff_ne_none, hn] using h.symm
  | .stop (.raised c) u =>
    by_cases hn : u.env.rstIn = none
    · rw [conclude_raised op sym c hn] at h
      exact .inr (.inl ⟨c, u, rfl, hn, (Host.Outcome.next.inj h).symm⟩)
    · refine .inr (.inr (.inr (.inl ⟨c, u, rfl, hn, ?_⟩)))
      simpa [conclude, answer, Option.isSome_iff_ne_none, hn, enterFault] using h.symm
  | .stop (.unanswered p) u => simp [conclude] at h
  | .stop .rst u => exact .inr (.inr (.inr (.inr ⟨u, rfl, by simpa [conclude] using h.symm⟩)))

/-- A reset's engine (rule R49). -/
theorem resetEngine_atReset (s : State) : AtReset s.params (resetEngine s).eng := by
  simp [AtReset, resetEngine, Engine.afterReset, Params.MASK]

theorem hardReset_atReset (s : State) : AtReset s.params (hardReset s).eng := resetEngine_atReset s

@[simp] theorem resetEngine_params (s : State) : (resetEngine s).params = s.params := rfl
@[simp] theorem resetEngine_env (s : State) : (resetEngine s).env = s.env := rfl
@[simp] theorem hardReset_params (s : State) : (hardReset s).params = s.params := rfl
@[simp] theorem hardReset_env (s : State) : (hardReset s).env = { s.env with rstIn := none } := rfl

end Sys2Proof.Machine
end

