-- ==== Sys2Proof/Laws/Moves.lean ====
section
/-! SUPPORT. Everything the shared primitives can do, said once: the encoder's primitives make `EncMove`s, the
decoder's make `DecMove`s, and nothing else, however they end. Every frame follows from these. -/

namespace Sys2Proof.Machine

/-- One elementary effect of `WriteBit`, `EmitBit`, `CloseBits` and `Renorm(ENCODE)` (rules R101, R102, R154 to
R156). -/
inductive EncMove : State → State → Prop where
  | packer (s : State) (b : Byte) (n : Fin 8) : EncMove s (s.setPacker b n)
  | pend (s : State) (n : Nat) : EncMove s (s.setPend n)
  | bounds (s : State) (l h : Nat) : EncMove s (s.setBounds l h)
  | append (s : State) (b : Byte) : s.env.rstIn ≠ some 0 → s.env.sinkAnswers.head? ≠ some (some .err) →
      s.env.sinkAnswers.head? ≠ some none →
      EncMove s (s.setEnv { s.env.transacted with
        sink := s.env.sink ++ [b], sinkAnswers := s.env.sinkAnswers.drop 1 })
  | failed (s : State) : s.env.rstIn ≠ some 0 →
      EncMove s (s.setEnv { s.env.transacted with sinkAnswers := s.env.sinkAnswers.drop 1 })

/-- One elementary effect of `ReadBit`, `ReadBitPad` and `Renorm(DECODE)` (rules R104, R105, R155, R156). -/
inductive DecMove : State → State → Prop where
  | unpacker (s : State) (b : Byte) (n : Fin 9) : DecMove s (s.setUnpacker b n)
  | eof (s : State) : DecMove s (s.setEof true)
  | padcnt (s : State) : s.eng.padcnt ≠ s.params.PADMAX → DecMove s (s.setPadcnt (s.eng.padcnt + 1))
  | code (s : State) (c : Nat) : DecMove s (s.setCode c)
  | bounds (s : State) (l h : Nat) : DecMove s (s.setBounds l h)
  | asked (s : State) : s.env.rstIn ≠ some 0 →
      DecMove s (s.setEnv { s.env.transacted with source := s.env.source.drop 1 })

/-- Any number of the encoder's effects. -/
abbrev EncMoves : State → State → Prop := Relation.ReflTransGen EncMove

/-- Any number of the decoder's effects. -/
abbrev DecMoves : State → State → Prop := Relation.ReflTransGen DecMove

/-- How the encoder's primitives can end early. -/
def EncStop (s : State) : Stop → State → Prop
  | .raised c, _ => c = .ioError .sink ∨ c = .pendOverflow
  | .unanswered p, t => p = .sink ∧ t.env.rstIn = none ∧ ∃ u, EncMoves s u ∧ u.env.sinkAnswers.head? = some none
  | .rst, t => t.env.rstIn ≠ none

/-- How the decoder's primitives can end early. -/
def DecStop (s : State) : Stop → State → Prop
  | .raised c, _ => c = .ioError .source ∨ c = .prematureEndOfStream
  | .unanswered p, t => p = .source ∧ t.env.rstIn = none ∧ ∃ u, DecMoves s u ∧ u.env.source.head? = some none
  | .rst, t => t.env.rstIn ≠ none

/-- Everything an encoder's piece of pseudocode started in `s` can do. -/
def Run.Encodes {α : Type} (s : State) : Run α → Prop
  | .done _ t => EncMoves s t
  | .stop w t => EncMoves s t ∧ EncStop s w t

/-- Everything a decoder's piece of pseudocode started in `s` can do. -/
def Run.Decodes {α : Type} (s : State) : Run α → Prop
  | .done _ t => DecMoves s t
  | .stop w t => DecMoves s t ∧ DecStop s w t

@[simp] theorem Run.encodes_done {α : Type} (s t : State) (a : α) : (Run.done a t).Encodes s ↔ EncMoves s t := Iff.rfl

@[simp] theorem Run.decodes_done {α : Type} (s t : State) (a : α) : (Run.done a t).Decodes s ↔ DecMoves s t := Iff.rfl

theorem Run.Encodes.after {α : Type} {s t : State} {r : Run α} (h : EncMoves s t) (hr : r.Encodes t) :
    r.Encodes s := by
  match r with
  | .done _ _ => exact h.trans hr
  | .stop (.raised _) _ => exact ⟨h.trans hr.1, hr.2⟩
  | .stop (.unanswered _) _ =>
    obtain ⟨h1, h2, h3, u, h4, h5⟩ := hr
    exact ⟨h.trans h1, h2, h3, u, h.trans h4, h5⟩
  | .stop .rst _ => exact ⟨h.trans hr.1, hr.2⟩

theorem Run.Decodes.after {α : Type} {s t : State} {r : Run α} (h : DecMoves s t) (hr : r.Decodes t) :
    r.Decodes s := by
  match r with
  | .done _ _ => exact h.trans hr
  | .stop (.raised _) _ => exact ⟨h.trans hr.1, hr.2⟩
  | .stop (.unanswered _) _ =>
    obtain ⟨h1, h2, h3, u, h4, h5⟩ := hr
    exact ⟨h.trans h1, h2, h3, u, h.trans h4, h5⟩
  | .stop .rst _ => exact ⟨h.trans hr.1, hr.2⟩

/-- A second piece of pseudocode continues the first one's moves. -/
theorem Run.Encodes.chain {α β : Type} {s : State} {r : Run α} {k : α → State → Run β} (hr : r.Encodes s)
    (hk : ∀ a t, (k a t).Encodes t) : (r.bind k).Encodes s := by
  cases r with
  | done a t => exact (hk a t).after hr
  | stop w t => exact hr

theorem Run.Decodes.chain {α β : Type} {s : State} {r : Run α} {k : α → State → Run β} (hr : r.Decodes s)
    (hk : ∀ a t, (k a t).Decodes t) : (r.bind k).Decodes s := by
  cases r with
  | done a t => exact (hk a t).after hr
  | stop w t => exact hr

theorem kept_along {M : State → State → Prop} {P : State → Prop} {s t : State}
    (h : Relation.ReflTransGen M s t) (hs : P s) (hk : ∀ u v, M u v → P u → P v) : P t := by
  induction h with
  | refl => exact hs
  | tail _ h ih => exact hk _ _ h ih

/-- A property every move keeps holds of whatever a piece of pseudocode leaves. -/
theorem Run.Encodes.keeps {α : Type} {P : State → Prop} {s : State} {r : Run α} (hr : r.Encodes s) (hs : P s)
    (hk : ∀ u v, EncMove u v → P u → P v) : r.Leaves P := by
  cases r with
  | done _ _ => exact kept_along hr hs hk
  | stop _ _ => exact kept_along hr.1 hs hk

theorem Run.Decodes.keeps {α : Type} {P : State → Prop} {s : State} {r : Run α} (hr : r.Decodes s) (hs : P s)
    (hk : ∀ u v, DecMove u v → P u → P v) : r.Leaves P := by
  cases r with
  | done _ _ => exact kept_along hr hs hk
  | stop _ _ => exact kept_along hr.1 hs hk

theorem sinkAppend_moves (b : Byte) (s : State) : (sinkAppend b s).Encodes s := by
  unfold sinkAppend
  by_cases hd : s.env.rstIn = some 0
  · simpa [rstDue, hd] using ⟨.refl, by simp [EncStop, hd]⟩
  · have happ := fun h1 h2 => Relation.ReflTransGen.single (EncMove.append s b hd h1 h2)
    have hfail := Relation.ReflTransGen.single (EncMove.failed s hd)
    simp only [rstDue, hd, decide_false, Bool.false_eq_true, if_false]
    match h : s.env.sinkAnswers with
    | [] => simpa [h, Env.transacted] using happ (by simp [h]) (by simp [h])
    | some .ok :: r => simpa [h] using happ (by simp [h]) (by simp [h])
    | some .err :: r => simpa [h] using hfail
    | none :: r =>
      have hmove : EncMoves s (s.setEnv { s.env.transacted with sinkAnswers := r }) := by simpa [h] using hfail
      simp only [unanswered]
      split
      · exact ⟨hmove, Option.isSome_iff_ne_none.1 ‹_›⟩
      · exact ⟨hmove, rfl, Option.not_isSome_iff_eq_none.1 ‹_›, s, .refl, by simp [h]⟩

theorem sourceNext_moves (s : State) : (sourceNext s).Decodes s := by
  unfold sourceNext
  by_cases hd : s.env.rstIn = some 0
  · simpa [rstDue, hd] using ⟨.refl, by simp [DecStop, hd]⟩
  · have hask := Relation.ReflTransGen.single (DecMove.asked s hd)
    simp only [rstDue, hd, decide_false, Bool.false_eq_true, if_false]
    match h : s.env.source with
    | [] => simpa [h, Env.transacted] using hask
    | some a :: r => simpa [h] using hask
    | none :: r =>
      have hmove : DecMoves s (s.setEnv { s.env.transacted with source := r }) := by simpa [h] using hask
      simp only [unanswered]
      split
      · exact ⟨hmove, Option.isSome_iff_ne_none.1 ‹_›⟩
      · exact ⟨hmove, rfl, Option.not_isSome_iff_eq_none.1 ‹_›, s, .refl, by simp [h]⟩

theorem writeBit_moves (b : Bool) (s : State) : (writeBit b s).Encodes s := by
  unfold writeBit
  dsimp only
  split
  · refine Run.Encodes.chain ((sinkAppend_moves _ _).after (.single (.packer s 0 0))) fun r t => ?_
    cases r with
    | ok => exact .refl
    | err => exact ⟨.refl, .inl rfl⟩
  · exact .single (.packer _ _ _)

theorem closeLoop_moves (n : Nat) (s : State) : (closeLoop n s).Encodes s := by
  induction n generalizing s with
  | zero => exact .refl
  | succ n ih =>
    unfold closeLoop
    split
    · exact .refl
    · exact (writeBit_moves false s).chain fun _ t => ih t

theorem emitOwed_moves (b : Bool) (n : Nat) (s : State) : (emitOwed b n s).Encodes s := by
  induction n generalizing s with
  | zero => exact .refl
  | succ n ih =>
    exact (writeBit_moves _ s).chain fun _ t => (ih _).after (.single (.pend t n))

theorem emitBit_moves (b : Bool) (s : State) : (emitBit b s).Encodes s :=
  (writeBit_moves b s).chain fun _ t => emitOwed_moves b _ t

theorem shiftStep_encode_moves (s : State) : (shiftStep .encode s).Encodes s :=
  (emitBit_moves _ s).chain fun _ t => .single (EncMove.bounds t _ _)

theorem underflowStep_encode_moves (s : State) : (underflowStep .encode s).Encodes s := by
  unfold underflowStep
  refine Run.Encodes.chain ?_ fun _ t => .single (EncMove.bounds t _ _)
  dsimp only
  split
  · exact ⟨.refl, .inr rfl⟩
  · exact .single (.pend s _)

theorem shiftLoop_encode_moves (n : Nat) (s : State) : (shiftLoop .encode n s).Encodes s := by
  induction n generalizing s with
  | zero => exact .refl
  | succ n ih =>
    unfold shiftLoop
    split
    · exact (shiftStep_encode_moves s).chain fun _ t => ih t
    · exact .refl

theorem underflowLoop_encode_moves (n : Nat) (s : State) :
    (underflowLoop .encode n s).Encodes s := by
  induction n generalizing s with
  | zero => exact .refl
  | succ n ih =>
    unfold underflowLoop
    split
    · exact (underflowStep_encode_moves s).chain fun _ t => ih t
    · exact .refl

theorem renorm_encode_moves (s : State) : (renorm .encode s).Encodes s :=
  (shiftLoop_encode_moves _ s).chain fun _ t => underflowLoop_encode_moves _ t

theorem takeBit_moves (s : State) : (takeBit s).Decodes s :=
  .single (DecMove.unpacker s _ _)

theorem readBit_moves (s : State) : (readBit s).Decodes s := by
  unfold readBit
  split
  · exact .refl
  · split
    · refine (sourceNext_moves s).chain fun r t => ?_
      cases r with
      | byte b => exact (takeBit_moves _).after (.single (.unpacker t b 8))
      | eof => exact .single (.eof t)
      | err => exact ⟨.refl, .inl rfl⟩
    · exact takeBit_moves s

theorem readBitPad_moves (s : State) : (readBitPad s).Decodes s := by
  refine (readBit_moves s).chain fun r t => ?_
  cases r with
  | some b => exact .refl
  | none =>
    dsimp only
    split
    · exact ⟨.refl, .inr rfl⟩
    · exact .single (.padcnt t ‹_›)

theorem pullBit_moves (c : Nat) (s : State) : (pullBit c s).Decodes s :=
  (readBitPad_moves s).chain fun _ t => .single (DecMove.code t _)

theorem shiftStep_decode_moves (s : State) : (shiftStep .decode s).Decodes s :=
  (pullBit_moves _ s).chain fun _ t => .single (DecMove.bounds t _ _)

theorem underflowStep_decode_moves (s : State) : (underflowStep .decode s).Decodes s :=
  (pullBit_moves _ s).chain fun _ t => .single (DecMove.bounds t _ _)

theorem shiftLoop_decode_moves (n : Nat) (s : State) : (shiftLoop .decode n s).Decodes s := by
  induction n generalizing s with
  | zero => exact .refl
  | succ n ih =>
    unfold shiftLoop
    split
    · exact (shiftStep_decode_moves s).chain fun _ t => ih t
    · exact .refl

theorem underflowLoop_decode_moves (n : Nat) (s : State) :
    (underflowLoop .decode n s).Decodes s := by
  induction n generalizing s with
  | zero => exact .refl
  | succ n ih =>
    unfold underflowLoop
    split
    · exact (underflowStep_decode_moves s).chain fun _ t => ih t
    · exact .refl

theorem renorm_decode_moves (s : State) : (renorm .decode s).Decodes s :=
  (shiftLoop_decode_moves _ s).chain fun _ t => underflowLoop_decode_moves _ t

theorem fillCode_moves (n : Nat) (s : State) : (fillCode n s).Decodes s := by
  induction n generalizing s with
  | zero => exact .refl
  | succ n ih => exact (pullBit_moves _ s).chain fun _ t => ih t

end Sys2Proof.Machine
end

