-- ==== Sys2Proof/Laws/Exec.lean ====
section
/-! SUPPORT. One inversion of `exec` for all commands (rule R78): a command is refused, or it is its pseudocode,
concluded. `bodyOf` names each command's pseudocode; the spec lemma of each command's own checks follows. -/

namespace Sys2Proof.Machine

/-- The pseudocode of each command. -/
def bodyOf : Instr → State → Run Nat
  | .reset => fun s => .done 0 (resetEngine s)
  | .rdreg r => fun s => .done (regValue s r) s
  | .tinit n => tinitBody n
  | .tset sym f => tsetBody sym f
  | .tinc sym => tincBody sym
  | .tget sym => tgetBody sym
  | .tclo sym => tcloBody sym
  | .tchi sym => tchiBody sym
  | .ttot => fun s => .done s.eng.TOTAL s
  | .einit => einitBody
  | .ewrite sym => ewriteBody sym
  | .efinish => efinishBody
  | .dinit => dinitBody
  | .dread => dreadBody

theorem exec_of_runs {i : Instr} {s : State} (h : s.eng.FAULT = false ∨ RunsFaulted i) :
    exec i s = conclude (opcodeOf i) (symOf i) (bodyOf i s) := by
  cases i
  case reset => rfl
  case rdreg => rfl
  all_goals exact issue_running _ _ (h.resolve_right (by simp [RunsFaulted]))

theorem exec_running {s : State} (i : Instr) (h : s.eng.FAULT = false) :
    exec i s = conclude (opcodeOf i) (symOf i) (bodyOf i s) := exec_of_runs (.inl h)

theorem exec_refused {i : Instr} {s : State} (h : s.eng.FAULT = true) (hi : ¬ RunsFaulted i) :
    exec i s = answer s.eng.CAUSE.toNat 0 s := by
  cases i <;> first | exact if_pos h | simp [RunsFaulted] at hi

/-- What every command's pseudocode leaves alone or moves only by the primitives' moves: any property of the
parameters and the environment that the moves keep. -/
theorem bodyOf_leaves {P : State → Prop} (i : Instr) {s : State} (hs : P s)
    (heng : ∀ (u : State) (e : Engine) (n : Nat), P u → P { u with eng := e, fresh := n })
    (henc : ∀ u v, EncMove u v → P u → P v) (hdec : ∀ u v, DecMove u v → P u → P v) :
    (bodyOf i s).Leaves P := by
  have he : ∀ (u : State) (e : Engine), P u → P { u with eng := e } := fun u e hu => heng u e u.fresh hu
  have hnarrow : ∀ sym u, P u → (narrowTo sym u).Leaves P := by
    intro sym u hu
    unfold narrowTo
    dsimp only
    split
    · exact hu
    · exact he u _ hu
  have hsym : ∀ sym body, (∀ u, P u → Run.Leaves P (body u)) → (withSymbol sym body s).Leaves P := by
    intro sym body hb
    unfold withSymbol
    split
    · exact hs
    · exact hb s hs
  cases i with
  | reset => exact heng s _ _ hs
  | rdreg r => exact hs
  | tinit n =>
    simp only [bodyOf, tinitBody]
    split
    · exact hs
    · split
      · exact hs
      · exact he s _ hs
  | tset sym f =>
    simp only [bodyOf, tsetBody]
    refine hsym sym _ fun u hu => ?_
    split
    · exact hu
    · exact he u _ hu
  | tinc sym =>
    simp only [bodyOf, tincBody]
    refine hsym sym _ fun u hu => ?_
    split
    · exact hu
    · exact he u _ hu
  | tget sym => exact hsym sym _ fun u hu => hu
  | tclo sym =>
    simp only [bodyOf, tcloBody]
    exact hsym sym _ fun u hu => he u _ hu
  | tchi sym =>
    simp only [bodyOf, tchiBody]
    exact hsym sym _ fun u hu => he u _ hu
  | ttot => exact hs
  | einit =>
    simp only [bodyOf, einitBody]
    split
    · exact hs
    · exact he s _ hs
  | ewrite sym =>
    simp only [bodyOf, ewriteBody]
    repeat' split
    all_goals first
      | exact hs
      | exact (hnarrow sym _ (he s _ hs)).bind fun _ t ht =>
          ((renorm_encode_moves t).keeps ht henc).bind fun _ u hu => hu
  | efinish =>
    simp only [bodyOf, efinishBody]
    repeat' split
    all_goals first
      | exact hs
      | exact ((emitBit_moves _ _).keeps (he s _ hs) henc).bind fun _ t ht =>
          ((closeLoop_moves _ t).keeps ht henc).bind fun _ u hu => he u _ hu
  | dinit =>
    simp only [bodyOf, dinitBody]
    split
    · exact hs
    · exact ((fillCode_moves _ _).keeps (he s _ hs) hdec).bind fun _ t ht => ht
  | dread =>
    simp only [bodyOf, dreadBody]
    split
    · exact hs
    · split
      · exact hs
      · split
        · exact he s _ hs
        · exact (hnarrow _ _ (he s _ hs)).bind fun _ t ht =>
            ((renorm_decode_moves t).keeps ht hdec).bind fun _ u hu => hu

/-- RST does not arise inside a command it is not asserted in (rule R230). -/
theorem bodyOf_undisturbed (i : Instr) {s : State} (h : s.env.rstIn = none) :
    (bodyOf i s).Leaves fun t => t.env.rstIn = none := by
  refine bodyOf_leaves i h (fun _ _ _ hu => hu) ?_ ?_
  · intro u v m hu
    cases m <;> simp_all [Env.transacted]
  · intro u v m hu
    cases m <;> simp_all [Env.transacted]

/-- Every way a command's pseudocode ends early: a clean fault with nothing written, a range error, a fault of
the ports, of the pad bound or of the pending counter, a request never answered, or RST. -/
def CommandStop (s : State) : Stop → State → Prop
  | .raised c, t =>
    ((c = .illegalCommand ∨ c = .invalidFrequencyTable ∨ c = .pendOverflow) ∧ t = s) ∨
    c = .codingRangeError ∨ c = .decodingRangeError ∨ c = .ioError .sink ∨ c = .pendOverflow ∨
    c = .ioError .source ∨ c = .prematureEndOfStream
  | .unanswered _, t => t.env.rstIn = none ∧ (none ∈ s.env.sinkAnswers ∨ none ∈ s.env.source)
  | .rst, t => t.env.rstIn ≠ none

/-- A piece of pseudocode that ends early only as a command started in `s` can. -/
def Run.StopsFrom {α : Type} (s : State) : Run α → Prop
  | .done _ _ => True
  | .stop w t => CommandStop s w t

theorem Run.StopsFrom.bind {α β : Type} {s : State} {r : Run α} {k : α → State → Run β}
    (hr : r.StopsFrom s) (hk : ∀ a t, r = .done a t → (k a t).StopsFrom s) : (r.bind k).StopsFrom s := by
  match r with
  | .done a t => exact hk a t rfl
  | .stop _ _ => exact hr

theorem mem_of_head?_drop {α : Type} {a : α} {l m : List α} (h : ∃ n, l = m.drop n) (ha : l.head? = some a) :
    a ∈ m := by
  obtain ⟨n, rfl⟩ := h
  exact List.mem_of_mem_drop (List.mem_of_mem_head? ha)

theorem EncMoves.answers {s t : State} (h : EncMoves s t) :
    t.env.source = s.env.source ∧ ∃ n, t.env.sinkAnswers = s.env.sinkAnswers.drop n := by
  refine kept_along (P := fun t => t.env.source = s.env.source ∧ ∃ n, t.env.sinkAnswers = s.env.sinkAnswers.drop n)
    h ⟨rfl, 0, rfl⟩ ?_
  rintro u v m ⟨h1, n, h2⟩
  cases m with
  | packer | pend | bounds => exact ⟨h1, n, h2⟩
  | append | failed => exact ⟨h1, n + 1, by simp [h2]⟩

theorem DecMoves.answers {s t : State} (h : DecMoves s t) :
    t.env.sinkAnswers = s.env.sinkAnswers ∧ ∃ n, t.env.source = s.env.source.drop n := by
  refine kept_along (P := fun t => t.env.sinkAnswers = s.env.sinkAnswers ∧ ∃ n, t.env.source = s.env.source.drop n)
    h ⟨rfl, 0, rfl⟩ ?_
  rintro u v m ⟨h1, n, h2⟩
  cases m with
  | unpacker | eof | padcnt | code | bounds => exact ⟨h1, n, h2⟩
  | asked => exact ⟨h1, n + 1, by simp [h2]⟩

theorem Run.Encodes.stopsFrom {α : Type} {s t : State} {r : Run α} (hr : r.Encodes t)
    (ht : ∃ n, t.env.sinkAnswers = s.env.sinkAnswers.drop n) : r.StopsFrom s := by
  match r with
  | .done _ _ => trivial
  | .stop (.raised c) _ =>
    rcases hr.2 with rfl | rfl
    · exact .inr (.inr (.inr (.inl rfl)))
    · exact .inr (.inr (.inr (.inr (.inl rfl))))
  | .stop (.unanswered p) _ =>
    obtain ⟨_, _, h2, u, hu, hn⟩ := hr
    obtain ⟨n, hn'⟩ := ht
    obtain ⟨k, hk⟩ := EncMoves.answers hu |>.2
    exact ⟨h2, .inl (mem_of_head?_drop ⟨n + k, by rw [hk, hn', List.drop_drop]⟩ hn)⟩
  | .stop .rst _ => exact hr.2

theorem Run.Decodes.stopsFrom {α : Type} {s t : State} {r : Run α} (hr : r.Decodes t)
    (ht : ∃ n, t.env.source = s.env.source.drop n) : r.StopsFrom s := by
  match r with
  | .done _ _ => trivial
  | .stop (.raised c) _ =>
    rcases hr.2 with rfl | rfl
    · exact .inr (.inr (.inr (.inr (.inr (.inl rfl)))))
    · exact .inr (.inr (.inr (.inr (.inr (.inr rfl)))))
  | .stop (.unanswered p) _ =>
    obtain ⟨_, _, h2, u, hu, hn⟩ := hr
    obtain ⟨n, hn'⟩ := ht
    obtain ⟨k, hk⟩ := DecMoves.answers hu |>.2
    exact ⟨h2, .inr (mem_of_head?_drop ⟨n + k, by rw [hk, hn', List.drop_drop]⟩ hn)⟩
  | .stop .rst _ => exact hr.2

theorem narrowTo_stopsFrom (sym : Nat) (s t : State) : (narrowTo sym t).StopsFrom s := by
  unfold narrowTo
  dsimp only
  split
  · exact .inr (.inl rfl)
  · trivial

theorem narrowTo_env {sym : Nat} {s t : State} {a : Unit} (h : narrowTo sym s = .done a t) : t.env = s.env := by
  unfold narrowTo at h
  dsimp only at h
  split at h
  · simp [raise] at h
  · cases h
    rfl

/-- How a command's pseudocode can end early. -/
theorem bodyOf_stopsFrom (i : Instr) (s : State) : (bodyOf i s).StopsFrom s := by
  have hill : Run.StopsFrom s (raise .illegalCommand s : Run Nat) := .inl ⟨.inl rfl, rfl⟩
  have hift : Run.StopsFrom s (raise .invalidFrequencyTable s : Run Nat) := .inl ⟨.inr (.inl rfl), rfl⟩
  have hpov : Run.StopsFrom s (raise .pendOverflow s : Run Nat) := .inl ⟨.inr (.inr rfl), rfl⟩
  have hsym : ∀ sym body, Run.StopsFrom s (body s) → (withSymbol sym body s).StopsFrom s := by
    intro sym body hb
    unfold withSymbol
    split
    · exact hill
    · exact hb
  cases i with
  | reset | rdreg | ttot => trivial
  | tget sym => exact hsym sym (fun s => .done (freqAt s.eng sym) s) trivial
  | tclo sym => exact hsym sym (fun s => .done (cum s.eng sym) s.setCV) trivial
  | tchi sym => exact hsym sym (fun s => .done (cum s.eng (sym + 1)) s.setCV) trivial
  | tinit n =>
    simp only [bodyOf, tinitBody]
    repeat' split
    all_goals first | exact hill | trivial
  | tset sym f =>
    simp only [bodyOf, tsetBody]
    refine hsym sym _ ?_
    split
    · exact hift
    · trivial
  | tinc sym =>
    simp only [bodyOf, tincBody]
    refine hsym sym _ ?_
    split
    · exact hift
    · trivial
  | einit =>
    simp only [bodyOf, einitBody]
    split
    · exact hill
    · trivial
  | ewrite sym =>
    simp only [bodyOf, ewriteBody]
    repeat' split
    all_goals first | exact hill | exact hift | skip
    refine (narrowTo_stopsFrom sym s _).bind fun _ t ht => ?_
    refine ((renorm_encode_moves t).stopsFrom ⟨0, ?_⟩).bind fun _ u _ => trivial
    rw [narrowTo_env ht]
    rfl
  | efinish =>
    simp only [bodyOf, efinishBody]
    repeat' split
    all_goals first | exact hill | exact hpov | skip
    have hemit := emitBit_moves (decide (¬ s.eng.low < s.params.QUARTER)) (s.setPend (s.eng.pend + 1))
    refine (hemit.stopsFrom (s := s) ⟨0, rfl⟩).bind fun _ t ht => ?_
    refine ((closeLoop_moves _ t).stopsFrom ?_).bind fun _ u _ => trivial
    have this := hemit
    rw [ht] at this
    exact (EncMoves.answers this).2
  | dinit =>
    simp only [bodyOf, dinitBody]
    split
    · exact hill
    · exact Run.StopsFrom.bind ((fillCode_moves _ _).stopsFrom ⟨0, rfl⟩) fun _ _ _ => trivial
  | dread =>
    simp only [bodyOf, dreadBody]
    split
    · exact hill
    · split
      · exact hift
      · split
        · exact .inr (.inr (.inl rfl))
        · refine (narrowTo_stopsFrom _ s _).bind fun _ t ht => ?_
          refine ((renorm_decode_moves t).stopsFrom ⟨0, ?_⟩).bind fun _ u _ => trivial
          rw [narrowTo_env ht]
          rfl

theorem bodyOf_stop {i : Instr} {s t : State} {w : Stop} (h : bodyOf i s = .stop w t) : CommandStop s w t := by
  have := bodyOf_stopsFrom i s
  rwa [h] at this

end Sys2Proof.Machine
end

