-- ==== Sys2Proof/Laws/Frames.lean ====
section
/-! SUPPORT. The frame of each command's pseudocode (rules R20 to R32): what may have changed in the state it
leaves, however it ends. -/

namespace Sys2Proof.Machine

/-- What the encoder's moves may change. -/
abbrev EncFrame (s t : State) : Prop :=
  t.eng = { s.eng with
    low := t.eng.low, high := t.eng.high, pend := t.eng.pend, obuf := t.eng.obuf, onb := t.eng.onb } ∧
  t.env = { s.env with sink := t.env.sink, sinkAnswers := t.env.sinkAnswers, rstIn := t.env.rstIn } ∧
  t.params = s.params ∧ t.fresh = s.fresh

/-- What the decoder's moves may change. -/
abbrev DecFrame (s t : State) : Prop :=
  t.eng = { s.eng with
    low := t.eng.low, high := t.eng.high, code := t.eng.code, ibuf := t.eng.ibuf, inb := t.eng.inb
    eof := t.eng.eof, padcnt := t.eng.padcnt } ∧
  t.env = { s.env with source := t.env.source, rstIn := t.env.rstIn } ∧
  t.params = s.params ∧ t.fresh = s.fresh

theorem EncMoves.frame {s t : State} (h : EncMoves s t) : EncFrame s t := by
  refine kept_along (P := EncFrame s) h ⟨rfl, rfl, rfl, rfl⟩ ?_
  rintro u v m ⟨h1, h2, h3, h4⟩
  cases m <;> refine ⟨?_, ?_, h3, h4⟩ <;> first | exact h1 | exact h2 | skip
  all_goals first
    | (simp only [State.setPacker_eng, State.setPend_eng, State.setBounds_eng]; rw [h1])
    | (simp only [State.setEnv_env, Env.transacted]; rw [h2])

theorem DecMoves.frame {s t : State} (h : DecMoves s t) : DecFrame s t := by
  refine kept_along (P := DecFrame s) h ⟨rfl, rfl, rfl, rfl⟩ ?_
  rintro u v m ⟨h1, h2, h3, h4⟩
  cases m <;> refine ⟨?_, ?_, h3, h4⟩ <;> first | exact h1 | exact h2 | skip
  all_goals first
    | (simp only [State.setUnpacker_eng, State.setEof_eng, State.setPadcnt_eng, State.setCode_eng,
        State.setBounds_eng]; rw [h1])
    | (simp only [State.setEnv_env, Env.transacted]; rw [h2])

/-- The bounds stand still while bits are written (rules R101, R102, R154). -/
abbrev BoundsKept (s t : State) : Prop := t.eng.low = s.eng.low ∧ t.eng.high = s.eng.high

theorem writeBit_boundsKept (b : Bool) (s : State) : (writeBit b s).Leaves (BoundsKept s) := by
  have hsink : ∀ byte u, BoundsKept s u → (sinkAppend byte u).Leaves (BoundsKept s) := by
    intro byte u hu
    unfold sinkAppend
    split
    · exact hu
    · split <;> first | exact hu | skip
      unfold unanswered
      split <;> exact hu
  unfold writeBit
  dsimp only
  split
  · refine (hsink _ (s.setPacker 0 0) ⟨rfl, rfl⟩).bind fun r t ht => ?_
    cases r <;> exact ht
  · exact ⟨rfl, rfl⟩

theorem Run.Leaves.boundsKept_bind {α β : Type} {s : State} {r : Run α} {k : α → State → Run β}
    (hr : r.Leaves (BoundsKept s)) (hk : ∀ a t, (k a t).Leaves (BoundsKept t)) :
    (r.bind k).Leaves (BoundsKept s) :=
  hr.bind fun a t ht => (hk a t).mono fun _ hu => ⟨hu.1.trans ht.1, hu.2.trans ht.2⟩

theorem emitOwed_boundsKept (b : Bool) (n : Nat) (s : State) : (emitOwed b n s).Leaves (BoundsKept s) := by
  induction n generalizing s with
  | zero => exact ⟨rfl, rfl⟩
  | succ n ih => exact (writeBit_boundsKept _ s).boundsKept_bind fun _ t => ih (t.setPend n)

theorem emitBit_boundsKept (b : Bool) (s : State) : (emitBit b s).Leaves (BoundsKept s) :=
  (writeBit_boundsKept b s).boundsKept_bind fun _ t => emitOwed_boundsKept b _ t

theorem closeLoop_boundsKept (n : Nat) (s : State) : (closeLoop n s).Leaves (BoundsKept s) := by
  induction n generalizing s with
  | zero => exact ⟨rfl, rfl⟩
  | succ n ih =>
    unfold closeLoop
    split
    · exact ⟨rfl, rfl⟩
    · exact (writeBit_boundsKept false s).boundsKept_bind fun _ t => ih t

theorem narrowTo_leaves (sym : Nat) (s : State) : (narrowTo sym s).Leaves fun t =>
    t.eng = { s.eng with low := t.eng.low, high := t.eng.high } ∧ t.env = s.env ∧ t.params = s.params ∧
      t.fresh = s.fresh := by
  unfold narrowTo
  dsimp only
  split <;> exact ⟨rfl, rfl, rfl, rfl⟩

/-- What each command may have changed in the state its pseudocode leaves. -/
def CommandFrame (s : State) : Instr → State → Prop
  | .reset, t => t = resetEngine s
  | .rdreg _, t => t = s
  | .tinit n, t => t = s ∨
      s.eng.MODE = .idle ∧ 1 ≤ n ∧ n ≤ s.params.NMAX ∧
        t = (s.setNsym n).setTable (Memory.zeroFirst s.eng.F n) 0
  | .tset sym f, t => t = s ∨
      sym < s.eng.NSYM ∧ f ≤ s.params.MAXTOTAL ∧
        t = s.setTable (Memory.write s.eng.F sym f) (s.eng.TOTAL - freqAt s.eng sym + f)
  | .tinc sym, t => t = s ∨
      sym < s.eng.NSYM ∧ freqAt s.eng sym + 1 ≤ s.params.MAXTOTAL ∧
        t = s.setTable (Memory.write s.eng.F sym (freqAt s.eng sym + 1)) (s.eng.TOTAL + 1)
  | .tget _, t => t = s
  | .tclo sym, t => t = s ∨ sym < s.eng.NSYM ∧ t = s.setCV
  | .tchi sym, t => t = s ∨ sym < s.eng.NSYM ∧ t = s.setCV
  | .ttot, t => t = s
  | .einit, t => t = s ∨
      s.eng.MODE = .idle ∧
        t = ((((s.setBounds 0 s.params.MASK).setCode 0).setPend 0).setPacker 0 0).setMode .enc
  | .ewrite _, t => t = s ∨ s.eng.MODE = .enc ∧ EncFrame s.setCV t
  | .efinish, t => t = s ∨
      s.eng.MODE = .enc ∧ BoundsKept s t ∧
        (EncFrame s t ∨ EncFrame (s.setMode .encDone) t)
  | .dinit, t => t = s ∨
      s.eng.MODE = .idle ∧ DecFrame ((s.setPend 0).setMode .dec) t
  | .dread, t => t = s ∨ s.eng.MODE = .dec ∧ DecFrame s.setCV t

theorem bodyOf_frame (i : Instr) (s : State) : (bodyOf i s).Leaves (CommandFrame s i) := by
  cases i with
  | reset | rdreg | ttot => rfl
  | tinit n =>
    simp only [bodyOf, tinitBody]
    split
    · exact .inl rfl
    · split
      · exact .inl rfl
      · rename_i hm _
        exact .inr ⟨not_not.1 hm, by omega, by omega, rfl⟩
  | tset sym f =>
    simp only [bodyOf, tsetBody, withSymbol]
    split
    · exact .inl rfl
    · split
      · exact .inl rfl
      · exact .inr ⟨by omega, by omega, rfl⟩
  | tinc sym =>
    simp only [bodyOf, tincBody, withSymbol]
    split
    · exact .inl rfl
    · split
      · exact .inl rfl
      · exact .inr ⟨by omega, by omega, rfl⟩
  | tget sym =>
    simp only [bodyOf, tgetBody, withSymbol]
    split <;> rfl
  | tclo sym =>
    simp only [bodyOf, tcloBody, withSymbol]
    split
    · exact .inl rfl
    · exact .inr ⟨by omega, rfl⟩
  | tchi sym =>
    simp only [bodyOf, tchiBody, withSymbol]
    split
    · exact .inl rfl
    · exact .inr ⟨by omega, rfl⟩
  | einit =>
    simp only [bodyOf, einitBody]
    split
    · exact .inl rfl
    · rename_i hm
      exact .inr ⟨not_not.1 hm, rfl⟩
  | ewrite sym =>
    simp only [bodyOf, ewriteBody]
    split
    · exact .inl rfl
    · rename_i hm
      have hm : s.eng.MODE = .enc := by simpa using hm
      repeat' split
      all_goals first | exact .inl rfl | skip
      refine Run.Leaves.mono (P := EncFrame s.setCV) ?_ fun t ht => .inr ⟨hm, ht⟩
      refine Run.Leaves.bind (P := EncFrame s.setCV) ?_ fun _ t ht => Run.Leaves.bind (P := EncFrame s.setCV) ?_ fun _ u hu => hu
      · refine (narrowTo_leaves sym s.setCV).mono ?_
        rintro t ⟨h1, h2, h3, h4⟩
        exact ⟨by rw [h1], by rw [h2], h3, h4⟩
      · have hk : (renorm .encode t).Leaves (EncFrame t) := by
          have := renorm_encode_moves t
          cases hr : renorm .encode t with
          | done a u => rw [hr] at this; exact EncMoves.frame this
          | stop w u => rw [hr] at this; exact EncMoves.frame this.1
        refine hk.mono ?_
        rintro u ⟨h1, h2, h3, h4⟩
        exact ⟨by rw [h1, ht.1], by rw [h2, ht.2.1], h3.trans ht.2.2.1, h4.trans ht.2.2.2⟩
  | efinish =>
    simp only [bodyOf, efinishBody]
    split
    · exact .inl rfl
    · rename_i hm
      have hm : s.eng.MODE = .enc := by simpa using hm
      split
      · exact .inl rfl
      · have h1 : Run.Leaves (fun t => BoundsKept s t ∧ EncFrame s t)
            (emitBit (decide (¬ s.eng.low < s.params.QUARTER)) (s.setPend (s.eng.pend + 1))) := by
          have hb := emitBit_boundsKept (decide (¬ s.eng.low < s.params.QUARTER)) (s.setPend (s.eng.pend + 1))
          have hf := emitBit_moves (decide (¬ s.eng.low < s.params.QUARTER)) (s.setPend (s.eng.pend + 1))
          have hf := Run.Encodes.after (.single (.pend s _)) hf
          cases hr : emitBit (decide (¬ s.eng.low < s.params.QUARTER)) (s.setPend (s.eng.pend + 1)) with
          | done a u => rw [hr] at hb hf; exact ⟨hb, EncMoves.frame hf⟩
          | stop w u => rw [hr] at hb hf; exact ⟨hb, EncMoves.frame hf.1⟩
        match hr : emitBit (decide (¬ s.eng.low < s.params.QUARTER)) (s.setPend (s.eng.pend + 1)) with
        | .stop w u => rw [hr] at h1; exact .inr ⟨hm, h1.1, .inl h1.2⟩
        | .done a t =>
          rw [hr] at h1
          have h2 : Run.Leaves (fun u => BoundsKept s u ∧ EncFrame s u) (closeLoop 7 t) := by
            have hb := closeLoop_boundsKept 7 t
            have hf := closeLoop_moves 7 t
            obtain ⟨⟨l1, l2⟩, e1, e2, e3, e4⟩ := h1
            cases hr : closeLoop 7 t with
            | done a u =>
              rw [hr] at hb hf
              obtain ⟨f1, f2, f3, f4⟩ := EncMoves.frame hf
              exact ⟨⟨hb.1.trans l1, hb.2.trans l2⟩, by rw [f1, e1], by rw [f2, e2], f3.trans e3, f4.trans e4⟩
            | stop w u =>
              rw [hr] at hb hf
              obtain ⟨f1, f2, f3, f4⟩ := EncMoves.frame hf.1
              exact ⟨⟨hb.1.trans l1, hb.2.trans l2⟩, by rw [f1, e1], by rw [f2, e2], f3.trans e3, f4.trans e4⟩
          show Run.Leaves _ ((closeLoop 7 t).bind fun _ u => .done 0 (u.setMode .encDone))
          match hc : closeLoop 7 t with
          | .stop w u => rw [hc] at h2; exact .inr ⟨hm, h2.1, .inl h2.2⟩
          | .done a u =>
            rw [hc] at h2
            obtain ⟨hb, e1, e2, e3, e4⟩ := h2
            refine .inr ⟨hm, hb, .inr ⟨?_, e2, e3, e4⟩⟩
            simp only [State.setMode_eng]
            rw [e1]
  | dinit =>
    simp only [bodyOf, dinitBody]
    split
    · exact .inl rfl
    · rename_i hm
      have hm : s.eng.MODE = .idle := by simpa using hm
      refine Run.Leaves.mono (P := DecFrame ((s.setPend 0).setMode .dec)) ?_ fun t ht => .inr ⟨hm, ht⟩
      refine Run.Leaves.bind ?_ fun _ u hu => hu
      have := fillCode_moves s.params.W (((((((s.setBounds 0 s.params.MASK).setCode 0).setPend 0).setUnpacker 0 0).setEof
        false).setPadcnt 0).setMode .dec)
      refine Run.Decodes.keeps this ⟨rfl, rfl, rfl, rfl⟩ ?_
      rintro u v m ⟨h1, h2, h3, h4⟩
      obtain ⟨f1, f2, f3, f4⟩ := DecMoves.frame (.single m)
      exact ⟨by rw [f1, h1], by rw [f2, h2], f3.trans h3, f4.trans h4⟩
  | dread =>
    simp only [bodyOf, dreadBody]
    split
    · exact .inl rfl
    · rename_i hm
      have hm : s.eng.MODE = .dec := by simpa using hm
      split
      · exact .inl rfl
      · refine Run.Leaves.mono (P := DecFrame s.setCV) ?_ fun t ht => .inr ⟨hm, ht⟩
        split
        · exact ⟨rfl, rfl, rfl, rfl⟩
        · refine Run.Leaves.bind (P := DecFrame s.setCV) ?_ fun _ t ht =>
            Run.Leaves.bind (P := DecFrame s.setCV) ?_ fun _ u hu => hu
          · refine (narrowTo_leaves _ s.setCV).mono ?_
            rintro t ⟨h1, h2, h3, h4⟩
            exact ⟨by rw [h1], by rw [h2], h3, h4⟩
          · refine Run.Decodes.keeps (renorm_decode_moves t) ht ?_
            rintro u v m ⟨h1, h2, h3, h4⟩
            obtain ⟨f1, f2, f3, f4⟩ := DecMoves.frame (.single m)
            exact ⟨by rw [f1, h1], by rw [f2, h2], f3.trans h3, f4.trans h4⟩

/-! ### What a command that gave a next state did -/

/-- Everything a command RST leaves alone can do: it was refused (rule R212), or its pseudocode ran and ended
with a result (rule R78) or in a fault (rule R210). -/
theorem exec_next {i : Instr} {s t : State} (hr : s.env.rstIn = none) (h : exec i s = .next t) :
    (s.eng.FAULT = true ∧ ¬ RunsFaulted i ∧ t = s.answered s.eng.CAUSE.toNat 0) ∨
    ((s.eng.FAULT = false ∨ RunsFaulted i) ∧
      ((∃ v u, bodyOf i s = .done v u ∧ t = u.answered 0 v) ∨
       ∃ c u, bodyOf i s = .stop (.raised c) u ∧
         t = u.faulted (causeCode c) (opcodeOf i) (symOf i) (portBit c))) := by
  by_cases hc : s.eng.FAULT = false ∨ RunsFaulted i
  · refine .inr ⟨hc, ?_⟩
    rw [exec_of_runs hc] at h
    have hu := bodyOf_undisturbed i hr
    rcases conclude_next h with ⟨v, u, h1, -, h3⟩ | ⟨c, u, h1, -, h3⟩ | ⟨v, u, h1, h2, -⟩ | ⟨c, u, h1, h2, -⟩ | ⟨u, h1, -⟩
    · exact .inl ⟨v, u, h1, h3⟩
    · exact .inr ⟨c, u, h1, h3⟩
    all_goals rw [h1] at hu
    · exact absurd hu h2
    · exact absurd hu h2
    · exact absurd hu (bodyOf_stop h1)
  · rw [not_or, Bool.not_eq_false] at hc
    rw [exec_refused hc.1 hc.2, answer_undisturbed _ _ hr] at h
    exact .inl ⟨hc.1, hc.2, (Host.Outcome.next.inj h).symm⟩

/-- The same, by the command's frame. -/
theorem exec_next_frame {i : Instr} {s t : State} (hr : s.env.rstIn = none) (h : exec i s = .next t) :
    (s.eng.FAULT = true ∧ ¬ RunsFaulted i ∧ t = s.answered s.eng.CAUSE.toNat 0) ∨
    ((s.eng.FAULT = false ∨ RunsFaulted i) ∧ ∃ u, CommandFrame s i u ∧
      ((∃ v, t = u.answered 0 v) ∨
       ∃ c, t = u.faulted (causeCode c) (opcodeOf i) (symOf i) (portBit c))) := by
  have hf := bodyOf_frame i s
  rcases exec_next hr h with h | ⟨h1, ⟨v, u, h2, h3⟩ | ⟨c, u, h2, h3⟩⟩
  · exact .inl h
  · rw [h2] at hf
    exact .inr ⟨h1, u, hf, .inl ⟨v, h3⟩⟩
  · rw [h2] at hf
    exact .inr ⟨h1, u, hf, .inr ⟨c, h3⟩⟩

/-- No command's pseudocode touches the fault registers, the answers given or what the host presents; `RESET`
clears the fault registers (rules R49, R72, R210). -/
theorem CommandFrame.fault {i : Instr} {s u : State} (h : CommandFrame s i u) (hi : i ≠ .reset) :
    u.eng.FAULT = s.eng.FAULT ∧ u.eng.CAUSE = s.eng.CAUSE ∧ u.eng.FINFO = s.eng.FINFO ∧
    u.env.rsps = s.env.rsps ∧ u.env.inbox = s.env.inbox := by
  cases i <;> simp only [CommandFrame] at h
  case reset => exact absurd rfl hi
  case rdreg | tget | ttot => subst h; simp
  case tinit => rcases h with h | ⟨-, -, -, h⟩ <;> subst h <;> simp
  case tset | tinc => rcases h with h | ⟨-, -, h⟩ <;> subst h <;> simp
  case tclo | tchi | einit => rcases h with h | ⟨-, h⟩ <;> subst h <;> simp
  case ewrite | dinit | dread =>
    rcases h with h | ⟨-, h1, h2, -⟩
    · subst h; simp
    · rw [h1, h2]; simp
  case efinish =>
    rcases h with h | ⟨-, -, ⟨h1, h2, -⟩ | ⟨h1, h2, -⟩⟩
    · subst h; simp
    all_goals rw [h1, h2]; simp

end Sys2Proof.Machine
end

