-- ==== Sys2Proof/Laws/Memory.lean ====
section
/-! SUPPORT. The table RAM keeps its one form (rule R27) under every operation on it, and what a write does to a
sum over it (rules R29, R121). -/

namespace Sys2Proof.Machine

namespace Memory

theorem wf_iff {p : Params} {f : List Nat} :
    wf p f = true ↔ f.length = p.NMAX ∧ ∀ v ∈ f, v < 2 ^ (p.W - 2) := by
  simp [wf]

theorem write_wf {p : Params} {f : List Nat} {k v : Nat} (h : wf p f = true) (hv : v ≤ p.MAXTOTAL) :
    wf p (write f k v) = true := by
  rw [wf_iff] at *
  refine ⟨by simp [write, h.1], fun x hx => ?_⟩
  rcases List.mem_or_eq_of_mem_set hx with h1 | rfl
  · exact h.2 x h1
  · have : 1 ≤ 2 ^ (p.W - 2) := Nat.one_le_two_pow
    simp only [Params.MAXTOTAL] at hv
    omega

theorem zeroFirst_wf {p : Params} {f : List Nat} {n : Nat} (h : wf p f = true) (hn : n ≤ p.NMAX) :
    wf p (zeroFirst f n) = true := by
  rw [wf_iff] at *
  refine ⟨by simp [zeroFirst, h.1]; omega, fun v hv => ?_⟩
  simp only [zeroFirst, List.mem_append, List.mem_replicate] at hv
  rcases hv with ⟨-, rfl⟩ | hv
  · positivity
  · exact h.2 v (List.mem_of_mem_drop hv)

theorem afterReset_wf (p : Params) (k : Nat) : wf p (afterReset p k) = true := by
  rw [wf_iff]
  refine ⟨by simp [afterReset], fun v hv => ?_⟩
  obtain ⟨i, -, rfl⟩ := List.mem_map.1 hv
  exact Nat.mod_lt _ (by positivity)

/-- A read after a write: the entry written. -/
theorem read_write_same {f : List Nat} {k : Nat} (v : Nat) (h : k < f.length) : (write f k v).getD k 0 = v := by
  simp [write, h]

/-- A read after a write: every other entry. -/
theorem read_write_other {f : List Nat} {j k : Nat} (v : Nat) (h : j ≠ k) :
    (write f k v).getD j 0 = f.getD j 0 := by
  simp [write, List.getElem?_set_ne h.symm]

theorem sum_write (f : List Nat) (k v : Nat) (h : k < f.length) :
    (write f k v).sum + f.getD k 0 = f.sum + v := by
  induction f generalizing k with
  | nil => simp at h
  | cons a f ih =>
    cases k with
    | zero => simp [write]; omega
    | succ k =>
      have := ih k (by simpa using h)
      simp [write] at this ⊢
      omega

end Memory

/-- The RAM after reset has its form. -/
theorem resetOf_wf (p : Params) : Memory.wf p (State.resetOf p).eng.F = true := by
  rw [Memory.wf_iff]
  refine ⟨List.length_replicate, fun v hv => ?_⟩
  obtain rfl := (List.mem_replicate.1 hv).2
  positivity

theorem reset_wf : Memory.wf State.reset.params State.reset.eng.F = true := resetOf_wf _

end Sys2Proof.Machine
end

