-- ==== Sys2Proof/Laws/Packer.lean ====
section
/-! SUPPORT. What the packer's primitives and `EmitBit` do (rules R101 to R103, R154), said once for each: every
end they can have, over the sequence of all bits written. -/

namespace Sys2Proof.Machine

/-- The packer is as rule R25 says, and no RST is coming. -/
abbrev PackerReady (s : State) : Prop := s.env.rstIn = none ∧ s.eng.obuf.toNat < 2 ^ s.eng.onb.val

/-- From `s`, these bits were written and `q` bits are owed; nothing else changed. -/
def Wrote (s : State) (bits : List Bool) (q : Nat) (t : State) : Prop :=
  outBits t = outBits s ++ bits ∧ t.eng.obuf.toNat < 2 ^ t.eng.onb.val ∧
  t = { s with
    eng.pend := q, eng.obuf := t.eng.obuf, eng.onb := t.eng.onb
    env.sink := t.env.sink, env.sinkAnswers := t.env.sinkAnswers } ∧
  (SinkAccepts s → SinkAccepts t)

/-- From `s`, the sink did not take a byte. -/
def SinkFailed (s : State) (w : Stop) (t : State) : Prop :=
  ¬ SinkAccepts s ∧ (w = .raised (.ioError .sink) ∨ w = .unanswered .sink) ∧
  t.eng.obuf.toNat < 2 ^ t.eng.onb.val ∧ t.eng.pend ≤ s.eng.pend ∧
  t = { s with
    eng.pend := t.eng.pend, eng.obuf := t.eng.obuf, eng.onb := t.eng.onb
    env.sink := t.env.sink, env.sinkAnswers := t.env.sinkAnswers }

theorem Wrote.trans {s t u : State} {b c : List Bool} {q r : Nat} (h : Wrote s b q t) (g : Wrote t c r u) :
    Wrote s (b ++ c) r u := by
  obtain ⟨h1, -, h3, h4⟩ := h
  obtain ⟨g1, g2, g3, g4⟩ := g
  refine ⟨by rw [g1, h1, List.append_assoc], g2, ?_, g4 ∘ h4⟩
  rw [g3, h3]

theorem Wrote.ready {s t : State} {b : List Bool} {q : Nat} (h : Wrote s b q t) (hs : PackerReady s) :
    PackerReady t := ⟨by rw [h.2.2.1]; exact hs.1, h.2.1⟩

theorem Wrote.failed {s t u : State} {b : List Bool} {q : Nat} {w : Stop} (h : Wrote s b q t)
    (hq : q ≤ s.eng.pend) (g : SinkFailed t w u) : SinkFailed s w u := by
  obtain ⟨-, -, h3, h4⟩ := h
  obtain ⟨g1, g2, g3, g4, g5⟩ := g
  have : t.eng.pend = q := by rw [h3]
  refine ⟨fun h => g1 (h4 h), g2, g3, by omega, ?_⟩
  rw [g5, h3]

theorem packBit_toNat {n : Nat} (o : Byte) (b : Bool) (hn : n < 8) (h : o.toNat < 2 ^ n) :
    (packBit o b).toNat = 2 * o.toNat + b.toNat := by
  have h2 : o.toNat < 2 ^ 7 := lt_of_lt_of_le h (Nat.pow_le_pow_right (by omega) (by omega))
  have h3 : o.toNat <<< 1 = 2 * o.toNat := by simp [Nat.shiftLeft_eq]; omega
  simp only [packBit, BitVec.toNat_or, BitVec.toNat_shiftLeft, h3]
  rw [Nat.mod_eq_of_lt (by omega)]
  cases b <;> simp
  have := Nat.two_pow_add_eq_or_of_lt (i := 1) (b := 1) (by omega) o.toNat
  simpa using this.symm

theorem writeBit_spec (b : Bool) (s : State) (h : PackerReady s) :
    (writeBit b s).Ends (fun _ t => Wrote s [b] s.eng.pend t) (SinkFailed s) := by
  obtain ⟨hr, ho⟩ := h
  have hp := packBit_toNat s.eng.obuf b s.eng.onb.isLt ho
  have htr : s.env.transacted = s.env := by cases s with | mk p e v f => cases v; simp_all [Env.transacted]
  unfold writeBit
  dsimp only
  split
  · rename_i h7
    have hbits : byteBits (packBit s.eng.obuf b) = bitsOf s.eng.onb.val s.eng.obuf.toNat ++ [b] := by
      rw [byteBits, hp, ← bitsOf_snoc, h7]
    have hout : ∀ a, outBits ((s.setPacker 0 0).setEnv
        { s.env with sink := s.env.sink ++ [packBit s.eng.obuf b], sinkAnswers := a }) = outBits s ++ [b] := by
      intro a
      simp [outBits, bitsOf_zero, hbits]
    have h0 : rstDue (s.setPacker 0 0) = false := by simp [rstDue, hr]
    simp only [sinkAppend, h0, State.setPacker_env, htr]
    match hq : s.env.sinkAnswers with
    | [] =>
      refine ⟨?_, by simp, rfl, fun _ => by simp [SinkAccepts]⟩
      rw [← hq]
      exact hout s.env.sinkAnswers
    | some .ok :: r => exact ⟨hout r, by simp, rfl, fun h a ha => h a (by simp_all)⟩
    | some .err :: r =>
      refine ⟨fun h => ?_, .inl rfl, by simp, le_rfl, rfl⟩
      simpa using h (some .err) (by simp [hq])
    | none :: r =>
      simp only [unanswered, State.setEnv_env, Option.isSome_iff_ne_none, hr, ne_eq, not_true_eq_false]
      refine ⟨fun h => ?_, .inr rfl, by simp, le_rfl, by rw [← hr]; rfl⟩
      simpa using h none (by simp [hq])
  · refine ⟨?_, ?_, rfl, id⟩
    · simp only [outBits, State.setPacker_eng, State.setPacker_env, hp, bitsOf_snoc, List.append_assoc]
    · simp only [State.setPacker_eng, hp, pow_succ]
      cases b <;> simp <;> omega

theorem emitOwed_spec (b : Bool) (n : Nat) (s : State) (h : PackerReady s) (hn : s.eng.pend = n) :
    (emitOwed b n s).Ends (fun _ t => Wrote s (List.replicate n (!b)) 0 t) (SinkFailed s) := by
  induction n generalizing s with
  | zero => exact ⟨by simp, h.2, by rw [← hn], id⟩
  | succ n ih =>
    refine (writeBit_spec (!b) s h).bind (fun _ _ => id) fun _ t ht => ?_
    have hw : Wrote s [!b] n (t.setPend n) := ⟨ht.1, ht.2.1, by rw [ht.2.2.1]; rfl, ht.2.2.2⟩
    refine (ih (t.setPend n) (hw.ready h) rfl).mono (fun _ u hu => ?_) (fun w u => hw.failed (by omega))
    rw [List.replicate_succ]
    exact hw.trans hu

theorem emitBit_spec (b : Bool) (s : State) (h : PackerReady s) :
    (emitBit b s).Ends (fun _ t => Wrote s (b :: List.replicate s.eng.pend (!b)) 0 t) (SinkFailed s) := by
  refine (writeBit_spec b s h).bind (fun _ _ => id) fun _ t ht => ?_
  have hp : t.eng.pend = s.eng.pend := by rw [ht.2.2.1]
  refine (emitOwed_spec b t.eng.pend t (ht.ready h) rfl).mono (fun _ u hu => ?_) (fun w u => ht.failed (by omega))
  rw [hp] at hu
  exact ht.trans hu

/-- On a byte boundary the packer is empty (rule R25), so there is nothing to pad. -/
theorem packer_at_boundary {s : State} (h : PackerReady s) (h0 : s.eng.onb = 0) :
    Wrote s (List.replicate ((8 - s.eng.onb.val) % 8) false) s.eng.pend s ∧ s.eng.onb = 0 ∧ s.eng.obuf = 0 := by
  have h1 := h.2
  rw [h0] at h1
  exact ⟨⟨by simp [h0], h.2, rfl, id⟩, h0, BitVec.eq_of_toNat_eq (by simpa using h1)⟩

theorem closeLoop_spec (n : Nat) (s : State) (h : PackerReady s) (hn : (8 - s.eng.onb.val) % 8 ≤ n) :
    (closeLoop n s).Ends
      (fun _ t => Wrote s (List.replicate ((8 - s.eng.onb.val) % 8) false) s.eng.pend t ∧ t.eng.onb = 0 ∧
        t.eng.obuf = 0)
      (SinkFailed s) := by
  induction n generalizing s with
  | zero => exact packer_at_boundary h (Fin.ext (by have := s.eng.onb.isLt; simp; omega))
  | succ n ih =>
    unfold closeLoop
    split
    · exact packer_at_boundary h (Fin.ext (by assumption))
    · refine (writeBit_spec false s h).bind (fun _ _ => id) fun _ t ht => ?_
      have hlen := congrArg List.length ht.1
      rw [List.length_append, outBits_length, outBits_length, List.length_singleton] at hlen
      have h1 := s.eng.onb.isLt
      have h2 := t.eng.onb.isLt
      have hpd : t.eng.pend = s.eng.pend := by rw [ht.2.2.1]
      refine (ih t (ht.ready h) (by omega)).mono (fun _ u hu => ⟨?_, hu.2⟩) (fun w u => ht.failed le_rfl)
      rw [show (8 - s.eng.onb.val) % 8 = (8 - t.eng.onb.val) % 8 + 1 by omega, List.replicate_succ, ← hpd]
      exact ht.trans hu.1

end Sys2Proof.Machine
end

