-- ==== Sys2Proof/Laws/PerInstr.lean ====
section
/-! SUPPORT. The family `EncodeFields`: a well-formed command's word carries its opcode and operands in the
fields of rule R71, one lemma per command. -/

namespace Sys2Proof.Laws

/-- The four fields of an assembled command word (rule R71). -/
theorem commandWord_fields {op sym data : Nat} (h1 : op < 2 ^ 8) (h2 : FitsSym sym) (h3 : FitsData data) :
    opField (commandWord op sym data) = op ∧ rsvField (commandWord op sym data) = 0 ∧
    symField (commandWord op sym data) = sym ∧ dataField (commandWord op sym data) = data := by
  simp only [opField, rsvField, symField, dataField, commandWord, slice, BitVec.toNat_ofNat]
  unfold FitsSym at h2
  unfold FitsData at h3
  omega

/-- The word of a well-formed command carries its opcode in `op`, 0 in `rsv`, and its operands in `sym` and
`data`, 0 where it has none (rules R71, R73, R74). -/
def EncodeFields.Statement (i : Instr) : Prop :=
  i.wf = true →
    opField (encode i) = opcodeOf i ∧ rsvField (encode i) = 0 ∧
    symField (encode i) = symOf i ∧ dataField (encode i) = dataOf i

theorem EncodeFields.reset : EncodeFields.Statement .reset := fun _ =>
  commandWord_fields (op := 0x1) (sym := 0) (data := 0) (by decide) (by decide) (by decide)

theorem EncodeFields.rdreg (r : Nat) : EncodeFields.Statement (.rdreg r) := fun h =>
  commandWord_fields (op := 0x2) (data := 0) (by decide) (of_decide_eq_true h) (by decide)

theorem EncodeFields.tinit (n : Nat) : EncodeFields.Statement (.tinit n) := fun h =>
  commandWord_fields (op := 0x10) (sym := 0) (by decide) (by decide) (of_decide_eq_true h)

theorem EncodeFields.tset (s f : Nat) : EncodeFields.Statement (.tset s f) := fun h =>
  have h := Bool.and_eq_true_iff.mp h
  commandWord_fields (op := 0x11) (by decide) (of_decide_eq_true h.1) (of_decide_eq_true h.2)

theorem EncodeFields.tinc (s : Nat) : EncodeFields.Statement (.tinc s) := fun h =>
  commandWord_fields (op := 0x12) (data := 0) (by decide) (of_decide_eq_true h) (by decide)

theorem EncodeFields.tget (s : Nat) : EncodeFields.Statement (.tget s) := fun h =>
  commandWord_fields (op := 0x13) (data := 0) (by decide) (of_decide_eq_true h) (by decide)

theorem EncodeFields.tclo (s : Nat) : EncodeFields.Statement (.tclo s) := fun h =>
  commandWord_fields (op := 0x14) (data := 0) (by decide) (of_decide_eq_true h) (by decide)

theorem EncodeFields.tchi (s : Nat) : EncodeFields.Statement (.tchi s) := fun h =>
  commandWord_fields (op := 0x15) (data := 0) (by decide) (of_decide_eq_true h) (by decide)

theorem EncodeFields.ttot : EncodeFields.Statement .ttot := fun _ =>
  commandWord_fields (op := 0x16) (sym := 0) (data := 0) (by decide) (by decide) (by decide)

theorem EncodeFields.einit : EncodeFields.Statement .einit := fun _ =>
  commandWord_fields (op := 0x20) (sym := 0) (data := 0) (by decide) (by decide) (by decide)

theorem EncodeFields.ewrite (s : Nat) : EncodeFields.Statement (.ewrite s) := fun h =>
  commandWord_fields (op := 0x21) (data := 0) (by decide) (of_decide_eq_true h) (by decide)

theorem EncodeFields.efinish : EncodeFields.Statement .efinish := fun _ =>
  commandWord_fields (op := 0x22) (sym := 0) (data := 0) (by decide) (by decide) (by decide)

theorem EncodeFields.dinit : EncodeFields.Statement .dinit := fun _ =>
  commandWord_fields (op := 0x30) (sym := 0) (data := 0) (by decide) (by decide) (by decide)

theorem EncodeFields.dread : EncodeFields.Statement .dread := fun _ =>
  commandWord_fields (op := 0x31) (sym := 0) (data := 0) (by decide) (by decide) (by decide)

end Sys2Proof.Laws
end

