-- ==== Sys2Proof/Laws/Plans.lean ====
section
/-! SUPPORT. The renormalisation "in numbers" (`shiftPlan`, `underflowPlan`, `renormPlan`): each pass of the loops of
rules R155 and R156 is one pass of the plan, and where the plan ends. -/

namespace Sys2Proof.Machine

theorem shiftPlan_settled {p : Params} {n l h : Nat} (h1 : l < p.HALF) (h2 : p.HALF ≤ h) :
    shiftPlan p n l h = ⟨0, 0, l, h⟩ := by
  cases n <;> simp [shiftPlan]
  simp [not_lt.2 h2, not_le.2 h1]

/-- A pass of the first loop (rule R155). -/
theorem shiftPlan_pass {p : Params} (hp : p.Legal) (n : Nat) {l h : Nat} (hlh : l ≤ h) (hh : h < p.FULL)
    (ha : topsAgree p l h = true) :
    shiftPlan p (n + 1) l h =
      { shiftPlan p n (2 * l % p.FULL) (2 * h % p.FULL + 1) with
        shifts := (shiftPlan p n (2 * l % p.FULL) (2 * h % p.FULL + 1)).shifts + 1 } ∧
    2 * l % p.FULL ≤ 2 * h % p.FULL + 1 ∧ 2 * h % p.FULL + 1 < p.FULL := by
  have hq := sizes_of_legal hp
  have ha := (topsAgree_iff hp (by omega) hh).1 ha
  rw [double_mod_full hp (by omega : l < p.FULL), double_mod_full hp hh]
  simp only [shiftPlan]
  by_cases hc : h < p.HALF
  · have h1 : ¬ p.HALF ≤ l := by omega
    have h2 : ¬ p.HALF ≤ h := by omega
    simp only [hc, h1, h2, if_true, if_false]
    exact ⟨trivial, by omega⟩
  · have h1 : p.HALF ≤ l := by omega
    have h2 : p.HALF ≤ h := by omega
    simp only [hc, h1, h2, if_true, if_false]
    exact ⟨trivial, by omega⟩

/-- Where the first loop stops (rule R155). -/
theorem shiftPlan_stop {p : Params} (hp : p.Legal) (n : Nat) {l h : Nat} (hlh : l ≤ h) (hh : h < p.FULL)
    (ha : ¬ topsAgree p l h = true) : shiftPlan p n l h = ⟨0, 0, l, h⟩ := by
  rw [topsAgree_iff hp (by omega) hh] at ha
  apply shiftPlan_settled <;> omega

theorem shiftPlan_shifts_le {p : Params} (n l h : Nat) : (shiftPlan p n l h).shifts ≤ n := by
  induction n generalizing l h with
  | zero => simp [shiftPlan]
  | succ n ih =>
    simp only [shiftPlan]
    split
    · simpa using ih (2 * l) (2 * h + 1)
    · split
      · simpa using ih (2 * l - p.FULL) (2 * h - p.FULL + 1)
      · simp

/-- A pass of the second loop (rule R156). -/
theorem underflowPlan_pass {p : Params} (hp : p.Legal) (n : Nat) {l h : Nat} (hl : l < p.HALF) (hh : h < p.FULL)
    (hh2 : p.HALF ≤ h) (ha : underflowing p l h = true) :
    underflowPlan p (n + 1) l h =
      { underflowPlan p n (2 * l - p.HALF) (2 * h - p.HALF + 1) with
        underflows := (underflowPlan p n (2 * l - p.HALF) (2 * h - p.HALF + 1)).underflows + 1 } ∧
    shiftIn p (l ^^^ p.QUARTER) = 2 * l - p.HALF ∧
    (shiftIn p (h ^^^ p.QUARTER) ||| 1) = 2 * h - p.HALF + 1 ∧
    2 * l - p.HALF < p.HALF ∧ 2 * h - p.HALF + 1 < p.FULL ∧ p.HALF ≤ 2 * h - p.HALF + 1 := by
  have hq := sizes_of_legal hp
  obtain ⟨a1, a2⟩ := (underflowing_iff hp hl hh hh2).1 ha
  refine ⟨?_, ?_, ?_, by omega⟩
  · simp [underflowPlan, a1, a2]
  · rw [xor_quarter_low hp a1 hl, shiftIn_eq, double_mod_full hp (by omega)]
    split <;> omega
  · rw [xor_quarter_high hp hh2 a2, shiftIn_or hp _ le_rfl, double_mod_full hp (by omega)]
    split <;> omega

/-- Where the second loop stops (rule R156). -/
theorem underflowPlan_stop {p : Params} (hp : p.Legal) (n : Nat) {l h : Nat} (hl : l < p.HALF) (hh : h < p.FULL)
    (hh2 : p.HALF ≤ h) (ha : ¬ underflowing p l h = true) : underflowPlan p n l h = ⟨0, 0, l, h⟩ := by
  rw [underflowing_iff hp hl hh hh2] at ha
  cases n <;> simp [underflowPlan]
  simpa using ha

/-- With enough passes the shifts end with the bounds' top bits apart, the range doubled once a pass (rule R155). -/
theorem shiftPlan_ends {p : Params} (hp : p.Legal) (n l h : Nat) (hlh : l ≤ h) (hh : h < p.FULL)
    (hn : p.FULL ≤ 2 ^ n * (h - l + 1)) :
    let r := shiftPlan p n l h
    r.underflows = 0 ∧ r.low < p.HALF ∧ p.HALF ≤ r.high ∧ r.high < p.FULL ∧
    r.high - r.low + 1 = 2 ^ r.shifts * (h - l + 1) := by
  have hq := sizes_of_legal hp
  induction n generalizing l h with
  | zero => simp [shiftPlan] at *; omega
  | succ n ih =>
    rw [pow_succ] at hn
    simp only [shiftPlan]
    split
    · have e : 2 * h + 1 - 2 * l + 1 = 2 * (h - l + 1) := by omega
      obtain ⟨i1, i2, i3, i4, i5⟩ := ih (2 * l) (2 * h + 1) (by omega) (by omega) (by rw [e]; linarith)
      refine ⟨i1, i2, i3, i4, ?_⟩
      rw [i5, pow_succ, e]
      ring
    · split
      · have e : 2 * h - p.FULL + 1 - (2 * l - p.FULL) + 1 = 2 * (h - l + 1) := by omega
        obtain ⟨i1, i2, i3, i4, i5⟩ := ih (2 * l - p.FULL) (2 * h - p.FULL + 1) (by omega) (by omega)
          (by rw [e]; linarith)
        refine ⟨i1, i2, i3, i4, ?_⟩
        rw [i5, pow_succ, e]
        ring
      · simp; omega

/-- With enough passes the underflow steps end with none due, the range doubled once a pass (rule R156). -/
theorem underflowPlan_ends {p : Params} (hp : p.Legal) (n l h : Nat) (hl : l < p.HALF) (hh : p.HALF ≤ h)
    (hf : h < p.FULL) (hn : p.HALF < 2 ^ n * (h - l + 1)) :
    let r := underflowPlan p n l h
    r.underflows ≤ n ∧ r.shifts = 0 ∧ r.low < p.HALF ∧ p.HALF ≤ r.high ∧ r.high < p.FULL ∧
    r.high - r.low + 1 = 2 ^ r.underflows * (h - l + 1) ∧
    ¬ (p.QUARTER ≤ r.low ∧ r.high < p.HALF + p.QUARTER) := by
  have hq := sizes_of_legal hp
  induction n generalizing l h with
  | zero => simp [underflowPlan] at *; omega
  | succ n ih =>
    rw [pow_succ] at hn
    simp only [underflowPlan]
    split
    · have e : 2 * h - p.HALF + 1 - (2 * l - p.HALF) + 1 = 2 * (h - l + 1) := by omega
      obtain ⟨i0, i1, i2, i3, i4, i5, i6⟩ := ih (2 * l - p.HALF) (2 * h - p.HALF + 1) (by omega) (by omega)
        (by omega) (by rw [e]; linarith)
      refine ⟨by simpa using i0, i1, i2, i3, i4, ?_, i6⟩
      rw [i5, pow_succ, e]
      ring
    · simp; omega

/-- The first loop's `W` passes are enough for any bounds (rule R155). -/
theorem shift_passes_enough (p : Params) (l h : Nat) : p.FULL ≤ 2 ^ p.W * (h - l + 1) :=
  Nat.le_mul_of_pos_right _ (by omega)

/-- The bounds a renormalisation ends with (rules R155, R156, R158). -/
theorem renormPlan_ends {p : Params} (hp : p.Legal) {l h : Nat} (hlh : l ≤ h) (hh : h < p.FULL) :
    let r := renormPlan p l h
    r.shifts + r.underflows ≤ 2 * p.W - 1 ∧ r.low < p.HALF ∧ p.HALF ≤ r.high ∧ r.high < p.FULL ∧
    r.high - r.low + 1 = 2 ^ (r.shifts + r.underflows) * (h - l + 1) ∧
    ¬ (p.QUARTER ≤ r.low ∧ r.high < p.HALF + p.QUARTER) := by
  have hW := hp.1
  have a0 := shiftPlan_shifts_le (p := p) p.W l h
  obtain ⟨-, a2, a3, a4, a5⟩ := shiftPlan_ends hp p.W l h hlh hh (shift_passes_enough p l h)
  have hn : p.HALF < 2 ^ (p.W - 1) * ((shiftPlan p p.W l h).high - (shiftPlan p p.W l h).low + 1) := by
    have h1 : 2 ^ (p.W - 1) * 2 ≤ 2 ^ (p.W - 1) * ((shiftPlan p p.W l h).high - (shiftPlan p p.W l h).low + 1) :=
      Nat.mul_le_mul_left _ (by omega)
    have h2 : 0 < 2 ^ (p.W - 1) := by positivity
    simp only [Params.HALF]
    omega
  obtain ⟨b1, -, b3, b4, b5, b6, b7⟩ := underflowPlan_ends hp (p.W - 1) _ _ a2 a3 a4 hn
  refine ⟨by simp only [renormPlan]; omega, b3, b4, b5, ?_, b7⟩
  simp only [renormPlan]
  rw [b6, a5, pow_add]
  ring

end Sys2Proof.Machine
end

