-- ==== Sys2Proof/Laws/Unpacker.lean ====
section
/-! SUPPORT. What the unpacker's primitives do (rules R104, R105, R181), said once for each: every end they can have,
whatever the source answers, and which bits they deliver when the source holds a list of bytes. -/

namespace Sys2Proof.Machine

/-- What reading bits may change, beside the bounds and `code` of the command that reads them. -/
def ReadFrame (s t : State) : Prop :=
  t = { s with
    eng.low := t.eng.low, eng.high := t.eng.high, eng.code := t.eng.code, eng.ibuf := t.eng.ibuf
    eng.inb := t.eng.inb, eng.eof := t.eng.eof, eng.padcnt := t.eng.padcnt, env.source := t.env.source }

/-- `ReadBitPad` writes none of the coder's registers (rule R105). -/
abbrev CoderKept (s t : State) : Prop :=
  t.eng.low = s.eng.low ∧ t.eng.high = s.eng.high ∧ t.eng.code = s.eng.code

/-- From `s`, whose source held these bytes before its `EOF`, these bits were read: they are the stream's next ones,
padded, and just the bytes needed were taken (rules R104 to R106). -/
def ReadFrom (s : State) (bytes : List Byte) (more : Option (List (Option SourceReply))) (bits : List Bool)
    (t : State) : Prop :=
  t.env.source = sourceAfter s bytes more bits.length ∧
  inBits t.eng (bytes.drop (bytesFetched s.eng bytes bits.length)) = (inBits s.eng bytes).drop bits.length ∧
  bits = padded bits.length (inBits s.eng bytes) ∧
  t.eng.padcnt = s.eng.padcnt + (bits.length - (inBits s.eng bytes).length) ∧
  t.eng.eof = (s.eng.eof || decide ((inBits s.eng bytes).length < bits.length)) ∧
  t.eng.ibuf = (s.eng.ibuf :: bytes).getD (bytesFetched s.eng bytes bits.length) 0 ∧
  t.eng.inb.val = unreadAfter s.eng bytes bits.length

/-- The pad bound is kept (rule R33 (g)). -/
abbrev PadKept (s t : State) : Prop := s.eng.padcnt ≤ s.params.PADMAX → t.eng.padcnt ≤ t.params.PADMAX

/-- From `s`, these bits were read. -/
def Reads (s : State) (bits : List Bool) (t : State) : Prop :=
  ReadFrame s t ∧ PadKept s t ∧ ∀ bytes more, SourceHolds s bytes more → ReadFrom s bytes more bits t

/-- From `s`, reading `n` bits failed (rules R205, R206): when the source holds bytes and then says `EOF`, only
because that would take more padded reads than `PADMAX`. -/
def ReadFails (s : State) (n : Nat) (w : Stop) (t : State) : Prop :=
  ReadFrame s t ∧ PadKept s t ∧
  (w = .raised (.ioError .source) ∨ w = .raised .prematureEndOfStream ∨ w = .unanswered .source) ∧
  ∀ bytes more, SourceHolds s bytes more →
    w = .raised .prematureEndOfStream ∧ t.eng.padcnt = t.params.PADMAX ∧ t.eng.eof = true ∧
    (s.eng.padcnt ≤ s.params.PADMAX →
      s.params.PADMAX < s.eng.padcnt + (n - (inBits s.eng bytes).length))

theorem inBits_of_eof {e : Engine} (bytes : List Byte) (h : e.eof = true) : inBits e bytes = [] := by
  simp [inBits, h]

theorem bytesFetched_of_eof {e : Engine} (bytes : List Byte) (n : Nat) (h : e.eof = true) :
    bytesFetched e bytes n = 0 := by
  simp [bytesFetched, h]

/-- While bits are left, `eof` is not latched. -/
theorem eof_of_inBits {e : Engine} {bytes : List Byte} {b : Bool} {bs : List Bool} (h : inBits e bytes = b :: bs) :
    e.eof = false := by
  cases he : e.eof with
  | false => rfl
  | true => simp [inBits_of_eof bytes he] at h

theorem Reads.nil (s : State) : Reads s [] s := by
  refine ⟨rfl, id, fun bytes more hb => ?_⟩
  have hj : bytesFetched s.eng bytes 0 = 0 := by
    unfold bytesFetched
    split <;> simp
  refine ⟨?_, by simp [hj], by simp [padded], by simp, by simp, by simp [hj], ?_⟩
  · unfold sourceAfter
    cases he : s.eng.eof with
    | true => simp
    | false => simpa [hj] using hb he
  · simp [unreadAfter, hj]

theorem Reads.kept {s t : State} {b : List Bool} (h : Reads s b t) (hr : s.env.rstIn = none) :
    t.env.rstIn = none ∧ t.params = s.params := by
  rw [h.1]
  exact ⟨hr, rfl⟩

/-- What is held after a read is the rest of what was held before it. -/
theorem ReadFrom.holds {s t : State} {bytes : List Byte} {more : Option (List (Option SourceReply))} {b : List Bool}
    (h : ReadFrom s bytes more b t) : SourceHolds t (bytes.drop (bytesFetched s.eng bytes b.length)) more := by
  obtain ⟨h1, -, -, -, h5, -⟩ := h
  intro he
  rw [he] at h5
  obtain ⟨k1, k2⟩ := Bool.or_eq_false_iff.1 h5.symm
  rw [h1, sourceAfter, k1]
  simp only [Bool.false_eq_true, if_false]
  rw [if_neg (of_decide_eq_false k2)]

/-- Reads in a row are one read. -/
theorem ReadFrom.trans {s t u : State} {bytes : List Byte} {more : Option (List (Option SourceReply))}
    {b c : List Bool} (h : ReadFrom s bytes more b t)
    (g : ReadFrom t (bytes.drop (bytesFetched s.eng bytes b.length)) more c u) :
    ReadFrom s bytes more (b ++ c) u := by
  obtain ⟨a1, a2, a3, a4, a5, a6, a7⟩ := h
  obtain ⟨b1, b2, b3, b4, b5, b6, b7⟩ := g
  have hpc : padded (b ++ c).length (inBits s.eng bytes) = b ++ c := by
    rw [List.length_append, padded_add, ← a3, ← a2, ← b3]
  cases he : s.eng.eof with
  | true =>
    have ht : t.eng.eof = true := by rw [a5, he]; rfl
    have hu : u.eng.eof = true := by rw [b5, ht]; rfl
    rw [bytesFetched_of_eof _ _ he] at a6 b1 b2 b4 b5 b6 b7
    rw [bytesFetched_of_eof _ _ ht] at b2 b6
    rw [inBits_of_eof _ ht] at b4
    rw [sourceAfter, if_pos he] at a1
    rw [sourceAfter, if_pos ht] at b1
    rw [unreadAfter, if_pos he] at a7
    rw [unreadAfter, if_pos ht] at b7
    rw [inBits_of_eof _ he] at a4
    refine ⟨by rw [sourceAfter, if_pos he, b1, a1], ?_, hpc.symm, ?_, by rw [hu, he]; rfl, ?_,
      by rw [unreadAfter, if_pos he, b7, a7]⟩
    · rw [inBits_of_eof _ hu, inBits_of_eof _ he, List.drop_nil]
    · rw [b4, a4, inBits_of_eof _ he]
      simp
      omega
    · rw [bytesFetched_of_eof _ _ he, b6, List.getD_cons_zero, a6]
  | false =>
    have hl := inBits_length bytes he
    have hd : inBits t.eng (bytes.drop (bytesFetched s.eng bytes b.length)) = (inBits s.eng bytes).drop b.length := a2
    rw [hd] at b2 b3 b4 b5
    have hj : bytesFetched s.eng bytes (b ++ c).length =
        bytesFetched s.eng bytes b.length +
          bytesFetched t.eng (bytes.drop (bytesFetched s.eng bytes b.length)) c.length := by
      simp only [bytesFetched, unreadAfter, he, a5, hl, Bool.false_or, Bool.false_eq_true, if_false,
        List.length_append, List.length_drop, decide_eq_true_eq] at a7 ⊢
      split <;> omega
    have hjl : bytesFetched s.eng bytes b.length ≤ bytes.length := by
      simp only [bytesFetched, he, Bool.false_eq_true, if_false]
      omega
    refine ⟨?_, ?_, hpc.symm, ?_, ?_, ?_, ?_⟩
    · rw [b1]
      rw [sourceAfter, sourceAfter, hj]
      simp only [he, a5, hd, a1, sourceAfter, Bool.false_or, Bool.false_eq_true, if_false, decide_eq_true_eq,
        List.length_append, List.length_drop, List.drop_drop]
      split
      · rw [if_pos (by omega)]
      · split
        · rw [if_pos (by omega)]
        · rw [if_neg (by omega)]
    · rw [hj, ← List.drop_drop, b2, List.drop_drop, List.length_append]
    · rw [b4, a4]
      simp
      omega
    · rw [b5, a5, Bool.or_assoc]
      congr 1
      rw [Bool.eq_iff_iff]
      simp
      omega
    · rw [b6, a6, hj]
      cases hk : bytesFetched t.eng (bytes.drop (bytesFetched s.eng bytes b.length)) c.length with
      | zero => rfl
      | succ k => simp [← Nat.add_assoc]
    · rw [b7]
      simp only [unreadAfter, bytesFetched, he, a5, hl, Bool.false_or, Bool.false_eq_true, if_false,
        List.length_append, List.length_drop, decide_eq_true_eq] at a7 ⊢
      split <;> omega

theorem Reads.trans {s t u : State} {b c : List Bool} (h : Reads s b t) (g : Reads t c u) : Reads s (b ++ c) u := by
  obtain ⟨h1, h2, h3⟩ := h
  obtain ⟨g1, g2, g3⟩ := g
  refine ⟨by unfold ReadFrame at *; rw [g1, h1], fun h => g2 (h2 h), fun bytes more hb => ?_⟩
  have h := h3 bytes more hb
  exact h.trans (g3 _ _ h.holds)

theorem Reads.fails {s t u : State} {b : List Bool} {n : Nat} {w : Stop} (h : Reads s b t) (g : ReadFails t n w u) :
    ReadFails s (b.length + n) w u := by
  obtain ⟨h1, h2, h3⟩ := h
  obtain ⟨g1, g2, g3, g4⟩ := g
  have hp : t.params = s.params := by rw [h1]
  refine ⟨by unfold ReadFrame at *; rw [g1, h1], fun h => g2 (h2 h), g3, fun bytes more hb => ?_⟩
  have h := h3 bytes more hb
  obtain ⟨c1, c2, c3, c4⟩ := g4 _ _ h.holds
  obtain ⟨-, a2, -, a4, -⟩ := h
  refine ⟨c1, c2, c3, fun h => ?_⟩
  have := c4 (h2 h)
  rw [a2, a4, hp] at this
  simp at this
  omega

theorem ReadFails.mono {s u : State} {n m : Nat} {w : Stop} (h : ReadFails s n w u) (hn : n ≤ m) :
    ReadFails s m w u := by
  obtain ⟨g1, g2, g3, g4⟩ := h
  refine ⟨g1, g2, g3, fun bytes more hb => ?_⟩
  obtain ⟨c1, c2, c3, c4⟩ := g4 bytes more hb
  exact ⟨c1, c2, c3, fun h => by have := c4 h; omega⟩

/-- `ReadBit` while there are bits to come. -/
theorem readBit_of_cons {s : State} {bytes : List Byte} {more : Option (List (Option SourceReply))} {b : Bool}
    {bs : List Bool} (hr : s.env.rstIn = none) (hs : SourceHolds s bytes more) (hb : inBits s.eng bytes = b :: bs) :
    ∃ t, readBit s = .done (some b) t ∧
      t = { s with
        eng.ibuf := (s.eng.ibuf :: bytes).getD (bytesFetched s.eng bytes 1) 0
        eng.inb := t.eng.inb
        env.source := streamOf (bytes.drop (bytesFetched s.eng bytes 1)) more } ∧
      t.eng.inb.val = unreadAfter s.eng bytes 1 ∧
      inBits t.eng (bytes.drop (bytesFetched s.eng bytes 1)) = bs ∧
      bytesFetched s.eng bytes 1 = if s.eng.inb = 0 then 1 else 0 := by
  have he := eof_of_inBits hb
  have hs := hs he
  simp only [inBits, he] at hb
  unfold readBit
  simp only [bytesFetched, unreadAfter, he, Bool.false_eq_true, if_false] at hb ⊢
  by_cases h0 : s.eng.inb = 0
  · simp only [h0, Fin.val_zero, if_true, bitsOf_zero, List.nil_append] at hb ⊢
    match bytes with
    | [] => simp at hb
    | x :: xs =>
      have hd : rstDue s = false := by simp [rstDue, hr]
      have hm : min ((1 - 0 + 7) / 8) (x :: xs).length = 1 := by simp
      simp only [List.flatMap_cons, byteBits, bitsOf_succ 7, List.cons_append] at hb
      obtain ⟨hb1, hb2⟩ := List.cons.inj hb
      simp only [hm, sourceNext, hd, hs, streamOf, answersOf, List.map_cons, List.cons_append]
      refine ⟨_, congrArg₂ Run.done (congrArg some ?_) rfl, ?_, by simp, ?_, trivial⟩
      · simpa [BitVec.getLsbD, BitVec.getElem_eq_testBit_toNat] using hb1
      · simp [State.setUnpacker, State.setEnv, Env.transacted, hr, he]
      · simp [inBits, he]
        exact hb2
  · have h1 : s.eng.inb.val ≠ 0 := fun h => h0 (Fin.ext h)
    have h9 := s.eng.inb.isLt
    have hm : min ((1 - s.eng.inb.val + 7) / 8) bytes.length = 0 := by omega
    rw [bitsOf_pos _ (by omega), List.cons_append] at hb
    obtain ⟨hb1, hb2⟩ := List.cons.inj hb
    simp only [h1, h0, hm, if_false]
    refine ⟨_, congrArg₂ Run.done (congrArg some hb1) rfl, ?_, by simp, ?_, trivial⟩
    · simp only [List.drop_zero, ← hs]
      simp [State.setUnpacker, he]
    · simp [inBits, he]
      exact hb2

/-- `ReadBit` past the end. -/
theorem readBit_of_nil {s : State} {bytes : List Byte} {more : Option (List (Option SourceReply))}
    (hr : s.env.rstIn = none) (hs : SourceHolds s bytes more) (hb : inBits s.eng bytes = []) :
    readBit s = .done none
      { s with eng.eof := true, env.source := if s.eng.eof then s.env.source else more.getD [] } := by
  unfold readBit
  split
  · rename_i h
    congr 1
    cases s with | mk p e v f => cases e; cases v; simp_all
  · rename_i he
    have he : s.eng.eof = false := by simpa using he
    have hs := hs he
    have hlen := inBits_length bytes he
    rw [hb] at hlen
    have h0 : s.eng.inb.val = 0 := by simp at hlen; omega
    obtain rfl : bytes = [] := List.eq_nil_of_length_eq_zero (by simp at hlen; omega)
    have hd : rstDue s = false := by simp [rstDue, hr]
    cases more <;> simp [h0, sourceNext, hd, hs, streamOf, answersOf, State.setEof, State.setEnv,
      Env.transacted, hr]

/-- What `ReadBitPad` may change, whatever the source answers. -/
theorem readBitPad_frame (s : State) (hr : s.env.rstIn = none) :
    (readBitPad s).Ends (fun _ t => ReadFrame s t ∧ PadKept s t ∧ CoderKept s t)
      (fun w t => ReadFrame s t ∧ PadKept s t ∧ CoderKept s t ∧
        (w = .raised (.ioError .source) ∨ w = .raised .prematureEndOfStream ∨ w = .unanswered .source)) := by
  have hread : (readBit s).Ends (fun _ t => ReadFrame s t ∧ t.eng.padcnt = s.eng.padcnt ∧ CoderKept s t)
      (fun w t => ReadFrame s t ∧ t.eng.padcnt = s.eng.padcnt ∧ CoderKept s t ∧
        (w = .raised (.ioError .source) ∨ w = .unanswered .source)) := by
    unfold readBit
    split
    · exact ⟨rfl, rfl, rfl, rfl, rfl⟩
    · split
      · simp only [sourceNext, rstDue, hr]
        rw [if_neg (by simp)]
        have htr : s.env.transacted = s.env := by
          cases s with | mk p e v f => cases v; simp_all [Env.transacted]
        rw [htr]
        match s.env.source with
        | [] => exact ⟨rfl, rfl, rfl, rfl, rfl⟩
        | some (.byte b) :: r => exact ⟨rfl, rfl, rfl, rfl, rfl⟩
        | some .eof :: r => exact ⟨rfl, rfl, rfl, rfl, rfl⟩
        | some .err :: r => exact ⟨rfl, rfl, ⟨rfl, rfl, rfl⟩, .inl rfl⟩
        | none :: r =>
          unfold unanswered
          simp only
          rw [if_neg (by simp [hr])]
          exact ⟨rfl, rfl, ⟨rfl, rfl, rfl⟩, .inr rfl⟩
      · exact ⟨rfl, rfl, rfl, rfl, rfl⟩
  refine hread.bind (fun w t ht => ?_) fun r t ht => ?_
  · obtain ⟨h1, h2, h3, h4⟩ := ht
    have hp : t.params = s.params := by rw [h1]
    exact ⟨h1, fun h => by rwa [h2, hp], h3, by rcases h4 with h | h <;> simp [h]⟩
  · obtain ⟨h1, h2, h3⟩ := ht
    have hp : t.params = s.params := by rw [h1]
    cases r with
    | some b => exact ⟨h1, fun h => by rwa [h2, hp], h3⟩
    | none =>
      dsimp only
      split
      · exact ⟨h1, fun _ => by simp [*], h3, .inr (.inl rfl)⟩
      · rename_i he
        refine ⟨?_, fun h => ?_, h3⟩
        · unfold ReadFrame at *
          rw [h1]
          rfl
        · simp only [State.setPadcnt_eng, State.setPadcnt_params]
          rw [hp] at he ⊢
          omega

/-- `ReadBitPad` when the source holds these bytes before its `EOF`. -/
theorem readBitPad_from {s : State} {bytes : List Byte} {more : Option (List (Option SourceReply))}
    (hr : s.env.rstIn = none) (hs : SourceHolds s bytes more) :
    (readBitPad s).Ends (fun b t => ReadFrom s bytes more [b] t)
      (fun w t => w = .raised .prematureEndOfStream ∧ t.eng.padcnt = t.params.PADMAX ∧ t.eng.eof = true ∧
        (s.eng.padcnt ≤ s.params.PADMAX →
          s.params.PADMAX < s.eng.padcnt + (1 - (inBits s.eng bytes).length))) := by
  match hi : inBits s.eng bytes with
  | b :: bs =>
    have he := eof_of_inBits hi
    obtain ⟨t, h1, h2, h3, h4, -⟩ := readBit_of_cons hr hs hi
    simp only [readBitPad, h1]
    refine ⟨?_, by simp [h4, hi], by simp [padded, hi], by rw [h2]; simp [hi], by rw [h2]; simp [hi], by rw [h2]; rfl,
      h3⟩
    rw [h2]
    simp [sourceAfter, he, hi]
  | [] =>
    have hj : bytesFetched s.eng bytes 1 = 0 := by
      unfold bytesFetched
      cases he : s.eng.eof with
      | true => rfl
      | false =>
        have hlen := inBits_length bytes he
        rw [hi] at hlen
        simp at hlen ⊢
        right
        exact List.eq_nil_of_length_eq_zero (by omega)
    simp only [readBitPad, readBit_of_nil hr hs hi, Run.bind_done]
    by_cases hp : s.eng.padcnt = s.params.PADMAX
    · rw [if_pos (by exact hp)]
      exact ⟨rfl, hp, rfl, fun h => by simp; omega⟩
    · rw [if_neg (by exact hp)]
      refine ⟨by simp [sourceAfter, hi], by rw [hi]; simp [inBits], by simp [padded, hi], by simp [hi], by simp [hi],
        by simp [hj], ?_⟩
      simp only [List.length_singleton, unreadAfter, hj]
      cases he : s.eng.eof with
      | true => simp
      | false =>
        have hlen := inBits_length bytes he
        rw [hi] at hlen
        simp at hlen ⊢
        omega

theorem readBitPad_spec (s : State) (hr : s.env.rstIn = none) :
    (readBitPad s).Ends (fun b t => Reads s [b] t ∧ CoderKept s t)
      (fun w t => ReadFails s 1 w t ∧ CoderKept s t) := by
  have hf := readBitPad_frame s hr
  have hs := fun bytes more hb => readBitPad_from (s := s) (bytes := bytes) (more := more) hr hb
  cases hq : readBitPad s with
  | done b t =>
    rw [hq] at hf hs
    exact ⟨⟨hf.1, hf.2.1, hs⟩, hf.2.2⟩
  | stop w t =>
    rw [hq] at hf hs
    exact ⟨⟨hf.1, hf.2.1, hf.2.2.2, hs⟩, hf.2.2.1⟩

/-- `code <- c OR ReadBitPad()`. -/
theorem pullBit_spec (c : Nat) (s : State) (hr : s.env.rstIn = none) :
    (pullBit c s).Ends
      (fun _ t => ∃ b, Reads s [b] t ∧ t.eng.low = s.eng.low ∧ t.eng.high = s.eng.high ∧
        t.eng.code = c ||| b.toNat)
      (fun w t => ReadFails s 1 w t ∧ CoderKept s t) := by
  refine (readBitPad_spec s hr).bind (fun _ _ => id) fun b t ht => ?_
  refine ⟨b, ⟨?_, ht.1.2.1, ht.1.2.2⟩, ht.2.1, ht.2.2.1, rfl⟩
  have := ht.1.1
  unfold ReadFrame at *
  rw [this]
  rfl

/-- `DINIT`'s loop (rule R181). -/
theorem fillCode_spec (n : Nat) (s : State) (hp : s.params.Legal) (hr : s.env.rstIn = none)
    (hc : s.eng.code < s.params.FULL) :
    (fillCode n s).Ends
      (fun _ t => ∃ bits, bits.length = n ∧ Reads s bits t ∧ t.eng.low = s.eng.low ∧ t.eng.high = s.eng.high ∧
        t.eng.code = (s.eng.code * 2 ^ n + bitsValue bits) % s.params.FULL)
      (fun w t => ReadFails s n w t ∧ t.eng.low = s.eng.low ∧ t.eng.high = s.eng.high ∧
        t.eng.code < s.params.FULL) := by
  have hq := sizes_of_legal hp
  induction n generalizing s with
  | zero => exact ⟨[], rfl, Reads.nil s, rfl, rfl, by simp [bitsValue, Nat.mod_eq_of_lt hc]⟩
  | succ n ih =>
    refine (pullBit_spec _ s hr).bind (fun w t ht => ?_) fun _ t ht => ?_
    · exact ⟨ht.1.mono (by omega), ht.2.1, ht.2.2.1, by rw [ht.2.2.2]; exact hc⟩
    · obtain ⟨b, h1, h2, h3, h4⟩ := ht
      obtain ⟨k1, k2⟩ := h1.kept hr
      have hb : b.toNat ≤ 1 := by cases b <;> simp
      rw [shiftIn_or hp _ hb] at h4
      have hlt : t.eng.code < t.params.FULL := by
        rw [h4, k2, double_mod_full hp hc]
        split <;> omega
      refine (ih t (by rwa [k2]) k1 hlt (by rwa [k2])).mono (fun _ u hu => ?_) (fun w u hu => ?_)
      · obtain ⟨bits, l1, l2, l3, l4, l5⟩ := hu
        refine ⟨b :: bits, by simp [l1], h1.trans l2, by rw [l3, h2], by rw [l4, h3], ?_⟩
        rw [l5, h4, bitsValue_cons, l1, k2, Nat.add_mod, Nat.mul_mod]
        conv_rhs =>
          rw [show s.eng.code * 2 ^ (n + 1) + (b.toNat * 2 ^ n + bitsValue bits) =
            (2 * s.eng.code + b.toNat) * 2 ^ n + bitsValue bits by ring, Nat.add_mod, Nat.mul_mod]
        congr 3
        rw [Nat.add_mod, Nat.mod_mod, ← Nat.add_mod]
      · have := h1.fails hu.1
        exact ⟨this.mono (by simp; omega), by rw [hu.2.1, h2], by rw [hu.2.2.1, h3], by rw [← k2]; exact hu.2.2.2⟩

end Sys2Proof.Machine
end

