-- ==== Sys2Proof/Laws/RenormDecode.lean ====
section
/-! SUPPORT. What `Renorm(DECODE)` does (rules R155, R156, R185): the plan's bounds, `code` moved with them and one bit
of the stream taken in a step, so that it stays between them; or a read that fails. -/

namespace Sys2Proof.Machine

/-- From `s`, a renormalisation of `n` steps led to the bounds `l` and `h`, with `code` between them. -/
def Followed (s : State) (l h n : Nat) (t : State) : Prop :=
  ∃ bits, bits.length = n ∧ Reads s bits t ∧ t.eng.low = l ∧ t.eng.high = h ∧
    t.eng.code = l + 2 ^ n * (s.eng.code - s.eng.low) + bitsValue bits ∧ l ≤ t.eng.code ∧ t.eng.code ≤ h

/-- A renormalisation of `n` steps could not read its bits. -/
def FollowFailed (s : State) (n : Nat) (w : Stop) (t : State) : Prop :=
  ReadFails s n w t ∧ t.eng.low < s.params.FULL ∧ t.eng.high < s.params.FULL ∧ t.eng.code < s.params.FULL

/-- No step at all. -/
theorem Followed.none {s : State} (hl : s.eng.low ≤ s.eng.code) (hc : s.eng.code ≤ s.eng.high) :
    Followed s s.eng.low s.eng.high 0 s :=
  ⟨[], rfl, Reads.nil s, rfl, rfl, by simp [bitsValue]; omega, hl, hc⟩

/-- One step, which read `b` and doubled `code`'s distance to `low`, and the steps after it. -/
theorem Followed.after {s t u : State} {b : Bool} {l h n : Nat} (h1 : Reads s [b] t)
    (hd : t.eng.code - t.eng.low = 2 * (s.eng.code - s.eng.low) + b.toNat) (H : Followed t l h n u) :
    Followed s l h (n + 1) u := by
  obtain ⟨bits, l1, l2, l3, l4, l5, l6⟩ := H
  refine ⟨b :: bits, by simp [l1], h1.trans l2, l3, l4, ?_, l6⟩
  rw [l5, bitsValue_cons, l1, hd, pow_succ]
  ring

theorem FollowFailed.after {s t u : State} {b : Bool} {n : Nat} {w : Stop} (hr : s.env.rstIn = Option.none)
    (h1 : Reads s [b] t) (H : FollowFailed t n w u) : FollowFailed s (n + 1) w u := by
  obtain ⟨g1, g2⟩ := H
  rw [(h1.kept hr).2] at g2
  exact ⟨(h1.fails g1).mono (by simp; omega), g2⟩

/-- A step of either loop: new bounds, and `code` taking in a bit. -/
theorem stepWith_spec {s : State} (hp : s.params.Legal) (hr : s.env.rstIn = Option.none) (c l h : Nat)
    (f : State → State) (hf : ∀ t, t.eng.low = s.eng.low → t.eng.high = s.eng.high → f t = t.setBounds l h)
    (hl : s.eng.low < s.params.FULL) (hh : s.eng.high < s.params.FULL) (hc : s.eng.code < s.params.FULL) :
    ((pullBit (shiftIn s.params c) s).bind fun _ t => .done () (f t)).Ends
      (fun _ t => ∃ b, Reads s [b] t ∧ t.eng.low = l ∧ t.eng.high = h ∧
        t.eng.code = 2 * c % s.params.FULL + b.toNat)
      (FollowFailed s 1) := by
  refine (pullBit_spec _ s hr).bind (fun w t ht => ?_) fun _ t ht => ?_
  · obtain ⟨g1, g2, g3, g4⟩ := ht
    exact ⟨g1, by omega, by omega, by omega⟩
  · obtain ⟨b, k1, k2, k3, k4⟩ := ht
    rw [shiftIn_or hp _ (by cases b <;> simp)] at k4
    rw [hf t k2 k3]
    refine ⟨b, ⟨?_, k1.2.1, k1.2.2⟩, rfl, rfl, k4⟩
    have := k1.1
    unfold ReadFrame at *
    rw [this]
    rfl

/-- The first loop (rule R155). -/
theorem shiftLoop_decode_spec (n : Nat) (s : State) (hp : s.params.Legal) (hr : s.env.rstIn = Option.none)
    (hl : s.eng.low ≤ s.eng.code) (hc : s.eng.code ≤ s.eng.high) (hh : s.eng.high < s.params.FULL) :
    let r := shiftPlan s.params n s.eng.low s.eng.high
    (shiftLoop .decode n s).Ends (fun _ t => Followed s r.low r.high r.shifts t) (FollowFailed s r.shifts) := by
  have hq := sizes_of_legal hp
  induction n generalizing s with
  | zero => exact Followed.none hl hc
  | succ n ih =>
    dsimp only
    unfold shiftLoop
    by_cases ha : topsAgree s.params s.eng.low s.eng.high = true
    · rw [if_pos ha]
      obtain ⟨h1, h2, h3⟩ := shiftPlan_pass hp n (by omega) hh ha
      have ht := (topsAgree_iff hp (by omega) hh).1 ha
      have v1 := double_mod_full hp (by omega : s.eng.low < s.params.FULL)
      have v2 := double_mod_full hp (by omega : s.eng.code < s.params.FULL)
      have v3 := double_mod_full hp hh
      rw [h1]
      refine (stepWith_spec hp hr s.eng.code (2 * s.eng.low % s.params.FULL) (2 * s.eng.high % s.params.FULL + 1) _
        (fun t k2 k3 => by rw [shiftIn_or hp _ le_rfl, shiftIn_eq, k2, k3]) (by omega) hh (by omega)).bind
        (fun w t ht => ⟨ht.1.mono (by dsimp only; omega), ht.2⟩) fun _ t ht => ?_
      obtain ⟨b, k1, k2, k3, k4⟩ := ht
      obtain ⟨m1, m2⟩ := k1.kept hr
      have hb : b.toNat ≤ 1 := by cases b <;> simp
      have c1 : t.eng.low ≤ t.eng.code := by rw [k2, k4, v1, v2]; split <;> split <;> omega
      have c2 : t.eng.code ≤ t.eng.high := by rw [k3, k4, v3, v2]; split <;> split <;> omega
      have c3 : t.eng.code - t.eng.low = 2 * (s.eng.code - s.eng.low) + b.toNat := by
        rw [k2, k4, v1, v2]; split <;> split <;> omega
      have ih := ih t (by rwa [m2]) m1 c1 c2 (by rw [k3, m2]; exact h3) (by rwa [m2])
      rw [m2, k2, k3] at ih
      exact ih.mono (fun _ u => Followed.after k1 c3) (fun w u => FollowFailed.after hr k1)
    · rw [if_neg ha, shiftPlan_stop hp _ (by omega) hh ha]
      exact Followed.none hl hc

/-- The second loop (rule R156). -/
theorem underflowLoop_decode_spec (n : Nat) (s : State) (hp : s.params.Legal) (hr : s.env.rstIn = Option.none)
    (hlo : s.eng.low < s.params.HALF) (hhi : s.params.HALF ≤ s.eng.high) (hl : s.eng.low ≤ s.eng.code)
    (hc : s.eng.code ≤ s.eng.high) (hh : s.eng.high < s.params.FULL) :
    let r := underflowPlan s.params n s.eng.low s.eng.high
    (underflowLoop .decode n s).Ends (fun _ t => Followed s r.low r.high r.underflows t)
      (FollowFailed s r.underflows) := by
  have hq := sizes_of_legal hp
  induction n generalizing s with
  | zero => exact Followed.none hl hc
  | succ n ih =>
    dsimp only
    unfold underflowLoop
    by_cases ha : underflowing s.params s.eng.low s.eng.high = true
    · rw [if_pos ha]
      obtain ⟨h1, h2, h3, h4, h5, h6⟩ := underflowPlan_pass hp n hlo hh hhi ha
      obtain ⟨a1, a2⟩ := (underflowing_iff hp hlo hh hhi).1 ha
      have hx : 2 * (s.eng.code ^^^ s.params.QUARTER) % s.params.FULL = 2 * s.eng.code - s.params.HALF := by
        by_cases hcl : s.eng.code < s.params.HALF
        · rw [xor_quarter_low hp (by omega) hcl, double_mod_full hp (by omega)]; split <;> omega
        · rw [xor_quarter_high hp (by omega) (by omega), double_mod_full hp (by omega)]; split <;> omega
      rw [h1]
      refine (stepWith_spec hp hr (s.eng.code ^^^ s.params.QUARTER) (2 * s.eng.low - s.params.HALF)
        (2 * s.eng.high - s.params.HALF + 1) _
        (fun t k2 k3 => by rw [k2, k3, h2, h3]) (by omega) hh (by omega)).bind
        (fun w t ht => ⟨ht.1.mono (by dsimp only; omega), ht.2⟩) fun _ t ht => ?_
      obtain ⟨b, k1, k2, k3, k4⟩ := ht
      obtain ⟨m1, m2⟩ := k1.kept hr
      have hb : b.toNat ≤ 1 := by cases b <;> simp
      rw [hx] at k4
      have ih := ih t (by rwa [m2]) m1 (by rw [k2, m2]; exact h4) (by rw [k3, m2]; exact h6) (by omega) (by omega)
        (by rw [k3, m2]; exact h5) (by rwa [m2])
      rw [m2, k2, k3] at ih
      exact ih.mono (fun _ u => Followed.after k1 (by omega)) (fun w u => FollowFailed.after hr k1)
    · rw [if_neg ha, underflowPlan_stop hp _ hlo hh hhi ha]
      exact Followed.none hl hc

/-- `Renorm(DECODE)`. -/
theorem renorm_decode_spec (s : State) (hp : s.params.Legal) (hr : s.env.rstIn = Option.none)
    (hl : s.eng.low ≤ s.eng.code) (hc : s.eng.code ≤ s.eng.high) (hh : s.eng.high < s.params.FULL) :
    let r := renormPlan s.params s.eng.low s.eng.high
    (renorm .decode s).Ends (fun _ t => Followed s r.low r.high (r.shifts + r.underflows) t)
      (FollowFailed s (r.shifts + r.underflows)) := by
  obtain ⟨-, a2, a3, a4, -⟩ := shiftPlan_ends hp s.params.W s.eng.low s.eng.high (by omega) hh
    (shift_passes_enough _ _ _)
  refine (shiftLoop_decode_spec s.params.W s hp hr hl hc hh).bind
    (fun w t ht => ⟨ht.1.mono (by simp [renormPlan]), ht.2⟩) fun _ t ht => ?_
  obtain ⟨bits, e0, e1, e2, e3, e4, e5, e6⟩ := ht
  obtain ⟨m1, m2⟩ := e1.kept hr
  have hu := underflowLoop_decode_spec (t.params.W - 1) t (by rwa [m2]) m1 (by rwa [e2, m2]) (by rwa [e3, m2])
    (by rwa [e2]) (by rwa [e3]) (by rwa [e3, m2])
  rw [m2, e2, e3] at hu
  rw [m2]
  refine hu.mono (fun _ u hu => ?_) (fun w u hu => ?_)
  · obtain ⟨bits', l0, l1, l2, l3, l4, l5⟩ := hu
    refine ⟨bits ++ bits', by simp [e0, l0, renormPlan], e1.trans l1, l2, l3, ?_, l5⟩
    have hd : t.eng.code - t.eng.low =
        2 ^ (shiftPlan s.params s.params.W s.eng.low s.eng.high).shifts * (s.eng.code - s.eng.low) +
          bitsValue bits := by omega
    rw [l4, bitsValue_append, l0, hd]
    simp only [renormPlan]
    rw [pow_add]
    ring
  · obtain ⟨g1, g2⟩ := hu
    rw [m2] at g2
    exact ⟨(e1.fails g1).mono (by simp [e0, renormPlan]), g2⟩

end Sys2Proof.Machine
end

