-- ==== Sys2Proof/Laws/RenormEncode.lean ====
section
/-! SUPPORT. What `Renorm(ENCODE)` does (rules R155, R156): the plan's bounds, the settled bits written with what was
owed paid after the first, the underflow steps owed; or a failing sink; or `PendOverflow`. -/

namespace Sys2Proof.Machine

/-- From `s`, the bounds became `l` and `h`, these bits were written and `q` bits are owed; nothing else changed. -/
def Coded (s : State) (l h : Nat) (bits : List Bool) (q : Nat) (t : State) : Prop :=
  outBits t = outBits s ++ bits ∧ t.eng.obuf.toNat < 2 ^ t.eng.onb.val ∧
  t = { s with
    eng.low := l, eng.high := h, eng.pend := q, eng.obuf := t.eng.obuf, eng.onb := t.eng.onb
    env.sink := t.env.sink, env.sinkAnswers := t.env.sinkAnswers } ∧
  (SinkAccepts s → SinkAccepts t)

/-- What an encoder's renormalisation that stopped early may have changed, every register within its width. -/
def CodedPart (s t : State) : Prop :=
  t.eng.obuf.toNat < 2 ^ t.eng.onb.val ∧ t.eng.low < s.params.FULL ∧ t.eng.high < s.params.FULL ∧
  t = { s with
    eng.low := t.eng.low, eng.high := t.eng.high, eng.pend := t.eng.pend, eng.obuf := t.eng.obuf
    eng.onb := t.eng.onb, env.sink := t.env.sink, env.sinkAnswers := t.env.sinkAnswers }

/-- The sink did not take a byte (rule R206). -/
def CodingFailed (s : State) (w : Stop) (t : State) : Prop :=
  ¬ SinkAccepts s ∧ (w = .raised (.ioError .sink) ∨ w = .unanswered .sink) ∧ t.eng.pend ≤ s.eng.pend ∧
  CodedPart s t

/-- The pending counter was at its limit (rule R208). -/
def PendFull (s : State) (need : Nat) (w : Stop) (t : State) : Prop :=
  w = .raised .pendOverflow ∧ s.params.PENDMAX < need ∧ t.eng.pend = s.params.PENDMAX ∧ CodedPart s t

/-- How many bits a renormalisation leaves owed. -/
def owedAfter (s : State) (r : RenormPlan) : Nat := (if r.shifts = 0 then s.eng.pend else 0) + r.underflows

theorem Coded.trans {s t u : State} {l h l' h' : Nat} {b c : List Bool} {q r : Nat} (H : Coded s l h b q t)
    (G : Coded t l' h' c r u) : Coded s l' h' (b ++ c) r u := by
  obtain ⟨h1, -, h3, h4⟩ := H
  obtain ⟨g1, g2, g3, g4⟩ := G
  refine ⟨by rw [g1, h1, List.append_assoc], g2, ?_, g4 ∘ h4⟩
  rw [g3, h3]

theorem Coded.registers {s t : State} {l h : Nat} {b : List Bool} {q : Nat} (H : Coded s l h b q t) :
    t.eng.low = l ∧ t.eng.high = h ∧ t.eng.pend = q ∧ t.params = s.params := by
  rw [H.2.2.1]
  simp

theorem Coded.ready {s t : State} {l h : Nat} {b : List Bool} {q : Nat} (H : Coded s l h b q t)
    (hs : PackerReady s) : PackerReady t := ⟨by rw [H.2.2.1]; exact hs.1, H.2.1⟩

theorem Coded.part {s t u : State} {l h : Nat} {b : List Bool} {q : Nat} (H : Coded s l h b q t)
    (G : CodedPart t u) : CodedPart s u := by
  obtain ⟨g1, g2, g3, g4⟩ := G
  rw [H.registers.2.2.2] at g2 g3
  refine ⟨g1, g2, g3, ?_⟩
  rw [g4, H.2.2.1]

theorem Coded.failed {s t u : State} {l h : Nat} {b : List Bool} {q : Nat} {w : Stop} (H : Coded s l h b q t)
    (hq : q ≤ s.eng.pend) (G : CodingFailed t w u) : CodingFailed s w u := by
  obtain ⟨g1, g2, g3, g4⟩ := G
  have := H.registers.2.2.1
  exact ⟨fun h => g1 (H.2.2.2 h), g2, by omega, H.part g4⟩

/-- A shift (rule R155). -/
theorem shiftStep_encode_spec (s : State) (hp : s.params.Legal) (h : PackerReady s)
    (hl : s.eng.low < s.params.FULL) (hh : s.eng.high < s.params.FULL) :
    (shiftStep .encode s).Ends
      (fun _ t => Coded s (2 * s.eng.low % s.params.FULL) (2 * s.eng.high % s.params.FULL + 1)
        (withOwed s.eng.pend [decide (s.params.HALF ≤ s.eng.low)]) 0 t)
      (CodingFailed s) := by
  refine (emitBit_spec (topBit s.params s.eng.low) s h).bind (fun w t ht => ?_) fun _ t ht => ?_
  · obtain ⟨f1, f2, f3, f4, f5⟩ := ht
    refine ⟨f1, f2, f4, f3, ?_, ?_, ?_⟩ <;> rw [f5]
    · exact hl
    · exact hh
  · obtain ⟨w1, w2, w3, w4⟩ := ht
    have hl' : t.eng.low = s.eng.low := by rw [w3]
    have hh' : t.eng.high = s.eng.high := by rw [w3]
    refine ⟨?_, w2, ?_, w4⟩
    · show outBits t = _
      rw [w1, topBit_eq hp hl]
      simp [withOwed]
    · rw [shiftIn_or hp _ le_rfl, shiftIn_eq, hl', hh', w3]
      rfl

/-- The first loop (rule R155). -/
theorem shiftLoop_encode_spec (n : Nat) (s : State) (hp : s.params.Legal) (hn : n ≤ s.params.W)
    (h : PackerReady s) (hl : s.eng.low ≤ s.eng.high) (hh : s.eng.high < s.params.FULL) :
    let r := shiftPlan s.params n s.eng.low s.eng.high
    (shiftLoop .encode n s).Ends
      (fun _ t => Coded s r.low r.high (withOwed s.eng.pend ((bitsOf s.params.W s.eng.low).take r.shifts))
        (if r.shifts = 0 then s.eng.pend else 0) t)
      (CodingFailed s) := by
  induction n generalizing s with
  | zero => exact ⟨by simp [shiftPlan, withOwed], h.2, by simp [shiftPlan], id⟩
  | succ n ih =>
    dsimp only
    unfold shiftLoop
    by_cases ha : topsAgree s.params s.eng.low s.eng.high = true
    · rw [if_pos ha]
      obtain ⟨h1, h2, h3⟩ := shiftPlan_pass hp n hl hh ha
      refine (shiftStep_encode_spec s hp h (by omega) hh).bind (fun _ _ => id) fun _ t ht => ?_
      obtain ⟨e1, e2, e3, e4⟩ := ht.registers
      refine (ih t (by rwa [e4]) (by rw [e4]; omega) (ht.ready h) (by rw [e1, e2]; exact h2)
        (by rw [e2, e4]; exact h3)).mono (fun _ u hu => ?_) (fun w u => ht.failed (by omega))
      have hk := shiftPlan_shifts_le (p := s.params) n (2 * s.eng.low % s.params.FULL)
        (2 * s.eng.high % s.params.FULL + 1)
      have hc := ht.trans hu
      simp only [e1, e2, e3, e4, withOwed_zero, ite_self] at hc
      rw [h1, take_bitsOf_shift hp (by omega) (by omega), withOwed_cons]
      simpa using hc
    · rw [if_neg ha, shiftPlan_stop hp _ hl hh ha]
      exact ⟨by simp [withOwed], h.2, by simp, id⟩

/-- The second loop (rule R156). -/
theorem underflowLoop_encode_spec (n : Nat) (s : State) (hp : s.params.Legal) (h : PackerReady s)
    (hl : s.eng.low < s.params.HALF) (hh : s.eng.high < s.params.FULL) (hh2 : s.params.HALF ≤ s.eng.high)
    (hpd : s.eng.pend ≤ s.params.PENDMAX) :
    let r := underflowPlan s.params n s.eng.low s.eng.high
    (underflowLoop .encode n s).Ends
      (fun _ t => Coded s r.low r.high [] (s.eng.pend + r.underflows) t ∧
        s.eng.pend + r.underflows ≤ s.params.PENDMAX)
      (PendFull s (s.eng.pend + r.underflows)) := by
  induction n generalizing s with
  | zero => exact ⟨⟨by simp, h.2, by simp [underflowPlan], id⟩, by simpa [underflowPlan]⟩
  | succ n ih =>
    dsimp only
    have hq := sizes_of_legal hp
    unfold underflowLoop
    by_cases ha : underflowing s.params s.eng.low s.eng.high = true
    · rw [if_pos ha]
      obtain ⟨h1, h2, h3, h4, h5, h6⟩ := underflowPlan_pass hp n hl hh hh2 ha
      rw [h1]
      simp only [underflowStep]
      by_cases hm : s.eng.pend = s.params.PENDMAX
      · rw [if_pos hm]
        exact ⟨rfl, by omega, hm, h.2, by omega, by omega, rfl⟩
      · rw [if_neg hm]
        simp only [Run.bind_done]
        have e : (s.setPend (s.eng.pend + 1)).setBounds
              (shiftIn s.params ((s.setPend (s.eng.pend + 1)).eng.low ^^^ s.params.QUARTER))
              (shiftIn s.params ((s.setPend (s.eng.pend + 1)).eng.high ^^^ s.params.QUARTER) ||| 1) =
            (s.setPend (s.eng.pend + 1)).setBounds (2 * s.eng.low - s.params.HALF)
              (2 * s.eng.high - s.params.HALF + 1) := by
          rw [← h2, ← h3]
          rfl
        rw [e]
        have ih := ih ((s.setPend (s.eng.pend + 1)).setBounds (2 * s.eng.low - s.params.HALF)
          (2 * s.eng.high - s.params.HALF + 1)) hp h h4 h5 h6 (by simp; omega)
        simp only [State.setBounds_eng, State.setPend_eng, State.setBounds_params, State.setPend_params] at ih
        refine ih.mono (fun _ u hu => ?_) (fun w u hu => ?_)
        · obtain ⟨⟨g1, g2, g3, g4⟩, g5⟩ := hu
          refine ⟨⟨g1, g2, ?_, g4⟩, by omega⟩
          rw [g3]
          simp [State.setPend, State.setBounds]
          omega
        · obtain ⟨g1, g2, g3, g4, g5, g6, g7⟩ := hu
          have g2 : s.params.PENDMAX < _ := g2
          refine ⟨g1, by omega, g3, g4, g5, g6, ?_⟩
          rw [g7]
          rfl
    · rw [if_neg ha, underflowPlan_stop hp _ hl hh hh2 ha]
      exact ⟨⟨by simp, h.2, by simp, id⟩, by simpa⟩

/-- `Renorm(ENCODE)`. -/
theorem renorm_encode_spec (s : State) (hp : s.params.Legal) (h : PackerReady s) (hl : s.eng.low ≤ s.eng.high)
    (hh : s.eng.high < s.params.FULL) (hpd : s.eng.pend ≤ s.params.PENDMAX) :
    let r := renormPlan s.params s.eng.low s.eng.high
    (renorm .encode s).Ends
      (fun _ t => Coded s r.low r.high (withOwed s.eng.pend ((bitsOf s.params.W s.eng.low).take r.shifts))
        (owedAfter s r) t ∧ owedAfter s r ≤ s.params.PENDMAX)
      (fun w t => CodingFailed s w t ∨ PendFull s (owedAfter s r) w t) := by
  obtain ⟨-, a2, a3, a4, -⟩ := shiftPlan_ends hp s.params.W s.eng.low s.eng.high hl hh (shift_passes_enough _ _ _)
  refine (shiftLoop_encode_spec s.params.W s hp le_rfl h hl hh).bind (fun w t => .inl) fun _ t ht => ?_
  obtain ⟨e1, e2, e3, e4⟩ := ht.registers
  have hpd' : t.eng.pend ≤ s.params.PENDMAX := by rw [e3]; split <;> omega
  have hu := underflowLoop_encode_spec (t.params.W - 1) t (by rwa [e4]) (ht.ready h) (by rwa [e1, e4])
    (by rwa [e2, e4]) (by rwa [e2, e4]) (by rwa [e4])
  simp only [e1, e2, e4] at hu
  rw [e4]
  refine hu.mono (fun _ u hu => ?_) (fun w u hu => Or.inr ?_)
  · have g1 := ht.trans hu.1
    have g2 := hu.2
    rw [e3] at g1 g2
    rw [List.append_nil] at g1
    exact ⟨g1, g2⟩
  · obtain ⟨b1, b2, b3, b4⟩ := hu
    rw [e3] at b2
    rw [e4] at b2 b3
    exact ⟨b1, b2, b3, ht.part b4⟩

end Sys2Proof.Machine
end

