-- ==== Sys2Proof/Tests/Slice0.lean ====
section
/-! SUPPORT. The model's own tests: the well-formedness check, the decoder on words written out from rules R71,
R73, R74 and R80, single steps from the vectors of 95_test_vectors.md, and a witness for the hypotheses of every
statement of Obligations.lean. Expected results come from the spec, not from the model. -/

namespace Sys2Proof.Tests

open Sys2Proof Sys2Proof.Machine

/-! ### Helpers -/

/-- Whether a step goes on. -/
def goesOn : Host.Outcome State Fault Refusal → Bool
  | .next _ => true
  | .fault _ => false
  | .refused _ => false

/-- The state a step goes on to. -/
def after : Host.Outcome State Fault Refusal → State
  | .next t => t
  | .fault _ => State.reset
  | .refused _ => State.reset

theorem eq_next_of_goesOn {o : Host.Outcome State Fault Refusal} (h : goesOn o = true) : o = .next (after o) := by
  cases o with
  | next t => rfl
  | fault r => cases h
  | refused r => cases h

/-- One command presented to `s` with its word as the spec assembles it. -/
def send (w : Word) (s : State) : State := after (step { s with env.inbox := [.cmd w] })

/-- The last response word. -/
def lastRsp (s : State) : Option Word := s.env.rsps.getLast?

/-- The small instance the vectors of section 2 use: `W = 8`. -/
def p8 : Params := { W := 8, NMAX := 4, PW := 3, PADMAX := 8 }

/-- `W = 8` after reset. -/
def idle8 : State := State.resetOf p8

/-- V7's table `[1, 1, 1]`. -/
def table8 : State := { idle8 with eng.F := [1, 1, 1, 0], eng.NSYM := 3, eng.TOTAL := 3 }

/-- An encode session just opened on it. -/
def enc8 : State := { table8 with eng.MODE := .enc }

/-- V7 after `EWRITE 0`. -/
def enc8b : State := { enc8 with eng.high := 169, eng.onb := 1, eng.CV := true }

/-- A decode session on V7's stream `40` after its `DINIT`. -/
def dec8 : State := { table8 with eng.MODE := .dec, eng.code := 0x40, eng.ibuf := 0x40 }

/-- `dec8` with all padded reads used up. -/
def dec8spent : State := { dec8 with eng.code := 0, eng.eof := true, eng.padcnt := 8 }

/-- A faulted instance: F3. -/
def faulted8 : State :=
  { table8 with eng.MODE := .encDone, eng.FAULT := true, eng.CAUSE := 6, eng.FINFO := 0x221, eng.CV := true }

/-! ### Well-formedness: an ill-formed term for each operand check -/

theorem test_wf_rdreg : (Instr.rdreg 65535).wf = true ∧ (Instr.rdreg 65536).wf = false := by decide
theorem test_wf_tinit : (Instr.tinit 4294967295).wf = true ∧ (Instr.tinit 4294967296).wf = false := by decide
theorem test_wf_tset : (Instr.tset 65535 4294967295).wf = true ∧ (Instr.tset 65536 0).wf = false ∧
    (Instr.tset 0 4294967296).wf = false := by decide
theorem test_wf_tinc : (Instr.tinc 65536).wf = false := by decide
theorem test_wf_tget : (Instr.tget 65536).wf = false := by decide
theorem test_wf_tclo : (Instr.tclo 65536).wf = false := by decide
theorem test_wf_tchi : (Instr.tchi 65536).wf = false := by decide
theorem test_wf_ewrite : (Instr.ewrite 65536).wf = false := by decide
theorem test_wf_no_operand : [Instr.reset, .ttot, .einit, .efinish, .dinit, .dread].all Instr.wf = true := by decide

/-! ### Decoding: words written out from rules R71, R73 and R80 -/

theorem test_decode_reset : decode 0x0100000000000000 = .instr .reset := by decide
theorem test_decode_rdreg : decode 0x0200000600000000 = .instr (.rdreg 6) := by decide
theorem test_decode_tinit : decode 0x1000000000000005 = .instr (.tinit 5) := by decide
theorem test_decode_tset : decode 0x1100000200004CCC = .instr (.tset 2 19660) := by decide
theorem test_decode_tinc : decode 0x1200000100000000 = .instr (.tinc 1) := by decide
theorem test_decode_tget : decode 0x1300000200000000 = .instr (.tget 2) := by decide
theorem test_decode_tclo : decode 0x1400000400000000 = .instr (.tclo 4) := by decide
theorem test_decode_tchi : decode 0x1500000400000000 = .instr (.tchi 4) := by decide
theorem test_decode_ttot : decode 0x1600000000000000 = .instr .ttot := by decide
theorem test_decode_einit : decode 0x2000000000000000 = .instr .einit := by decide
theorem test_decode_ewrite : decode 0x2100000400000000 = .instr (.ewrite 4) := by decide
theorem test_decode_efinish : decode 0x2200000000000000 = .instr .efinish := by decide
theorem test_decode_dinit : decode 0x3000000000000000 = .instr .dinit := by decide
theorem test_decode_dread : decode 0x3100000000000000 = .instr .dread := by decide

/-- F1, F4, F4c and F4b: one word for each way a word is not well formed. -/
theorem test_decode_rejects :
    decode 0x0000000000000000 = .bad .undefinedOpcode ∧
    decode 0x1601000000000000 = .bad .reservedNotZero ∧
    decode 0x1000000100000003 = .bad .unusedSymNotZero ∧
    decode 0x2000000000000005 = .bad .unusedDataNotZero := by decide

theorem test_decode_table_word :
    decodeTableWord 64 0x1100000100001999 = some (.tset 1 6553) ∧ decodeTableWord 64 0 = none ∧
    decodeTableWord 72 0x1600000000000000 = none := by decide

/-! ### Single steps -/

/-- V1: registers after reset, default parameters. -/
theorem test_rdreg_high_after_reset : lastRsp (send 0x0200000600000000 State.reset) = some 0x00000000FFFFFFFF := by
  decide
theorem test_rdreg_config0 : lastRsp (send 0x0200000C00000000 State.reset) = some 0x01002020 := by decide

/-- F3b: `RESET` of a faulted instance answers 0 and clears `MODE` and `FAULT`. -/
theorem test_reset_of_faulted :
    lastRsp (send 0x0100000000000000 faulted8) = some 0 ∧
    statusValue (send 0x0100000000000000 faulted8).eng = 0 := by decide

/-- F6b: `NMAX = 4`. -/
theorem test_tinit_too_large :
    lastRsp (send 0x1000000000000005 idle8) = some 0x0600000000000000 ∧
    (send 0x1000000000000005 idle8).eng.FINFO = 0x10 ∧ (send 0x1000000000000005 idle8).eng.NSYM = 0 := by decide
theorem test_tinit_clears_only_its_entries :
    (send 0x1000000000000001 table8).eng.F = [0, 1, 1, 0] ∧ (send 0x1000000000000001 table8).eng.TOTAL = 0 := by
  decide

/-- F11 and F9b: 64 is above `MAXTOTAL` of `W = 8`, 63 is not. -/
theorem test_tset_above_maxtotal :
    lastRsp (send 0x1100000100000040 table8) = some 0x0100000000000000 ∧
    (send 0x1100000100000040 table8).eng.FINFO = 0x111 ∧ (send 0x1100000100000040 table8).eng.TOTAL = 3 := by decide
theorem test_tset_at_maxtotal :
    (send 0x110000010000003F table8).eng.F = [1, 63, 1, 0] ∧ (send 0x110000010000003F table8).eng.TOTAL = 65 := by
  decide

/-- P2's first `TINC 0`. -/
theorem test_tinc : (send 0x1200000000000000 enc8b).eng.F = [2, 1, 1, 0] ∧
    (send 0x1200000000000000 enc8b).eng.TOTAL = 4 ∧ (send 0x1200000000000000 enc8b).eng.CV = false := by decide
/-- F11b. -/
theorem test_tinc_at_maxtotal :
    lastRsp (send 0x1200000100000000 (send 0x110000010000003F table8)) = some 0x0100000000000000 := by decide

/-- V10's table `[3, 2, 1]`: `C` is 0, 3, 5, 6. -/
def table321 : State := { idle8 with eng.F := [3, 2, 1, 0], eng.NSYM := 3, eng.TOTAL := 6 }
theorem test_tget : lastRsp (send 0x1300000100000000 table321) = some 2 := by decide
theorem test_tclo : lastRsp (send 0x1400000200000000 table321) = some 5 ∧
    (send 0x1400000200000000 table321).eng.CV = true := by decide
theorem test_tchi : lastRsp (send 0x1500000100000000 table321) = some 5 := by decide
theorem test_ttot : lastRsp (send 0x1600000000000000 table321) = some 6 := by decide
theorem test_tchi_out_of_range : lastRsp (send 0x1500000300000000 table321) = some 0x0600000000000000 ∧
    (send 0x1500000300000000 table321).eng.CV = false := by decide

/-- F7: `EINIT` twice. -/
theorem test_einit : (send 0x2000000000000000 table8).eng.MODE = .enc ∧
    (send 0x2000000000000000 table8).eng.high = 0xFF := by decide
theorem test_dinit_while_encoding : lastRsp (send 0x3000000000000000 enc8) = some 0x0600000000000000 ∧
    (send 0x3000000000000000 enc8).eng.MODE = .enc := by decide

/-- V10's first `EWRITE 1`: `low' = 128`, `high' = 212`, a shift on 1. -/
theorem test_ewrite_shift :
    let t := send 0x2100000100000000 { table321 with eng.MODE := .enc }
    t.eng.low = 0 ∧ t.eng.high = 0xA9 ∧ t.eng.obuf = 1 ∧ t.eng.onb = 1 := by decide
/-- V7's `EWRITE 2`: an underflow step, `low = 01100010`, `high = 11010011`, `pend = 1`. -/
theorem test_ewrite_underflow :
    let t := send 0x2100000200000000 enc8b
    t.eng.low = 0x62 ∧ t.eng.high = 0xD3 ∧ t.eng.pend = 1 := by decide

/-- V7's end: sink `40`. -/
theorem test_efinish :
    let t := send 0x2200000000000000 { enc8b with eng.low := 0x62, eng.high := 0xD3, eng.pend := 1 }
    t.env.sink = [0x40] ∧ t.eng.MODE = .encDone ∧ t.eng.onb = 0 ∧ t.eng.pend = 0 := by decide
/-- F13: the sink answers `ERR`, the byte is lost. -/
theorem test_efinish_sink_error :
    let t := send 0x2200000000000000
      { enc8b with eng.low := 0x62, eng.high := 0xD3, eng.pend := 1, env.sinkAnswers := [some .err] }
    t.eng.FINFO = 0x22 ∧ t.eng.CAUSE = 5 ∧ t.eng.MODE = .enc ∧ t.env.sink = [] ∧ t.eng.onb = 0 := by decide

/-- V9 (b) at `W = 12`. -/
theorem test_dinit_padded :
    let t := send 0x3000000000000000 { State.resetOf { p8 with W := 12 } with env.source := [some (.byte 0xA4)] }
    t.eng.code = 0xA40 ∧ t.eng.padcnt = 4 ∧ statusValue t.eng = 0x23 ∧ regValue t 0xA = 0x00A4 := by decide
/-- F13b. -/
theorem test_dinit_source_error :
    let t := send 0x3000000000000000 { idle8 with env.source := [some .err] }
    t.eng.FINFO = 0x1000030 ∧ t.eng.CAUSE = 5 ∧ t.eng.MODE = .dec ∧ t.eng.code = 0 := by decide

/-- V7d's two `DREAD`s. -/
theorem test_dread_shift :
    let t := send 0x3100000000000000 dec8
    lastRsp t = some 0 ∧ t.eng.code = 0x80 ∧ t.eng.high = 0xA9 ∧ t.eng.padcnt = 1 ∧ t.eng.eof = true := by decide
theorem test_dread_underflow :
    let t := send 0x3100000000000000
      { dec8 with eng.high := 0xA9, eng.code := 0x80, eng.padcnt := 1, eng.eof := true, eng.CV := true }
    lastRsp t = some 2 ∧ t.eng.code = 0x80 ∧ t.eng.low = 0x62 ∧ t.eng.high = 0xD3 ∧ t.eng.padcnt = 2 := by decide
/-- F12: the padded reads are used up. -/
theorem test_dread_premature :
    let t := send 0x3100000000000000 dec8spent
    t.eng.CAUSE = 4 ∧ t.eng.low = 0 ∧ t.eng.high = 0x54 ∧ t.eng.code = 0 ∧ t.eng.CV = true := by decide

/-- F3b: refused commands and words. -/
theorem test_refused_while_faulted :
    [0x2200000000000000, 0, 0x0100000000000001].all fun w =>
      decide (send w faulted8 = { faulted8 with env.rsps := [0x0600000000000000] }) := by decide

/-- RST in the middle of `EFINISH` after no transaction (rule R230 (a)). -/
theorem test_rst_mid_command :
    let t := after (step { enc8b with eng.pend := 1, env.inbox := [.cmdCutByRst 0x2200000000000000 0] })
    t.env.sink = [] ∧ t.env.rsps = [] ∧ t.eng.MODE = .idle ∧ t.eng.high = 0xFF := by decide

/-! ### Witnesses: states and operands that meet every hypothesis of each statement, clause by clause -/

/-- `pend` at its limit `2^3 - 1`. -/
def enc8full : State := { enc8b with eng.low := 0x62, eng.high := 0xD3, eng.pend := 7 }

/-- V7 after `EWRITE 0`, but owing 7 bits. -/
def enc8owing : State := { enc8b with eng.pend := 7 }

/-- A word that is no command. -/
theorem witness_bad_word : ¬ ∃ i, decode 0x0000000000000000 = .instr i := by
  have h : decode 0x0000000000000000 = .bad .undefinedOpcode := by decide
  rw [h]
  exact fun ⟨_, h⟩ => by cases h

theorem witness_EveryWellFormedCommandIsReadBackFromItsWord :
    (Instr.tset 0 0).wf = true ∧ (Instr.tset 65535 4294967295).wf = true := by decide

theorem witness_OnlyTheWordOfACommandDecodesToIt :
    decode 0x1100FFFFFFFFFFFF = .instr (.tset 65535 4294967295) := by decide

theorem witness_WordNotWellFormedRaisesIllegalCommand :
    ({ idle8 with env.inbox := [.cmd 0] } : State).env.inbox = .cmd 0 :: [] ∧ idle8.eng.FAULT = false ∧
    ¬ ∃ i, decode 0 = .instr i :=
  ⟨rfl, rfl, witness_bad_word⟩

theorem witness_ResponseWordCarriesStatusAndValue : 255 < 2 ^ 8 ∧ 281474976710655 < 2 ^ 48 := by decide

theorem witness_StepServesTheNextEvent :
    ({ enc8 with env.inbox := [.cmd 0x2200000000000000] } : State).env.inbox = .cmd 0x2200000000000000 :: [] ∧
    ({ enc8 with env.inbox := [.cmdCutByRst 0x2200000000000000 0] } : State).env.inbox =
      .cmdCutByRst 0x2200000000000000 0 :: [] ∧
    decode 0x2200000000000000 = .instr .efinish ∧
    ({ faulted8 with env.inbox := [.rst, .rst] } : State).env.inbox = .rst :: [.rst] ∧
    idle8.env.inbox = [] := by decide

theorem witness_PresentedWordIsTheNextOneRun : (Instr.ewrite 65535).wf = true := by decide

theorem witness_EitherResetLeavesTheResetState :
    faulted8.env.rstIn = none ∧ ({ faulted8 with env.inbox := [.rst] } : State).env.inbox = .rst :: [] := by decide

theorem witness_RstAbandonsTheCommandItInterrupts :
    ({ enc8b with env.rstIn := some 0 } : State).env.rstIn = some 0 ∧
    ({ enc8b with env.rstIn := some 1 } : State).env.rstIn = some 1 ∧
    ({ enc8b with env.inbox := [.cmdCutByRst 0 0] } : State).env.inbox = .cmdCutByRst 0 0 :: [] ∧
    ¬ ∃ i, decode 0 = .instr i :=
  ⟨rfl, rfl, rfl, witness_bad_word⟩

theorem witness_RdregReadsTheRegisterMap : faulted8.env.rstIn = none ∧ 13 < 14 ∧ 13 < 65535 := by decide

theorem witness_TinitStartsAnEmptyTable :
    (Running table8 ∧ table8.eng.MODE = .idle ∧ 1 ≤ 1 ∧ 1 ≤ table8.params.NMAX) ∧
    (4 ≤ table8.params.NMAX ∧ table8.params.NMAX < 5) ∧ Running enc8 ∧ enc8.eng.MODE ≠ .idle := by decide

theorem witness_TsetWritesOneFrequency :
    (Running table8 ∧ TableExact table8) ∧ (2 < table8.eng.NSYM ∧ 63 ≤ table8.params.MAXTOTAL) ∧
    table8.eng.NSYM ≤ 3 ∧ table8.params.MAXTOTAL < 64 := by decide

theorem witness_TincAddsOneToAFrequency :
    let s : State := { table8 with eng.F := [1, 63, 62, 0], eng.TOTAL := 126 }
    (Running s ∧ TableExact s) ∧ (2 < s.eng.NSYM ∧ freqAt s.eng 2 + 1 ≤ s.params.MAXTOTAL) ∧
    s.eng.NSYM ≤ 3 ∧ (1 < s.eng.NSYM ∧ s.params.MAXTOTAL < freqAt s.eng 1 + 1) := by decide

theorem witness_TableQueriesAnswerFromTheTable :
    Running table8 ∧ 2 < table8.eng.NSYM ∧ table8.eng.NSYM ≤ 3 := by decide

theorem witness_CumulativeFrequenciesArePrefixSums : TableExact table8 ∧ 2 < table8.eng.NSYM ∧ 0 ≤ 3 := by decide

theorem witness_CommandsAreRefusedWhileFaulted :
    (faulted8.eng.FAULT = true ∧ faulted8.env.rstIn = none ∧ ¬ RunsFaulted .ttot) ∧
    ({ faulted8 with env.inbox := [.cmd 0] } : State).env.inbox = .cmd 0 :: [] ∧
    ¬ ∃ i, decode 0 = .instr i :=
  ⟨⟨rfl, rfl, by rintro (h | ⟨r, h⟩) <;> cases h⟩, rfl, witness_bad_word⟩

theorem witness_EveryCommandIsAnsweredOnceAndAFaultIsRecorded :
    ((Instr.ewrite 2).wf = true ∧ Running enc8b ∧
      exec (.ewrite 2) enc8b = .next (after (exec (.ewrite 2) enc8b))) ∧
    (after (exec (.ewrite 2) enc8b)).eng.FAULT = false ∧
    exec (.ewrite 3) enc8b = .next (after (exec (.ewrite 3) enc8b)) ∧
    (after (exec (.ewrite 3) enc8b)).eng.FAULT = true :=
  ⟨⟨by decide, by decide, eq_next_of_goesOn (by decide)⟩, by decide, eq_next_of_goesOn (by decide), by decide⟩

theorem witness_IllegalCommandAndTableFaultsAreClean :
    (Running enc8b ∧ exec .einit enc8b = .next (after (exec .einit enc8b)) ∧
      (after (exec .einit enc8b)).eng.FAULT = true ∧ (after (exec .einit enc8b)).eng.CAUSE = 6) ∧
    exec (.tset 0 64) enc8b = .next (after (exec (.tset 0 64) enc8b)) ∧
      (after (exec (.tset 0 64) enc8b)).eng.FAULT = true ∧ (after (exec (.tset 0 64) enc8b)).eng.CAUSE = 1 :=
  ⟨⟨by decide, eq_next_of_goesOn (by decide), by decide, by decide⟩, eq_next_of_goesOn (by decide), by decide,
    by decide⟩

theorem witness_CommandInTheWrongModeIsIllegal :
    (Running enc8 ∧ enc8.eng.MODE ≠ .idle ∧ enc8.eng.MODE ≠ .dec) ∧ Running dec8 ∧ dec8.eng.MODE ≠ .enc := by decide

theorem witness_CoderRefusesAnUnusableTable :
    (Running enc8 ∧ enc8.eng.MODE = .enc ∧ enc8.eng.NSYM ≤ 3 ∧ 2 < enc8.eng.NSYM) ∧
    ({ enc8 with eng.F := [0, 0, 0, 0], eng.TOTAL := 0 } : State).eng.TOTAL = 0 ∧ enc8.params.MAXTOTAL < 64 ∧
    freqAt ({ enc8 with eng.F := [1, 1, 0, 0], eng.TOTAL := 2 } : State).eng 2 = 0 ∧
    (Running dec8 ∧ dec8.eng.MODE = .dec) := by decide

theorem witness_ModeChangesOnlyAsTheSpecLists :
    enc8b.env.rstIn = none ∧ exec .efinish enc8b = .next (after (exec .efinish enc8b)) ∧
    (after (exec .efinish enc8b)).eng.MODE ≠ enc8b.eng.MODE :=
  ⟨by decide, eq_next_of_goesOn (by decide), by decide⟩

theorem witness_LatchedFaultStaysUntilReset :
    let s : State := { faulted8 with env.inbox := [.cmd 0x1600000000000000] }
    s.eng.FAULT = true ∧ step s = .next (after (step s)) :=
  ⟨by decide, eq_next_of_goesOn (by decide)⟩

theorem witness_AlphabetSizeIsFixedInASession :
    table8.env.rstIn = none ∧ exec (.tinit 2) table8 = .next (after (exec (.tinit 2) table8)) ∧
    (after (exec (.tinit 2) table8)).eng.NSYM ≠ table8.eng.NSYM :=
  ⟨by decide, eq_next_of_goesOn (by decide), by decide⟩

theorem witness_CacheFlagFollowsTableWritesAndQueries :
    (Running enc8b ∧ exec (.tset 0 2) enc8b = .next (after (exec (.tset 0 2) enc8b))) ∧
    (Running enc8 ∧ exec (.ewrite 0) enc8 = .next (after (exec (.ewrite 0) enc8))) ∧
    exec .efinish enc8b = .next (after (exec .efinish enc8b)) :=
  ⟨⟨by decide, eq_next_of_goesOn (by decide)⟩, ⟨by decide, eq_next_of_goesOn (by decide)⟩,
    eq_next_of_goesOn (by decide)⟩

/-- The same statement's faulting ends: a table write, an `EWRITE` that fails its checks, one that runs out of `pend`
after them, and a `DREAD` that does of padded reads (F12). -/
theorem witness_CacheFlagFollowsTableWritesAndQueries_faulting :
    ((after (exec (.tset 0 64) enc8b)).eng.FAULT = true ∧ (after (exec (.tset 0 64) enc8b)).eng.CV = true) ∧
    ((after (exec (.ewrite 3) enc8)).eng.FAULT = true ∧ (after (exec (.ewrite 3) enc8)).eng.CV = false) ∧
    (let s : State := { enc8owing with eng.CV := false }
     Running s ∧ (after (exec (.ewrite 2) s)).eng.FAULT = true ∧ (after (exec (.ewrite 2) s)).eng.CV = true) ∧
    (Running dec8spent ∧ (after (exec .dread dec8spent)).eng.FAULT = true ∧ dec8spent.eng.CV = false) ∧
    (after (exec .efinish enc8full)).eng.FAULT = true := by decide

theorem witness_NoResultDependsOnTheCacheFlag : Instr.rdreg 1 ≠ .rdreg 0 ∧ Instr.dread ≠ .rdreg 0 := by decide

theorem witness_EachUnitTouchesOnlyItsOwnState :
    (table8.env.rstIn = none ∧ exec (.tinc 0) table8 = .next (after (exec (.tinc 0) table8)) ∧
      Instr.tinc 0 ≠ .reset) ∧
    exec (.rdreg 0) faulted8 = .next (after (exec (.rdreg 0) faulted8)) ∧
    exec (.ewrite 0) enc8 = .next (after (exec (.ewrite 0) enc8)) ∧
    exec .dread dec8 = .next (after (exec .dread dec8)) :=
  ⟨⟨by decide, eq_next_of_goesOn (by decide), by decide⟩, eq_next_of_goesOn (by decide),
    eq_next_of_goesOn (by decide), eq_next_of_goesOn (by decide)⟩

theorem witness_EveryCommandEndsWhenTheHostAnswers :
    HostAnswers { enc8b with env.sinkAnswers := [some .ok, some .err], env.source := [some (.byte 1), some .eof] } := by
  decide

theorem witness_InvariantHoldsAtReset :
    p8.Legal ∧ Memory.wf p8 [63, 0, 1, 63] = true ∧ Params.standard.Legal ∧
    ({ W := 3, NMAX := 1, PW := 1, PADMAX := 0 } : Params).Legal ∧
    ({ W := 32, NMAX := 65535, PW := 32, PADMAX := 65535 } : Params).Legal := by decide

theorem witness_EveryStepKeepsTheInvariant :
    let s : State := { dec8 with env.inbox := [.cmd 0x3100000000000000] }
    Inv s ∧ step s = .next (after (step s)) :=
  ⟨by decide, eq_next_of_goesOn (by decide)⟩

theorem witness_RangeErrorsAreNeverRaised :
    (Inv dec8 ∧ Running dec8 ∧ exec .dread dec8 = .next (after (exec .dread dec8))) ∧
    Inv enc8b ∧ Running enc8b ∧ exec (.ewrite 2) enc8b = .next (after (exec (.ewrite 2) enc8b)) :=
  ⟨⟨by decide, by decide, eq_next_of_goesOn (by decide)⟩, by decide, by decide, eq_next_of_goesOn (by decide)⟩

theorem witness_TotalAlwaysFitsItsRegister :
    Inv { table8 with eng.F := [63, 63, 63, 63], eng.NSYM := 4, eng.TOTAL := 252 } := by decide

theorem witness_WriteBitAppendsOneBit :
    let s : State := { enc8 with eng.obuf := 127, eng.onb := 7 }
    (s.env.rstIn = none ∧ s.eng.obuf.toNat < 2 ^ s.eng.onb.val ∧ SinkAccepts s) ∧
    ({ s with env.sinkAnswers := [some .err] } : State).env.sinkAnswers = some .err :: [] ∧ s.eng.onb.val = 7 := by
  decide

theorem witness_EmitBitPaysWhatIsOwed :
    let s : State := { enc8 with eng.pend := 7, eng.obuf := 127, eng.onb := 7, env.sinkAnswers := [some .ok] }
    s.env.rstIn = none ∧ s.eng.obuf.toNat < 2 ^ s.eng.onb.val ∧ SinkAccepts s := by decide

theorem witness_CloseBitsPadsToAByte :
    (enc8b.env.rstIn = none ∧ enc8b.eng.obuf.toNat < 2 ^ enc8b.eng.onb.val ∧ SinkAccepts enc8b) ∧
    enc8.env.rstIn = none ∧ enc8.eng.obuf.toNat < 2 ^ enc8.eng.onb.val ∧ SinkAccepts enc8 ∧ enc8.eng.onb = 0 := by
  decide

theorem witness_ReadBitDeliversTheStreamInOrder :
    let s : State := { dec8 with env.source := [some (.byte 0xA4)] }
    let t : State := { dec8 with env.source := [some (.byte 0xA4), some .eof, none] }
    (s.env.rstIn = none ∧ SourceHolds s [0xA4] none ∧ SourceHolds t [0xA4] (some [none]) ∧
      inBits s.eng [0xA4] = [true, false, true, false, false, true, false, false]) ∧
    (SourceHolds dec8 [] none ∧ inBits dec8.eng [] = []) ∧
    SourceHolds { dec8 with env.source := [some .eof, some .err] } [] (some [some .err]) ∧
    (SourceHolds { dec8spent with env.source := [none] } [0xA4] none ∧ inBits dec8spent.eng [0xA4] = []) ∧
    dec8.eng.eof = false ∧ dec8.eng.inb = 0 := by decide

theorem witness_PaddedReadsAreCountedAndBounded :
    let s : State := { dec8 with eng.ibuf := 1, eng.inb := 1, env.source := [some .eof, none] }
    (s.env.rstIn = none ∧ SourceHolds s [] (some [none]) ∧ inBits s.eng [] = [true]) ∧
    (SourceHolds dec8 [] none ∧ inBits dec8.eng [] = [] ∧ dec8.eng.padcnt ≠ dec8.params.PADMAX) ∧
    SourceHolds dec8spent [] none ∧ inBits dec8spent.eng [] = [] ∧ dec8spent.eng.padcnt = dec8spent.params.PADMAX := by
  decide

theorem witness_PortErrorsAreRecordedWithTheirPort :
    (idle8.params.Legal ∧ Running idle8 ∧ idle8.eng.MODE = .idle ∧
      ({ idle8 with env.source := [some .err] } : State).env.source = some .err :: []) ∧
    Running enc8b ∧ enc8b.eng.MODE = .enc ∧ enc8b.eng.pend ≠ enc8b.params.PENDMAX ∧
      ({ enc8b with eng.obuf := 127, eng.onb := 7 } : State).eng.onb.val = 7 ∧
      ({ enc8b with env.sinkAnswers := [some .err] } : State).env.sinkAnswers = some .err :: [] := by decide

theorem witness_UnansweredRequestNeverEndsTheCommand :
    let s : State := { idle8 with env.source := [none] }
    s.params.Legal ∧ s.eng.FAULT = false ∧ s.eng.MODE = .idle ∧ s.env.source = none :: [] ∧ s.env.rstIn = none ∧
    ({ s with env.rstIn := some 0 } : State).env.rstIn = some 0 := by decide

theorem witness_EinitOpensAnEncodeSession : Running table8 ∧ table8.eng.MODE = .idle := by decide

theorem witness_NarrowedIntervalsTileTheInterval :
    let s : State := { enc8b with eng.F := [2, 0, 1, 0] }
    s.eng.low ≤ s.eng.high ∧ TableExact s ∧ 1 ≤ s.eng.TOTAL ∧ 2 < s.eng.NSYM ∧ freqAt s.eng 1 = 0 ∧
    1 ≤ freqAt s.eng 2 ∧ (s.eng.TOTAL : Int) < rangeOf s.eng := by decide

theorem witness_EwriteCodesOneSymbol :
    (Inv enc8b ∧ Running enc8b ∧ enc8b.eng.MODE = .enc ∧ 2 < enc8b.eng.NSYM ∧ 1 ≤ enc8b.eng.TOTAL ∧
      enc8b.eng.TOTAL ≤ enc8b.params.MAXTOTAL ∧ 1 ≤ freqAt enc8b.eng 2 ∧ SinkAccepts enc8b) ∧
    (if (planFor enc8b 2).shifts = 0 then enc8b.eng.pend else 0) + (planFor enc8b 2).underflows ≤
      enc8b.params.PENDMAX :=
  ⟨⟨by decide, by decide⟩, by decide⟩

theorem witness_PendNeverWraps :
    let s : State := enc8owing
    (Inv s ∧ Running s ∧ s.eng.MODE = .enc ∧ 2 < s.eng.NSYM ∧ 1 ≤ s.eng.TOTAL ∧
      s.eng.TOTAL ≤ s.params.MAXTOTAL ∧ 1 ≤ freqAt s.eng 2 ∧ SinkAccepts s) ∧
    s.params.PENDMAX < (if (planFor s 2).shifts = 0 then s.eng.pend else 0) + (planFor s 2).underflows ∧
    Running enc8full ∧ enc8full.eng.MODE = .enc ∧ enc8full.eng.pend = enc8full.params.PENDMAX :=
  ⟨⟨by decide, by decide⟩, by decide, by decide⟩

theorem witness_EwriteScalesTheNarrowedInterval :
    Inv enc8b ∧ Running enc8b ∧ exec (.ewrite 2) enc8b = .next (after (exec (.ewrite 2) enc8b)) ∧
    (after (exec (.ewrite 2) enc8b)).eng.FAULT = false :=
  ⟨by decide, by decide, eq_next_of_goesOn (by decide), by decide⟩

theorem witness_EfinishClosesTheStream :
    RegistersFit enc8b ∧ Running enc8b ∧ enc8b.eng.MODE = .enc ∧ enc8b.eng.pend ≠ enc8b.params.PENDMAX ∧
    SinkAccepts enc8b := by decide

theorem witness_FinishBitsNameAQuarterInsideTheInterval :
    Inv enc8b ∧ Running enc8b ∧ enc8b.eng.MODE = .enc ∧
    exec .efinish enc8b = .next (after (exec .efinish enc8b)) ∧ (after (exec .efinish enc8b)).eng.FAULT = false :=
  ⟨by decide, by decide, by decide, eq_next_of_goesOn (by decide), by decide⟩

theorem witness_DinitFillsTheCodeRegister :
    (idle8.params.Legal ∧ Running idle8 ∧ idle8.eng.MODE = .idle ∧ idle8.env.source = streamOf [] none ∧
      idle8.params.W - 8 * ([] : List Byte).length ≤ idle8.params.PADMAX) ∧
    ({ idle8 with env.source := [some (.byte 0xA4), some (.byte 0x5B)] } : State).env.source =
      streamOf [0xA4, 0x5B] none ∧
    ({ idle8 with env.source := [some .eof, some .err, none] } : State).env.source =
      streamOf [] (some [some .err, none]) := by decide

theorem witness_SymbolSearchFindsTheOneSymbol :
    TableExact table8 ∧ (0 ≤ (2 : Int) ∧ (2 : Int) < table8.eng.TOTAL) ∧ (-1 : Int) < 0 ∧
    (table8.eng.TOTAL : Int) ≤ 3 := by decide

theorem witness_DecoderFindsTheSymbolWhoseIntervalHoldsTheCode :
    Inv dec8 ∧ Running dec8 ∧ dec8.eng.MODE = .dec ∧ 1 ≤ dec8.eng.TOTAL ∧
    dec8.eng.TOTAL ≤ dec8.params.MAXTOTAL := by decide

theorem witness_DreadDecodesOneSymbol :
    (Inv dec8 ∧ Running dec8 ∧ dec8.eng.MODE = .dec ∧ 1 ≤ dec8.eng.TOTAL ∧
      dec8.eng.TOTAL ≤ dec8.params.MAXTOTAL ∧ SourceHolds dec8 [] none) ∧
    dec8.eng.padcnt + ((planFor dec8 0).shifts + (planFor dec8 0).underflows - (inBits dec8.eng []).length) ≤
      dec8.params.PADMAX :=
  ⟨⟨by decide, by decide⟩, by decide⟩

/-- `dec8` with a source that says `EOF` itself. -/
def dec8end : State := { dec8 with env.source := [some .eof, some .err] }

/-- V7d after its first `DREAD`, `EOF` latched, with a source that would not answer. -/
def dec8latched : State :=
  { dec8 with eng.high := 0xA9, eng.code := 0x80, eng.padcnt := 1, eng.eof := true, env.source := [none] }

theorem witness_DreadDecodesOneSymbol_eof :
    (Inv dec8end ∧ Running dec8end ∧ SourceHolds dec8end [] (some [some .err]) ∧
      (planFor dec8end 0).shifts + (planFor dec8end 0).underflows ≤ dec8end.params.PADMAX) ∧
    (Inv dec8latched ∧ Running dec8latched ∧ SourceHolds dec8latched [0xA4] none ∧
      inBits dec8latched.eng [0xA4] = [] ∧
      dec8latched.eng.padcnt + ((planFor dec8latched 2).shifts + (planFor dec8latched 2).underflows) ≤
        dec8latched.params.PADMAX) :=
  ⟨⟨by decide, by decide, by decide, by decide⟩, by decide, by decide, by decide, by decide, by decide⟩

/-- An `EOF` the source gives is taken and latched, and what its list holds after it is left (rules R26, R56). -/
theorem test_dread_explicit_eof :
    let t := send 0x3100000000000000 dec8end
    lastRsp t = some 0 ∧ t.eng.eof = true ∧ t.eng.padcnt = 1 ∧ t.env.source = [some .err] := by decide

/-- One padded read too few for a `DINIT` on an empty source. -/
def idle8tight : State := { idle8 with params.PADMAX := 7 }

theorem witness_ReadingFarPastTheEndIsPremature :
    (let s : State := idle8tight
     s.params.Legal ∧ Running s ∧ s.eng.MODE = .idle ∧ s.env.source = streamOf [] none ∧
     s.params.PADMAX < s.params.W - 8 * ([] : List Byte).length) ∧
    (Inv dec8spent ∧ Running dec8spent ∧ dec8spent.eng.MODE = .dec ∧ 1 ≤ dec8spent.eng.TOTAL ∧
      dec8spent.eng.TOTAL ≤ dec8spent.params.MAXTOTAL ∧ SourceHolds dec8spent [] (some []) ∧
      findSymbol dec8spent.eng (decodeValue dec8spent.eng) = some 0 ∧
      dec8spent.params.PADMAX < dec8spent.eng.padcnt +
        ((planFor dec8spent 0).shifts + (planFor dec8spent 0).underflows - (inBits dec8spent.eng []).length)) :=
  ⟨by decide, by decide, by decide, by decide, by decide, by decide, by decide, by decide, by decide⟩

/-- A decoder whose RAM has three entries where `enc8`'s has four, and whose `PW` and `PADMAX` are others. -/
def dec8small : State :=
  { dec8 with params := { W := 8, NMAX := 3, PW := 5, PADMAX := 9 }, eng.F := [1, 1, 1] }

theorem witness_DecoderBoundsFollowTheEncoders :
    (Inv enc8 ∧ Inv dec8small ∧ Running enc8 ∧ Running dec8small ∧ enc8.params.W = dec8small.params.W ∧
      enc8.eng.NSYM = dec8small.eng.NSYM ∧
      enc8.eng.F.take enc8.eng.NSYM = dec8small.eng.F.take dec8small.eng.NSYM ∧
      enc8.eng.low = dec8small.eng.low ∧ enc8.eng.high = dec8small.eng.high) ∧
    exec (.ewrite 0) enc8 = .next (after (exec (.ewrite 0) enc8)) ∧
    (after (exec (.ewrite 0) enc8)).eng.FAULT = false ∧
    exec .dread dec8small = .next (after (exec .dread dec8small)) ∧
    (after (exec .dread dec8small)).eng.FAULT = false ∧
    (after (exec .dread dec8small)).env.rsps = dec8small.env.rsps ++ [responseWord 0 0] :=
  ⟨⟨by decide, by decide, by decide⟩, eq_next_of_goesOn (by decide), by decide, eq_next_of_goesOn (by decide),
    by decide, by decide⟩

end Sys2Proof.Tests
end

section
/-! SUPPORT. The presented word, the end of a command that RST cuts short, and what a reset leaves (rules R34, R49,
R70, R230): the facts the statements of this family about a step are assembled from. -/

namespace Sys2Proof

theorem encode_fields (i : Instr) : Laws.EncodeFields.Statement i :=
  match i with
  | .reset => Laws.EncodeFields.reset
  | .rdreg r => Laws.EncodeFields.rdreg r
  | .tinit n => Laws.EncodeFields.tinit n
  | .tset s f => Laws.EncodeFields.tset s f
  | .tinc s => Laws.EncodeFields.tinc s
  | .tget s => Laws.EncodeFields.tget s
  | .tclo s => Laws.EncodeFields.tclo s
  | .tchi s => Laws.EncodeFields.tchi s
  | .ttot => Laws.EncodeFields.ttot
  | .einit => Laws.EncodeFields.einit
  | .ewrite s => Laws.EncodeFields.ewrite s
  | .efinish => Laws.EncodeFields.efinish
  | .dinit => Laws.EncodeFields.dinit
  | .dread => Laws.EncodeFields.dread

/-- With a word's four fields known, the decoder's table lookup is a computation (rules R73 to R75). -/
theorem decode_of_fields {w : Word} {i : Instr} (hop : opField w = opcodeOf i) (hrsv : rsvField w = 0)
    (hsym : symField w = symOf i) (hdata : dataField w = dataOf i) : decode w = .instr i := by
  simp only [decode, hop, hrsv, hsym, hdata]
  cases i <;> rfl

theorem decode_encode {i : Instr} (h : i.wf = true) : decode (encode i) = .instr i := by
  obtain ⟨hop, hrsv, hsym, hdata⟩ := encode_fields i h
  exact decode_of_fields hop hrsv hsym hdata

end Sys2Proof

namespace Sys2Proof.Machine

theorem runWord_instr {w : Word} {i : Instr} (s : State) (h : decode w = .instr i) : runWord w s = exec i s := by
  simp [runWord, h]

theorem runWord_bad {w : Word} {e : DecodeError} (s : State) (h : decode w = .bad e) :
    runWord w s = issueMalformed w s := by
  simp [runWord, h]

theorem step_idle {s : State} (h : s.env.inbox = []) : step s = .next s := by
  simp [step, serve, h]

theorem step_cmd {s : State} {w : Word} {rest : List Event} (h : s.env.inbox = .cmd w :: rest) :
    step s = runWord w (takeEvent rest none s) := by
  simp [step, serve, h]

theorem step_rst {s : State} {rest : List Event} (h : s.env.inbox = .rst :: rest) :
    step s = .next (hardReset (takeEvent rest none s)) := by
  simp [step, serve, h]

theorem step_cmdCutByRst {s : State} {w : Word} {k : Nat} {rest : List Event}
    (h : s.env.inbox = .cmdCutByRst w k :: rest) : step s = runWord w (takeEvent rest (some k) s) := by
  simp [step, serve, h]

@[simp] theorem takeEvent_params (rest : List Event) (cut : Option Nat) (s : State) :
    (takeEvent rest cut s).params = s.params := rfl
@[simp] theorem takeEvent_eng (rest : List Event) (cut : Option Nat) (s : State) :
    (takeEvent rest cut s).eng = s.eng := rfl
@[simp] theorem takeEvent_env (rest : List Event) (cut : Option Nat) (s : State) :
    (takeEvent rest cut s).env = { s.env with inbox := rest, rstIn := cut } := rfl

theorem takeEvent_presentWord (w : Word) (s : State) :
    takeEvent s.env.inbox none (presentWord w s) = { s with env.rstIn := none } := rfl

/-! ### A command that RST cuts short -/

theorem answer_cut {s : State} (st val : Nat) (h : s.env.rstIn ≠ none) :
    answer st val s = .next (hardReset s) := by
  simp [answer, Option.isSome_iff_ne_none, h]

/-- RST stays due until the command is over, and no command writes the parameters (rules R20, R230). -/
theorem bodyOf_cut (i : Instr) {s : State} (h : s.env.rstIn ≠ none) :
    (bodyOf i s).Leaves fun u => u.env.rstIn ≠ none ∧ u.params = s.params := by
  refine bodyOf_leaves i ⟨h, rfl⟩ (fun _ _ _ hu => hu) ?_ ?_
  · intro u v m hu
    cases m <;> simpa [Env.transacted] using hu
  · intro u v m hu
    cases m <;> simpa [Env.transacted] using hu

theorem conclude_cut {op sym : Nat} {r : Run Nat} {p : Params} {t : State}
    (hr : r.Leaves fun u => u.env.rstIn ≠ none ∧ u.params = p) (h : conclude op sym r = .next t) :
    ∃ u, u.params = p ∧ t = hardReset u := by
  rcases conclude_next h with ⟨v, u, rfl, hn, -⟩ | ⟨c, u, rfl, hn, -⟩ | ⟨v, u, rfl, -, ht⟩ | ⟨c, u, rfl, -, ht⟩ |
    ⟨u, rfl, ht⟩
  · exact absurd hn hr.1
  · exact absurd hn hr.1
  · exact ⟨u, hr.2, ht⟩
  · exact ⟨enterFault c op sym u, hr.2, ht⟩
  · exact ⟨u, hr.2, ht⟩

theorem exec_cut {i : Instr} {s t : State} (hr : s.env.rstIn ≠ none) (h : exec i s = .next t) :
    ∃ u, u.params = s.params ∧ t = hardReset u := by
  by_cases hc : s.eng.FAULT = false ∨ RunsFaulted i
  · rw [exec_of_runs hc] at h
    exact conclude_cut (bodyOf_cut i hr) h
  · rw [not_or, Bool.not_eq_false] at hc
    rw [exec_refused hc.1 hc.2, answer_cut _ _ hr] at h
    exact ⟨s, rfl, (Host.Outcome.next.inj h).symm⟩

theorem issueMalformed_cut {w : Word} {s t : State} (hr : s.env.rstIn ≠ none) (h : issueMalformed w s = .next t) :
    ∃ u, u.params = s.params ∧ t = hardReset u := by
  unfold issueMalformed at h
  split at h
  · rw [answer_cut _ _ hr] at h
    exact ⟨s, rfl, (Host.Outcome.next.inj h).symm⟩
  · exact conclude_cut (r := raise .illegalCommand s) ⟨hr, rfl⟩ h

/-- Whatever the word, RST before its response leaves the reset state (rule R230). -/
theorem runWord_cut {w : Word} {s t : State} (hr : s.env.rstIn ≠ none) (h : runWord w s = .next t) :
    ∃ u, u.params = s.params ∧ t = hardReset u := by
  cases hd : decode w with
  | instr i => exact exec_cut hr (runWord_instr s hd ▸ h)
  | bad e => exact issueMalformed_cut hr (runWord_bad s hd ▸ h)

/-! ### A word that is not well formed, and the two commands that run while `FAULT = 1` -/

/-- A malformed word is refused or faults; either way it runs nothing (rules R75, R212). -/
theorem issueMalformed_next {w : Word} {s t : State} (hr : s.env.rstIn = none) (h : issueMalformed w s = .next t) :
    (s.eng.FAULT = true ∧ t = s.answered s.eng.CAUSE.toNat 0) ∨
    (s.eng.FAULT = false ∧ t = s.faulted 6 (opField w) (symField w) 0) := by
  unfold issueMalformed at h
  split at h
  · rw [answer_undisturbed _ _ hr] at h
    exact .inl ⟨by assumption, (Host.Outcome.next.inj h).symm⟩
  · rw [conclude_raise _ _ _ hr] at h
    exact .inr ⟨Bool.eq_false_of_not_eq_true (by assumption), (Host.Outcome.next.inj h).symm⟩

theorem exec_reset {s : State} (hr : s.env.rstIn = none) :
    exec .reset s = .next ((resetEngine s).answered 0 0) := conclude_done 0x01 0 0 (s := resetEngine s) hr

theorem exec_rdreg {s : State} (r : Nat) (hr : s.env.rstIn = none) :
    exec (.rdreg r) s = .next (s.answered 0 (regValue s r)) :=
  conclude_done 0x02 r (regValue s r) hr

/-! ### The reset state -/

theorem afterReset_atReset (p : Params) (ram : List Nat) : AtReset p (Engine.afterReset p ram) := by
  simp [AtReset, Engine.afterReset, Params.MASK]

/-- A reset engine meets the invariant, whatever its RAM holds (rules R33, R49). -/
theorem inv_afterReset {s : State} {ram : List Nat} (hp : s.params.Legal) (hw : Memory.wf s.params ram = true)
    (hs : s.eng = Engine.afterReset s.params ram) : Inv s := by
  refine ⟨hp, ?_⟩
  simp [RegistersFit, TableExact, IntervalSettled, CodeInside, NothingOwedInDecode, FaultLatchExact, hs,
    Engine.afterReset, Params.MASK, hw]

theorem inv_resetEngine {s : State} (hp : s.params.Legal) : Inv (resetEngine s) :=
  inv_afterReset hp (Memory.afterReset_wf s.params s.fresh) rfl

theorem inv_hardReset {s : State} (hp : s.params.Legal) : Inv (hardReset s) := inv_resetEngine hp

theorem standard_legal : Params.standard.Legal := by decide

/-- Past the last register of rule R36 the register map reads 0. -/
theorem regValue_above {s : State} {r : Nat} (h : 13 < r) : regValue s r = 0 := by
  unfold regValue
  split <;> omega

end Sys2Proof.Machine
end

section
/-! CERTIFICATES. The tier 1 statements of the family, from the laws above. -/

namespace Sys2Proof.Machine

/-- Settles O7: the word decodes to its command, and taking the event leaves the state as it was. -/
theorem presentedWordIsTheNextOneRun : Obligations.PresentedWordIsTheNextOneRun := by
  unfold Obligations.PresentedWordIsTheNextOneRun
  intro i s hi
  have hw : BitVec.ofNat 64 ((encode i).toNat % 2 ^ 64) = encode i :=
    BitVec.eq_of_toNat_eq (by rw [BitVec.toNat_ofNat, Nat.mod_mod, Nat.mod_eq_of_lt (encode i).isLt])
  rw [State.withFetchWord, hw, step_cmd rfl, runWord_instr _ (decode_encode hi), takeEvent_presentWord]

/-- Settles O8: both resets put in `Engine.afterReset`, and power-on starts from it. -/
theorem eitherResetLeavesTheResetState : Obligations.EitherResetLeavesTheResetState := by
  unfold Obligations.EitherResetLeavesTheResetState
  refine ⟨fun s hr => ?_, fun s rest hi => ?_, fun p => afterReset_atReset p _⟩
  · exact ⟨_, exec_reset hr, resetEngine_atReset s, rfl, rfl⟩
  · exact ⟨_, step_rst hi, hardReset_atReset (takeEvent rest none s), rfl, rfl⟩

/-- Settles O10: `RDREG` leaves the state alone, and each row of the map is the register's value. -/
theorem rdregReadsTheRegisterMap : Obligations.RdregReadsTheRegisterMap := by
  unfold Obligations.RdregReadsTheRegisterMap
  intro s r hr
  refine ⟨exec_rdreg r hr, ⟨rfl, rfl, rfl, rfl⟩, ?_, rfl, rfl, rfl, rfl, rfl, rfl, rfl, rfl, ?_, ?_, rfl, ?_, rfl,
    regValue_above⟩
  · simp only [regValue, statusValue]
    omega
  · simp only [regValue]
    omega
  · simp only [regValue]
    omega
  · simp only [regValue, config0]
    omega

/-- Settles O28: the reset engine meets the invariant over any RAM of the RAM's form, the shown zeros among them. -/
theorem invariantHoldsAtReset : Obligations.InvariantHoldsAtReset := by
  unfold Obligations.InvariantHoldsAtReset
  exact ⟨inv_afterReset standard_legal reset_wf rfl, fun p ram hp hw => inv_afterReset hp hw rfl⟩

end Sys2Proof.Machine
end

section
/-! SUPPORT. What the frame of a command's pseudocode (`CommandFrame`) says of each register, and how it passes to
the state the command's answer leaves. -/

namespace Sys2Proof.Machine

/-- Whatever holds of the state a command's pseudocode leaves, the command is refused, or it leaves such a state with
its answer or its fault recorded (rules R72, R78, R210, R212). -/
theorem exec_next_leaves {P : State → Prop} {i : Instr} {s t : State} (hP : (bodyOf i s).Leaves P)
    (hr : s.env.rstIn = none) (h : exec i s = .next t) :
    (s.eng.FAULT = true ∧ ¬ RunsFaulted i ∧ t = s.answered s.eng.CAUSE.toNat 0) ∨
    ∃ u, P u ∧ ((∃ v, t = u.answered 0 v) ∨
      ∃ c, t = u.faulted (causeCode c) (opcodeOf i) (symOf i) (portBit c)) := by
  rcases exec_next hr h with h | ⟨-, ⟨v, u, h2, h3⟩ | ⟨c, u, h2, h3⟩⟩
  · exact .inl h
  · rw [h2] at hP
    exact .inr ⟨u, hP, .inl ⟨v, h3⟩⟩
  · rw [h2] at hP
    exact .inr ⟨u, hP, .inr ⟨c, h3⟩⟩

/-- The only transitions of `MODE` (rule R31). -/
theorem CommandFrame.mode {i : Instr} {s u : State} (h : CommandFrame s i u) (hm : u.eng.MODE ≠ s.eng.MODE) :
    (i = .reset ∧ u.eng.MODE = .idle) ∨
    (i = .einit ∧ s.eng.MODE = .idle ∧ u.eng.MODE = .enc) ∨
    (i = .efinish ∧ s.eng.MODE = .enc ∧ u.eng.MODE = .encDone) ∨
    (i = .dinit ∧ s.eng.MODE = .idle ∧ u.eng.MODE = .dec) := by
  cases i <;> simp only [CommandFrame] at h
  case reset =>
    subst h
    exact .inl ⟨rfl, rfl⟩
  case rdreg | tget | ttot => exact absurd (by rw [h]) hm
  case tinit => rcases h with h | ⟨-, -, -, h⟩ <;> exact absurd (by simp [h]) hm
  case tset | tinc => rcases h with h | ⟨-, -, h⟩ <;> exact absurd (by simp [h]) hm
  case tclo | tchi => rcases h with h | ⟨-, h⟩ <;> exact absurd (by simp [h]) hm
  case einit =>
    rcases h with h | ⟨hi, h⟩
    · exact absurd (by rw [h]) hm
    · exact .inr (.inl ⟨rfl, hi, by rw [h]; rfl⟩)
  case ewrite | dread =>
    rcases h with h | ⟨-, h, -⟩
    · exact absurd (by rw [h]) hm
    · exact absurd (by rw [h]; rfl) hm
  case efinish =>
    rcases h with h | ⟨he, -, ⟨h, -⟩ | ⟨h, -⟩⟩
    · exact absurd (by rw [h]) hm
    · exact absurd (by rw [h]) hm
    · exact .inr (.inr (.inl ⟨rfl, he, by rw [h]; rfl⟩))
  case dinit =>
    rcases h with h | ⟨hi, h, -⟩
    · exact absurd (by rw [h]) hm
    · exact .inr (.inr (.inr ⟨rfl, hi, by rw [h]; rfl⟩))

/-- What each unit's commands leave alone, over the state a command's pseudocode leaves (rules R20 to R30, R50). -/
abbrev UnitFrame (i : Instr) (s u : State) : Prop :=
  ((∀ sym, i ≠ .ewrite sym) → i ≠ .efinish →
    u.env.sink = s.env.sink ∧ u.env.sinkAnswers = s.env.sinkAnswers) ∧
  (i ≠ .dinit → i ≠ .dread → u.env.source = s.env.source ∧ u.eng.ibuf = s.eng.ibuf ∧
    u.eng.inb = s.eng.inb ∧ u.eng.eof = s.eng.eof ∧ u.eng.padcnt = s.eng.padcnt) ∧
  (i ≠ .einit → i ≠ .dinit → i ≠ .dread → u.eng.code = s.eng.code) ∧
  (i ≠ .einit → (∀ sym, i ≠ .ewrite sym) → i ≠ .efinish → u.eng.obuf = s.eng.obuf ∧ u.eng.onb = s.eng.onb) ∧
  (i ≠ .einit → (∀ sym, i ≠ .ewrite sym) → i ≠ .efinish → i ≠ .dinit → u.eng.pend = s.eng.pend) ∧
  (i ≠ .einit → (∀ sym, i ≠ .ewrite sym) → i ≠ .dinit → i ≠ .dread →
    u.eng.low = s.eng.low ∧ u.eng.high = s.eng.high) ∧
  ((∀ n, i ≠ .tinit n) → (∀ sym f, i ≠ .tset sym f) → (∀ sym, i ≠ .tinc sym) →
    u.eng.F = s.eng.F ∧ u.eng.TOTAL = s.eng.TOTAL ∧ u.eng.NSYM = s.eng.NSYM)

theorem UnitFrame.refl (i : Instr) (s : State) : UnitFrame i s s := by
  unfold UnitFrame
  simp

theorem CommandFrame.unitFrame {i : Instr} {s u : State} (h : CommandFrame s i u) (hi : i ≠ .reset) :
    UnitFrame i s u := by
  unfold UnitFrame
  cases i <;> simp only [CommandFrame] at h
  case reset => exact absurd rfl hi
  case rdreg | tget | ttot => subst h; simp
  case tinit => rcases h with rfl | ⟨-, -, -, rfl⟩ <;> simp
  case tset | tinc => rcases h with rfl | ⟨-, -, rfl⟩ <;> simp
  case tclo | tchi | einit => rcases h with rfl | ⟨-, rfl⟩ <;> simp
  case ewrite | dinit | dread =>
    rcases h with rfl | ⟨-, heng, henv, -⟩
    · simp
    · rw [heng, henv]
      simp
  case efinish =>
    rcases h with rfl | ⟨-, ⟨hlow, hhigh⟩, ⟨heng, henv, -⟩ | ⟨heng, henv, -⟩⟩
    · simp
    · rw [heng, henv]
      simp [hlow, hhigh]
    · rw [heng, henv]
      simp [hlow, hhigh]

/-- No command writes the parameters, `RESET` included (rules R20, R231). -/
theorem CommandFrame.params {i : Instr} {s u : State} (h : CommandFrame s i u) : u.params = s.params := by
  cases i <;> simp only [CommandFrame] at h
  case reset | rdreg | tget | ttot => simp [h]
  case tinit => rcases h with h | ⟨-, -, -, h⟩ <;> simp [h]
  case tset | tinc => rcases h with h | ⟨-, -, h⟩ <;> simp [h]
  case tclo | tchi | einit => rcases h with h | ⟨-, h⟩ <;> simp [h]
  case ewrite | dinit | dread =>
    rcases h with h | ⟨-, -, -, h, -⟩
    · rw [h]
    · exact h
  case efinish =>
    rcases h with h | ⟨-, -, ⟨-, -, h, -⟩ | ⟨-, -, h, -⟩⟩
    · rw [h]
    · exact h
    · exact h

/-- A table write in `IDLE` is the only command beside `RESET` that changes the alphabet size (rules R28, R124). -/
theorem CommandFrame.nsym {i : Instr} {s u : State} (h : CommandFrame s i u) (hn : u.eng.NSYM ≠ s.eng.NSYM) :
    i = .reset ∨ ∃ n, i = .tinit n ∧ s.eng.MODE = .idle ∧ u.eng.NSYM = n := by
  cases i
  case reset => exact .inl rfl
  case tinit n =>
    rcases h with rfl | ⟨hm, -, -, rfl⟩
    · exact absurd rfl hn
    · exact .inr ⟨n, rfl, hm, rfl⟩
  case tset | tinc =>
    rcases h with rfl | ⟨-, -, rfl⟩
    · exact absurd rfl hn
    · exact absurd rfl hn
  all_goals
    obtain ⟨-, -, -, -, -, -, ht⟩ := h.unitFrame (by simp)
    exact absurd (ht (by simp) (by simp) (by simp)).2.2 hn

/-! ### The table's total -/

/-- The sum over an alphabet that fits the RAM is bounded by the entries' width (rules R27, R29). -/
theorem TableExact.total_le {s : State} (h : TableExact s) : s.eng.TOTAL ≤ s.params.NMAX * s.params.MAXTOTAL := by
  obtain ⟨hwf, hn, ht⟩ := h
  obtain ⟨-, hlt⟩ := Memory.wf_iff.1 hwf
  have hentry : ∀ v ∈ s.eng.F.take s.eng.NSYM, v ≤ s.params.MAXTOTAL := fun v hv =>
    Nat.le_sub_one_of_lt (hlt v (List.mem_of_mem_take hv))
  calc s.eng.TOTAL = (s.eng.F.take s.eng.NSYM).sum := ht
    _ ≤ (s.eng.F.take s.eng.NSYM).length * s.params.MAXTOTAL := by
      simpa using List.sum_le_card_nsmul _ _ hentry
    _ ≤ s.params.NMAX * s.params.MAXTOTAL :=
      Nat.mul_le_mul_right _ ((List.length_take_le _ _).trans hn)

/-- `NMAX * (2^(W-2) - 1) < 2^CW` (rule R29). -/
theorem total_bound_lt (p : Params) : p.NMAX * p.MAXTOTAL < 2 ^ (p.W - 2 + Nat.clog 2 (p.NMAX + 1)) := by
  have hclog : p.NMAX < 2 ^ Nat.clog 2 (p.NMAX + 1) := Nat.le_pow_clog (by decide) (p.NMAX + 1)
  calc p.NMAX * p.MAXTOTAL ≤ p.NMAX * 2 ^ (p.W - 2) := Nat.mul_le_mul_left _ (Nat.sub_le _ _)
    _ < 2 ^ Nat.clog 2 (p.NMAX + 1) * 2 ^ (p.W - 2) := Nat.mul_lt_mul_of_pos_right hclog (by positivity)
    _ = 2 ^ (p.W - 2 + Nat.clog 2 (p.NMAX + 1)) := by rw [← pow_add, Nat.add_comm]

/-- `CW <= 46` (rule R29). -/
theorem cw_le_of_legal {p : Params} (h : p.Legal) : p.W - 2 + Nat.clog 2 (p.NMAX + 1) ≤ 46 := by
  obtain ⟨-, hW, -, hN, -⟩ := h
  have hclog : Nat.clog 2 (p.NMAX + 1) ≤ 16 := Nat.clog_le_of_le_pow (by omega)
  omega

end Sys2Proof.Machine
end

section
/-! CERTIFICATES. The tier 2 statements of the family, from the frames above. -/

namespace Sys2Proof.Machine

/-- Settles O21: a refused command keeps the engine, and an answer or a fault does not write `MODE`. -/
theorem modeChangesOnlyAsTheSpecLists : Obligations.ModeChangesOnlyAsTheSpecLists := by
  unfold Obligations.ModeChangesOnlyAsTheSpecLists
  intro i s t hr h hm
  rcases exec_next_leaves (bodyOf_frame i s) hr h with ⟨-, -, rfl⟩ | ⟨u, hu, ⟨v, rfl⟩ | ⟨c, rfl⟩⟩
  · exact absurd rfl hm
  · exact hu.mode hm
  · exact hu.mode hm

/-- With a fault latched a presented word is refused or reads a register, so that the engine stays as it is, or it is
`RESET` (rules R78, R212). -/
theorem runWord_faulted {w : Word} {s t : State} (hf : s.eng.FAULT = true) (hr : s.env.rstIn = none)
    (h : runWord w s = .next t) : t.eng = s.eng ∨ (decode w = .instr .reset ∧ t = (resetEngine s).answered 0 0) := by
  cases hd : decode w with
  | bad e =>
    rw [runWord_bad s hd] at h
    rcases issueMalformed_next hr h with ⟨-, rfl⟩ | ⟨hn, -⟩
    · exact .inl rfl
    · simp [hf] at hn
  | instr i =>
    rw [runWord_instr s hd] at h
    by_cases hi : RunsFaulted i
    · rcases hi with rfl | ⟨r, rfl⟩
      · rw [exec_reset hr] at h
        exact .inr ⟨rfl, (Host.Outcome.next.inj h).symm⟩
      · rw [exec_rdreg r hr] at h
        exact .inl (by rw [← Host.Outcome.next.inj h]; rfl)
    · rw [exec_refused hf hi, answer_undisturbed _ _ hr] at h
      exact .inl (by rw [← Host.Outcome.next.inj h]; rfl)

/-- Settles O22, by the host's next event. -/
theorem latchedFaultStaysUntilReset : Obligations.LatchedFaultStaysUntilReset := by
  unfold Obligations.LatchedFaultStaysUntilReset
  intro s t hf h
  match hi : s.env.inbox with
  | [] =>
    rw [step_idle hi] at h
    exact .inl (by rw [Host.Outcome.next.inj h])
  | .rst :: rest =>
    rw [step_rst hi] at h
    obtain rfl := Host.Outcome.next.inj h
    exact .inr ⟨hardReset_atReset (takeEvent rest none s), .inl ⟨rest, rfl⟩⟩
  | .cmdCutByRst w k :: rest =>
    rw [step_cmdCutByRst hi] at h
    obtain ⟨u, hu, rfl⟩ := runWord_cut (by simp) h
    rw [takeEvent_params] at hu
    exact .inr ⟨hu ▸ hardReset_atReset u, .inr (.inl ⟨w, k, rest, rfl⟩)⟩
  | .cmd w :: rest =>
    rw [step_cmd hi] at h
    rcases runWord_faulted (by exact hf) (by rfl) h with he | ⟨hd, rfl⟩
    · exact .inl he
    · exact .inr ⟨resetEngine_atReset (takeEvent rest none s), .inr (.inr ⟨w, rest, rfl, hd⟩)⟩

/-- Settles O23: a refused command keeps the engine, and an answer or a fault does not write `NSYM`. -/
theorem alphabetSizeIsFixedInASession : Obligations.AlphabetSizeIsFixedInASession := by
  unfold Obligations.AlphabetSizeIsFixedInASession
  intro i s t hr h hn
  rcases exec_next_leaves (bodyOf_frame i s) hr h with ⟨-, -, rfl⟩ | ⟨u, hu, ⟨v, rfl⟩ | ⟨c, rfl⟩⟩
  · exact absurd rfl hn
  · exact hu.nsym hn
  · exact hu.nsym hn

/-- The units' frames pass from the state a command's pseudocode leaves to the state after its answer, which records a
response or a fault and writes no unit (rules R72, R210). -/
theorem exec_next_unitFrame {i : Instr} {s t : State} (hr : s.env.rstIn = none) (h : exec i s = .next t)
    (hi : i ≠ .reset) :
    t.params = s.params ∧ t.env.inbox = s.env.inbox ∧ t.env.rstIn = none ∧ UnitFrame i s t := by
  have hP : (bodyOf i s).Leaves fun u => CommandFrame s i u ∧ u.env.rstIn = none := by
    have hf := bodyOf_frame i s
    have hu := bodyOf_undisturbed i hr
    cases hb : bodyOf i s with
    | done v u => rw [hb] at hf hu; exact ⟨hf, hu⟩
    | stop w u => rw [hb] at hf hu; exact ⟨hf, hu⟩
  rcases exec_next_leaves hP hr h with ⟨-, -, rfl⟩ | ⟨u, ⟨hf, hu⟩, ⟨v, rfl⟩ | ⟨c, rfl⟩⟩
  · exact ⟨rfl, rfl, hr, UnitFrame.refl i s⟩
  · obtain ⟨-, -, -, -, hin⟩ := hf.fault hi
    exact ⟨hf.params, hin, hu, hf.unitFrame hi⟩
  · obtain ⟨-, -, -, -, hin⟩ := hf.fault hi
    exact ⟨hf.params, hin, hu, hf.unitFrame hi⟩

/-- Settles O26: the units' frames, and `RDREG`'s own answer. -/
theorem eachUnitTouchesOnlyItsOwnState : Obligations.EachUnitTouchesOnlyItsOwnState := by
  unfold Obligations.EachUnitTouchesOnlyItsOwnState
  intro i s t hr h hi
  obtain ⟨hp, hin, hrst, hu⟩ := exec_next_unitFrame hr h hi
  refine ⟨hp, hin, hrst, ?_, hu⟩
  rintro ⟨r, rfl⟩
  rw [exec_rdreg r hr] at h
  rw [← Host.Outcome.next.inj h]
  rfl

/-- Settles O31: the sum is bounded entry by entry, and `CW` bits hold the bound. -/
theorem totalAlwaysFitsItsRegister : Obligations.TotalAlwaysFitsItsRegister := by
  unfold Obligations.TotalAlwaysFitsItsRegister
  rintro s ⟨hp, -, ht, -⟩
  exact ⟨ht.total_le, ht.total_le.trans_lt (total_bound_lt s.params), cw_le_of_legal hp⟩

end Sys2Proof.Machine
end

section
/-! SUPPORT. The invariant of rule R33 part by part: the table's part and what is owed follow from the frame of each
command's pseudocode, the coder's registers from the specs of narrowing, renormalisation and the bit stream. -/

namespace Sys2Proof.Machine

/-! ### The table -/

/-- A table write moves the sum over the alphabet by the difference at the entry written (rules R29, R125). -/
theorem Memory.sum_take_write {f : List Nat} {k n : Nat} (v : Nat) (hk : k < n) (hn : n ≤ f.length) :
    ((Memory.write f k v).take n).sum + f.getD k 0 = (f.take n).sum + v := by
  have hread : (f.take n).getD k 0 = f.getD k 0 := by simp [hk]
  have := Memory.sum_write (f.take n) k v (by rw [List.length_take]; omega)
  rwa [hread, Memory.write, ← List.take_set] at this

theorem Memory.sum_take_zeroFirst (f : List Nat) (n : Nat) : ((Memory.zeroFirst f n).take n).sum = 0 := by
  simp [Memory.zeroFirst]

/-- The entry of a symbol is part of the total. -/
theorem TableExact.freqAt_le_total {s : State} {sym : Nat} (h : TableExact s) (hs : sym < s.eng.NSYM) :
    freqAt s.eng sym ≤ s.eng.TOTAL := by
  obtain ⟨hwf, hn, ht⟩ := h
  have := Memory.sum_take_write 0 hs (hn.trans_eq (Memory.wf_iff.1 hwf).1.symm)
  rw [ht, freqAt]
  omega

/-- The cumulative frequencies of the alphabet do not pass the total (rule R121). -/
theorem TableExact.cum_le_total {s : State} {i : Nat} (h : TableExact s) (hi : i ≤ s.eng.NSYM) :
    cum s.eng i ≤ s.eng.TOTAL := by
  rw [h.2.2, cum]
  exact (List.take_sublist_take_left hi).sum_le_sum fun _ _ => Nat.zero_le _

/-- What every table write of rules R125 and R126 does to an exact table. -/
theorem TableExact.write {s : State} {sym v t : Nat} (h : TableExact s) (hs : sym < s.eng.NSYM)
    (hv : v ≤ s.params.MAXTOTAL) (ht : t + freqAt s.eng sym = s.eng.TOTAL + v) :
    TableExact (s.setTable (Memory.write s.eng.F sym v) t) := by
  obtain ⟨hwf, hn, htot⟩ := h
  have := Memory.sum_take_write v hs (hn.trans_eq (Memory.wf_iff.1 hwf).1.symm)
  refine ⟨Memory.write_wf hwf hv, hn, ?_⟩
  change t = ((Memory.write s.eng.F sym v).take s.eng.NSYM).sum
  rw [freqAt, htot] at ht
  omega

/-- Every command keeps the table exact (rule R33 (f)). -/
theorem CommandFrame.tableExact {i : Instr} {s u : State} (h : CommandFrame s i u) (hi : i ≠ .reset)
    (hs : TableExact s) : TableExact u := by
  cases i
  case reset => exact absurd rfl hi
  case tinit n =>
    rcases h with rfl | ⟨-, -, hn, rfl⟩
    · exact hs
    · exact ⟨Memory.zeroFirst_wf hs.1 hn, hn, (Memory.sum_take_zeroFirst _ _).symm⟩
  case tset sym f =>
    rcases h with rfl | ⟨hsym, hf, rfl⟩
    · exact hs
    · have := hs.freqAt_le_total hsym
      exact hs.write hsym hf (by omega)
  case tinc sym =>
    rcases h with rfl | ⟨hsym, hf, rfl⟩
    · exact hs
    · exact hs.write hsym hf (by omega)
  all_goals
    obtain ⟨-, -, -, -, -, -, htable⟩ := h.unitFrame hi
    obtain ⟨hF, hT, hN⟩ := htable (by simp) (by simp) (by simp)
    unfold TableExact
    rwa [h.params, hF, hT, hN]

/-! ### What is owed -/

/-- Only `DINIT` leads into a decode session (rule R31). -/
theorem CommandFrame.decode_before {i : Instr} {s u : State} (h : CommandFrame s i u) (hm : u.eng.MODE = .dec)
    (hi : i ≠ .dinit) : s.eng.MODE = .dec := by
  by_contra hn
  rcases h.mode (by rw [hm]; exact Ne.symm hn) with ⟨-, hu⟩ | ⟨-, -, hu⟩ | ⟨-, -, hu⟩ | ⟨hd, -⟩
  · simp [hm] at hu
  · simp [hm] at hu
  · simp [hm] at hu
  · exact hi hd

/-- In a decode session nothing is owed: `DINIT` clears `pend`, and the commands that write it do so in no decode
session (rule R33 (c)). -/
theorem CommandFrame.nothingOwed {i : Instr} {s u : State} (h : CommandFrame s i u) (hi : i ≠ .reset)
    (hs : NothingOwedInDecode s) : NothingOwedInDecode u := by
  intro hm
  by_cases hd : i = .dinit
  · subst hd
    rcases h with rfl | ⟨-, heng, -⟩
    · exact hs hm
    · rw [heng]
      rfl
  · have hsm := h.decode_before hm hd
    cases i
    case reset => exact absurd rfl hi
    case dinit => exact absurd rfl hd
    case einit | ewrite | efinish =>
      rcases h with rfl | ⟨hmode, -⟩
      · exact hs hm
      · simp [hsm] at hmode
    all_goals
      obtain ⟨-, -, -, -, hpend, -⟩ := h.unitFrame hi
      rw [hpend (by simp) (by simp) (by simp) (by simp)]
      exact hs hsm

/-! ### Narrowing (rule R152) -/

theorem le_narrow_low {e : Engine} (sym : Nat) (h : e.low ≤ e.high) : (e.low : Int) ≤ (narrow e sym).1 := by
  have : 0 ≤ rangeOf e * cum e sym / e.TOTAL :=
    Int.ediv_nonneg (Int.mul_nonneg (by unfold rangeOf; omega) (by omega)) (by omega)
  simp only [narrow]
  omega

theorem narrow_high_le {e : Engine} {sym : Nat} (h : e.low ≤ e.high) (hT : 0 < e.TOTAL)
    (hc : cum e (sym + 1) ≤ e.TOTAL) : (narrow e sym).2 ≤ e.high := by
  have hR : 0 ≤ rangeOf e := by unfold rangeOf; omega
  have : rangeOf e * cum e (sym + 1) / e.TOTAL ≤ rangeOf e :=
    Int.ediv_le_of_le_mul (by omega) (Int.mul_le_mul_of_nonneg_left (by omega) hR)
  simp only [narrow]
  unfold rangeOf at *
  omega

/-- The core of rule R185, below: a symbol whose cumulative frequency does not pass the decoded value has its new
lower bound at or below `code`. -/
theorem narrow_low_le_code {e : Engine} {sym : Nat} (h : e.low ≤ e.high) (hT : 0 < e.TOTAL)
    (hv : (cum e sym : Int) ≤ decodeValue e) : (narrow e sym).1 ≤ e.code := by
  have hR : 0 < rangeOf e := by unfold rangeOf; omega
  have hmul : cum e sym * rangeOf e ≤ ((e.code : Int) - e.low + 1) * e.TOTAL - 1 :=
    (Int.le_ediv_iff_mul_le hR).1 hv
  have : rangeOf e * cum e sym / e.TOTAL < (e.code : Int) - e.low + 1 :=
    (Int.ediv_lt_iff_lt_mul (by omega)).2 (by rw [Int.mul_comm]; omega)
  simp only [narrow]
  omega

/-- The core of rule R185, above: a symbol whose next cumulative frequency passes the decoded value has its new upper
bound at or above `code`. -/
theorem code_le_narrow_high {e : Engine} {sym : Nat} (h : e.low ≤ e.high) (hT : 0 < e.TOTAL)
    (hv : decodeValue e < cum e (sym + 1)) : (e.code : Int) ≤ (narrow e sym).2 := by
  have hR : 0 < rangeOf e := by unfold rangeOf; omega
  have hmul : ((e.code : Int) - e.low + 1) * e.TOTAL - 1 < cum e (sym + 1) * rangeOf e :=
    (Int.ediv_lt_iff_lt_mul hR).1 hv
  have : (e.code : Int) - e.low + 1 ≤ rangeOf e * cum e (sym + 1) / e.TOTAL :=
    (Int.le_ediv_iff_mul_le (by omega)).2 (by rw [Int.mul_comm (rangeOf e)]; omega)
  simp only [narrow]
  omega

/-- Narrowing writes the bounds of rule R152, which lie in order inside the old ones, or raises a range error and
writes nothing. -/
theorem narrowTo_spec {sym : Nat} {s : State} (h : s.eng.low ≤ s.eng.high) (hT : 0 < s.eng.TOTAL)
    (hc : cum s.eng (sym + 1) ≤ s.eng.TOTAL) :
    (narrowTo sym s).Ends
      (fun _ t => ∃ l r : Nat, t = s.setBounds l r ∧ (l : Int) = (narrow s.eng sym).1 ∧
        (r : Int) = (narrow s.eng sym).2 ∧ s.eng.low ≤ l ∧ l ≤ r ∧ r ≤ s.eng.high)
      (fun _ t => t = s) := by
  have hlow := le_narrow_low sym h
  have hhigh := narrow_high_le h hT hc
  unfold narrowTo
  dsimp only
  split
  · rfl
  · exact ⟨_, _, rfl, by omega, by omega, by omega, by omega, by omega⟩

/-- What `FindSymbol` finds (rule R183). -/
theorem findSymbol_some {e : Engine} {value : Int} {sym : Nat} (h : findSymbol e value = some sym) :
    sym < e.NSYM ∧ (cum e sym : Int) ≤ value ∧ value < cum e (sym + 1) := by
  have hmem := List.mem_of_find?_eq_some h
  have hval := List.find?_some h
  simp only [Bool.and_eq_true, decide_eq_true_eq] at hval
  exact ⟨List.mem_range.1 hmem, hval⟩

theorem total_pos_of_tableValid {s : State} (h : ¬ tableValid s = false) : 0 < s.eng.TOTAL := by
  simp only [tableValid, Bool.not_eq_false, Bool.and_eq_true, decide_eq_true_eq] at h
  omega

/-! ### The coder's registers -/

/-- The part of rule R33 that speaks of the coder's registers and the bit stream unit's. -/
def CoderSound (t : State) : Prop := RegistersFit t ∧ IntervalSettled t ∧ CodeInside t

/-- How a command's pseudocode keeps the coder sound: run to its end it leaves all of it, stopped early it leaves every
register within its width. -/
abbrev Run.KeepsCoder (r : Run Nat) : Prop := r.Ends (fun _ => CoderSound) (fun _ => RegistersFit)

theorem Run.Leaves.keepsCoder {r : Run Nat} (h : r.Leaves CoderSound) : r.KeepsCoder := by
  cases r with
  | done v u => exact h
  | stop w u => exact h.1

theorem le_pendmax_iff {p : Params} {v : Nat} : v ≤ p.PENDMAX ↔ v < 2 ^ p.PW :=
  (Nat.lt_iff_le_pred (by positivity)).symm

/-- A command that writes neither the coder nor the bit stream unit keeps them sound (rule R33). -/
theorem CommandFrame.coderSound {i : Instr} {s u : State} (h : CommandFrame s i u) (hs : CoderSound s)
    (h0 : i ≠ .reset) (h1 : i ≠ .einit) (h2 : ∀ sym, i ≠ .ewrite sym) (h3 : i ≠ .efinish) (h4 : i ≠ .dinit)
    (h5 : i ≠ .dread) : CoderSound u := by
  obtain ⟨-, hsource, hcode, hpacker, hpend, hbounds, -⟩ := h.unitFrame h0
  obtain ⟨-, -, -, -, hpad⟩ := hsource h4 h5
  obtain ⟨hobuf, honb⟩ := hpacker h1 h2 h3
  obtain ⟨hlow, hhigh⟩ := hbounds h1 h2 h4 h5
  obtain ⟨hfault, -⟩ := h.fault h0
  have hmode : u.eng.MODE = s.eng.MODE := by
    by_contra hm
    rcases h.mode hm with ⟨hi, -⟩ | ⟨hi, -⟩ | ⟨hi, -⟩ | ⟨hi, -⟩
    exacts [h0 hi, h1 hi, h3 hi, h4 hi]
  unfold CoderSound RegistersFit IntervalSettled CodeInside
  rwa [h.params, hlow, hhigh, hcode h1 h4 h5, hpend h1 h2 h3 h4, hobuf, honb, hpad, hfault, hmode]

theorem CodedPart.registersFit {s t : State} (h : CodedPart s t) (hs : RegistersFit s)
    (hq : t.eng.pend ≤ s.params.PENDMAX) : RegistersFit t := by
  obtain ⟨hobuf, hlow, hhigh, ht⟩ := h
  have hp : t.params = s.params := by rw [ht]
  have hcode : t.eng.code = s.eng.code := by rw [ht]
  have hpad : t.eng.padcnt = s.eng.padcnt := by rw [ht]
  obtain ⟨-, -, hc, -, -, hpd⟩ := hs
  unfold RegistersFit
  rw [hp, hcode, hpad]
  exact ⟨hlow, hhigh, hc, le_pendmax_iff.1 hq, hobuf, hpd⟩

theorem Coded.codedPart {s t : State} {l h q : Nat} {bits : List Bool} (H : Coded s l h bits q t)
    (hl : l < s.params.FULL) (hh : h < s.params.FULL) : CodedPart s t := by
  obtain ⟨hlow, hhigh, hpend, -⟩ := H.registers
  obtain ⟨-, hobuf, ht, -⟩ := H
  refine ⟨hobuf, hlow ▸ hl, hhigh ▸ hh, ?_⟩
  rw [hlow, hhigh, hpend]
  exact ht

theorem Wrote.coded {s t : State} {bits : List Bool} {q : Nat} (h : Wrote s bits q t) :
    Coded s s.eng.low s.eng.high bits q t := h

theorem SinkFailed.codedPart {s t : State} {w : Stop} (h : SinkFailed s w t) (hs : RegistersFit s) :
    CodedPart s t := by
  obtain ⟨-, -, hobuf, -, ht⟩ := h
  have hlow : t.eng.low = s.eng.low := by rw [ht]
  have hhigh : t.eng.high = s.eng.high := by rw [ht]
  refine ⟨hobuf, hlow ▸ hs.1, hhigh ▸ hs.2.1, ?_⟩
  rw [hlow, hhigh]
  exact ht

theorem ReadFrame.registersFit {s t : State} (h : ReadFrame s t) (hpad : PadKept s t) (hs : RegistersFit s)
    (hlow : t.eng.low < s.params.FULL) (hhigh : t.eng.high < s.params.FULL) (hcode : t.eng.code < s.params.FULL) :
    RegistersFit t := by
  have hp : t.params = s.params := by rw [h]
  have hpend : t.eng.pend = s.eng.pend := by rw [h]
  have hobuf : t.eng.obuf = s.eng.obuf := by rw [h]
  have honb : t.eng.onb = s.eng.onb := by rw [h]
  obtain ⟨-, -, -, hq, ho, hpd⟩ := hs
  have hpd := hpad hpd
  unfold RegistersFit
  rw [hp] at hpd ⊢
  rw [hpend, hobuf, honb]
  exact ⟨hlow, hhigh, hcode, hq, ho, hpd⟩

theorem einitBody_keepsCoder {s : State} (hs : Inv s) : (einitBody s).KeepsCoder := by
  obtain ⟨hp, hfit, -⟩ := hs
  have hq := sizes_of_legal hp
  unfold einitBody
  split
  · exact hfit
  · obtain ⟨-, -, -, -, -, hpd⟩ := hfit
    have hfull : 0 < 2 ^ s.params.W := by positivity
    refine ⟨⟨hfull, Nat.sub_lt hfull one_pos, hfull, by positivity, by simp, hpd⟩, fun _ _ => ?_, fun _ hm => ?_⟩
    · change 0 < s.params.HALF ∧ s.params.HALF ≤ s.params.MASK ∧
        ¬ (s.params.QUARTER ≤ 0 ∧ s.params.MASK < s.params.HALF + s.params.QUARTER)
      omega
    · cases hm

/-- `EWRITE` narrows inside the old bounds, and its renormalisation settles the new ones (rules R152, R153, R158). -/
theorem ewriteBody_keepsCoder (sym : Nat) {s : State} (hs : Inv s) (hr : s.env.rstIn = none)
    (hf : s.eng.FAULT = false) : (ewriteBody sym s).KeepsCoder := by
  obtain ⟨hp, hfit, ht, hset, -⟩ := hs
  have hq := sizes_of_legal hp
  unfold ewriteBody
  split
  · exact hfit
  rename_i hm
  split
  · exact hfit
  rename_i hsym
  split
  · exact hfit
  rename_i hv
  split
  · exact hfit
  have hm : s.eng.MODE = .enc := not_not.1 hm
  obtain ⟨-, hhigh, -, hpend, hobuf, -⟩ := id hfit
  obtain ⟨hlo, hhi, -⟩ := hset hf (.inl hm)
  refine (narrowTo_spec (s := s.setCV) (sym := sym) (by change s.eng.low ≤ s.eng.high; omega)
    (total_pos_of_tableValid hv) (ht.cum_le_total (by omega))).bind (fun w t ht => ht ▸ hfit) ?_
  rintro - - ⟨l, r, rfl, -, -, -, hlr, hrh⟩
  have hrf : r < s.params.FULL := lt_of_le_of_lt hrh hhigh
  have hfit' : RegistersFit (s.setCV.setBounds l r) := ⟨hlr.trans_lt hrf, hrf, hfit.2.2⟩
  obtain ⟨-, e1, e2, e3, -, e4⟩ := renormPlan_ends hp hlr hrf
  refine (renorm_encode_spec (s.setCV.setBounds l r) hp ⟨hr, hobuf⟩ hlr hrf (le_pendmax_iff.2 hpend)).bind
    (fun w u hu => ?_) fun _ u hu => ?_
  · rcases hu with ⟨-, -, hle, hpart⟩ | ⟨-, -, heq, hpart⟩
    · exact hpart.registersFit hfit' (hle.trans (le_pendmax_iff.2 hpend))
    · exact hpart.registersFit hfit' heq.le
  · obtain ⟨hcoded, howed⟩ := hu
    obtain ⟨k1, k2, k3, k4⟩ := hcoded.registers
    have hmode : u.eng.MODE = .enc := by rw [hcoded.2.2.1]; exact hm
    refine ⟨(hcoded.codedPart (e1.trans (by change s.params.HALF < s.params.FULL; omega)) e3).registersFit hfit'
      (k3 ▸ howed), fun _ _ => ?_, fun _ h => by simp [hmode] at h⟩
    rw [k1, k2, k4]
    exact ⟨e1, e2, e4⟩

/-- `EFINISH` writes bits and the packer, and leaves the session (rule R157). -/
theorem efinishBody_keepsCoder {s : State} (hs : Inv s) (hr : s.env.rstIn = none) :
    (efinishBody s).KeepsCoder := by
  obtain ⟨-, hfit, -⟩ := hs
  unfold efinishBody
  split
  · exact hfit
  split
  · exact hfit
  rename_i hpmax
  obtain ⟨hlow, hhigh, hcode, hpend, hobuf, hpad⟩ := id hfit
  have hp1 : s.eng.pend + 1 ≤ s.params.PENDMAX := by have := le_pendmax_iff.2 hpend; omega
  have hfit1 : RegistersFit (s.setPend (s.eng.pend + 1)) :=
    ⟨hlow, hhigh, hcode, le_pendmax_iff.1 hp1, hobuf, hpad⟩
  have hready : PackerReady (s.setPend (s.eng.pend + 1)) := ⟨hr, hobuf⟩
  have hfailed : ∀ w t, SinkFailed (s.setPend (s.eng.pend + 1)) w t → RegistersFit t := fun w t ht =>
    (ht.codedPart hfit1).registersFit hfit1 (ht.2.2.2.1.trans hp1)
  refine (emitBit_spec _ _ hready).bind hfailed fun _ t ht => ?_
  have hpt : t.eng.pend = 0 := ht.coded.registers.2.2.1
  refine (closeLoop_spec 7 t (ht.ready hready) (by omega)).bind
    (fun w u hu => hfailed w u (ht.failed (Nat.zero_le _) hu)) fun _ u hu => ?_
  have hw := (ht.trans hu.1).coded
  have hfitu : RegistersFit u := (hw.codedPart hlow hhigh).registersFit hfit1 (by
    rw [hw.registers.2.2.1, hpt]
    exact Nat.zero_le _)
  exact ⟨hfitu, fun _ hm => by simp at hm, fun _ hm => by simp at hm⟩

/-- `DINIT` fills `code` between the widest bounds (rule R181). -/
theorem dinitBody_keepsCoder {s : State} (hs : Inv s) (hr : s.env.rstIn = none) : (dinitBody s).KeepsCoder := by
  obtain ⟨hp, hfit, -⟩ := hs
  have hq := sizes_of_legal hp
  unfold dinitBody
  split
  · exact hfit
  obtain ⟨-, -, -, -, hobuf, -⟩ := hfit
  generalize hs0 : ((((((s.setBounds 0 s.params.MASK).setCode 0).setPend 0).setUnpacker 0 0).setEof false).setPadcnt
    0).setMode .dec = s0
  have hpar : s0.params = s.params := by rw [← hs0]; rfl
  have hlow0 : s0.eng.low = 0 := by rw [← hs0]; rfl
  have hhigh0 : s0.eng.high = s.params.MASK := by rw [← hs0]; rfl
  have hcode0 : s0.eng.code = 0 := by rw [← hs0]; rfl
  have hfull : s0.params.FULL = s.params.FULL := by rw [hpar]
  have hfit0 : RegistersFit s0 := by
    rw [← hs0]
    have hw : 0 < 2 ^ s.params.W := by positivity
    exact ⟨hw, Nat.sub_lt hw one_pos, hw, by positivity, hobuf, Nat.zero_le _⟩
  refine (fillCode_spec s.params.W s0 (hpar ▸ hp) (by rw [← hs0]; exact hr) (by omega)).bind (fun w t ht => ?_)
    fun _ t ht => ?_
  · obtain ⟨⟨hframe, hpad, -⟩, hlow, hhigh, hcode⟩ := ht
    exact hframe.registersFit hpad hfit0 (by omega) (by omega) hcode
  · obtain ⟨bits, -, ⟨hframe, hpad, -⟩, hlow, hhigh, hcode⟩ := ht
    have hlt : t.eng.code < s0.params.FULL := hcode ▸ Nat.mod_lt _ (by omega)
    have htp : t.params = s.params := by rw [hframe]; exact hpar
    refine ⟨hframe.registersFit hpad hfit0 (by omega) (by omega) hlt, fun _ _ => ?_, fun _ _ => by omega⟩
    rw [htp]
    omega

/-- `DREAD` narrows to the symbol whose interval holds `code`, and its renormalisation keeps `code` between the
bounds (rules R184, R185). -/
theorem dreadBody_keepsCoder {s : State} (hs : Inv s) (hr : s.env.rstIn = none) (hf : s.eng.FAULT = false) :
    (dreadBody s).KeepsCoder := by
  obtain ⟨hp, hfit, ht, hset, -⟩ := hs
  have hq := sizes_of_legal hp
  unfold dreadBody
  split
  · exact hfit
  rename_i hm
  split
  · exact hfit
  rename_i hv
  split
  · exact hfit
  rename_i sym hfind
  obtain ⟨hsym, hle, hlt⟩ := findSymbol_some hfind
  have hT := total_pos_of_tableValid hv
  obtain ⟨-, hhigh, -⟩ := id hfit
  obtain ⟨hlo, hhi, -⟩ := hset hf (.inr (not_not.1 hm))
  have hlh : s.eng.low ≤ s.eng.high := by omega
  have hcl := narrow_low_le_code hlh hT hle
  have hch := code_le_narrow_high hlh hT hlt
  refine (narrowTo_spec (s := s.setCV) (sym := sym) hlh hT (ht.cum_le_total (by omega))).bind
    (fun w t ht => ht ▸ hfit) ?_
  rintro - - ⟨l, r, rfl, hl, hr', -, hlr, hrh⟩
  change (l : Int) = (narrow s.eng sym).1 at hl
  change (r : Int) = (narrow s.eng sym).2 at hr'
  have hrf : r < s.params.FULL := lt_of_le_of_lt hrh hhigh
  have hfit' : RegistersFit (s.setCV.setBounds l r) := ⟨hlr.trans_lt hrf, hrf, hfit.2.2⟩
  obtain ⟨-, e1, e2, e3, -, e4⟩ := renormPlan_ends hp hlr hrf
  refine (renorm_decode_spec (s.setCV.setBounds l r) hp hr (by change l ≤ s.eng.code; omega)
    (by change s.eng.code ≤ r; omega) hrf).bind (fun w u hu => ?_) fun _ u hu => ?_
  · obtain ⟨⟨hframe, hpad, -⟩, hlow, hhigh, hcode⟩ := hu
    exact hframe.registersFit hpad hfit' hlow hhigh hcode
  · obtain ⟨bits, -, hreads, k1, k2, -, k3, k4⟩ := hu
    have hup : u.params = s.params := (hreads.kept hr).2
    have k5 : u.eng.high < s.params.FULL := k2 ▸ e3
    refine ⟨hreads.1.registersFit hreads.2.1 hfit' ?_ k5 (lt_of_le_of_lt (k2 ▸ k4) k5), fun _ _ => ?_, fun _ _ => ?_⟩
    · exact lt_of_le_of_lt ((k1 ▸ k3).trans (k2 ▸ k4)) k5
    · rw [k1, k2, hup]
      exact ⟨e1, e2, e4⟩
    · exact ⟨k1 ▸ k3, k2 ▸ k4⟩

/-- Every command that runs keeps the coder sound. -/
theorem bodyOf_keepsCoder {i : Instr} {s : State} (hs : Inv s) (hr : s.env.rstIn = none)
    (hrun : s.eng.FAULT = false ∨ RunsFaulted i) (hi : i ≠ .reset) : (bodyOf i s).KeepsCoder := by
  have hcoder : CoderSound s := by
    obtain ⟨-, hfit, -, hset, hcode, -⟩ := hs
    exact ⟨hfit, hset, hcode⟩
  cases i
  case reset => exact absurd rfl hi
  case einit => exact einitBody_keepsCoder hs
  case ewrite sym => exact ewriteBody_keepsCoder sym hs hr (hrun.resolve_right (by simp [RunsFaulted]))
  case efinish => exact efinishBody_keepsCoder hs hr
  case dinit => exact dinitBody_keepsCoder hs hr
  case dread => exact dreadBody_keepsCoder hs hr (hrun.resolve_right (by simp [RunsFaulted]))
  all_goals
    exact Run.Leaves.keepsCoder ((bodyOf_frame _ s).mono fun u hu =>
      hu.coderSound hcoder (by simp) (by simp) (by simp) (by simp) (by simp) (by simp))

/-! ### A step -/

theorem causeCode_bounds (c : Cause) : 1 ≤ causeCode c ∧ causeCode c ≤ 7 := by
  cases c <;> simp [causeCode]

/-- Entering a fault needs no settled bounds: with `FAULT = 1` the invariant does not speak of them (rules R33,
R210). -/
theorem inv_faulted {s : State} {code : Nat} (op sym port : Nat) (hp : s.params.Legal) (hfit : RegistersFit s)
    (ht : TableExact s) (hn : NothingOwedInDecode s) (hc : 1 ≤ code ∧ code ≤ 7) :
    Inv (s.faulted code op sym port) := by
  have hcode : (BitVec.ofNat 8 code).toNat = code := by
    rw [BitVec.toNat_ofNat]
    omega
  refine ⟨hp, hfit, ht, fun hf => ?_, fun hf => ?_, hn, fun hf => ?_, fun _ => ?_⟩
  · simp at hf
  · simp at hf
  · simp at hf
  · simpa only [State.faulted_eng, hcode] using hc

/-- The invariant does not speak of the environment, so an answer keeps it. -/
theorem inv_answered {s : State} (st val : Nat) (h : Inv s) : Inv (s.answered st val) := h

theorem exec_keeps_inv {i : Instr} {s t : State} (hs : Inv s) (hr : s.env.rstIn = none) (h : exec i s = .next t) :
    Inv t := by
  obtain ⟨hp, -, ht, -, -, hn, hlatch⟩ := id hs
  by_cases hi : i = .reset
  · subst hi
    rw [exec_reset hr] at h
    rw [← Host.Outcome.next.inj h]
    exact inv_answered 0 0 (inv_resetEngine hp)
  rcases exec_next hr h with ⟨-, -, rfl⟩ | ⟨hrun, hend⟩
  · exact inv_answered _ _ hs
  have hframe := bodyOf_frame i s
  have hcoder := bodyOf_keepsCoder hs hr hrun hi
  rcases hend with ⟨v, u, hb, rfl⟩ | ⟨c, u, hb, rfl⟩
  all_goals
    rw [hb] at hframe hcoder
    have hframe : CommandFrame s i u := hframe
    have hpu : u.params.Legal := hframe.params ▸ hp
    have htu := hframe.tableExact hi ht
    have hnu := hframe.nothingOwed hi hn
  · obtain ⟨hfit, hset, hcode⟩ := hcoder
    obtain ⟨hF, hC, hI, -⟩ := hframe.fault hi
    refine inv_answered 0 v ⟨hpu, hfit, htu, hset, hcode, hnu, ?_⟩
    unfold FaultLatchExact
    rwa [hF, hC, hI]
  · exact inv_faulted _ _ _ hpu hcoder htu hnu (causeCode_bounds c)

theorem runWord_keeps_inv {w : Word} {s t : State} (hs : Inv s) (hr : s.env.rstIn = none)
    (h : runWord w s = .next t) : Inv t := by
  cases hd : decode w with
  | instr i => exact exec_keeps_inv hs hr (runWord_instr s hd ▸ h)
  | bad e =>
    rcases issueMalformed_next hr (runWord_bad s hd ▸ h) with ⟨-, rfl⟩ | ⟨-, rfl⟩
    · exact inv_answered _ _ hs
    · obtain ⟨hp, hfit, ht, -, -, hn, -⟩ := hs
      exact inv_faulted _ _ _ hp hfit ht hn (by decide)

end Sys2Proof.Machine
end

section
/-! CERTIFICATES. The tier 3 statement of the family. -/

namespace Sys2Proof.Machine

/-- Settles O29, by the host's next event: a step is idle, a reset, or one word run to its end. -/
theorem everyStepKeepsTheInvariant : Obligations.EveryStepKeepsTheInvariant := by
  unfold Obligations.EveryStepKeepsTheInvariant
  intro s t hs h
  match hi : s.env.inbox with
  | [] =>
    rw [step_idle hi] at h
    exact Host.Outcome.next.inj h ▸ hs
  | .rst :: rest =>
    rw [step_rst hi] at h
    exact Host.Outcome.next.inj h ▸ inv_hardReset hs.1
  | .cmdCutByRst w k :: rest =>
    rw [step_cmdCutByRst hi] at h
    obtain ⟨u, hu, rfl⟩ := runWord_cut (by simp) h
    exact inv_hardReset (hu ▸ hs.1)
  | .cmd w :: rest =>
    rw [step_cmd hi] at h
    exact runWord_keeps_inv (s := takeEvent rest none s) hs rfl h

end Sys2Proof.Machine
end

section
/-! SUPPORT. What the flag `CV` can reach (rules R30, R65, R122): every primitive and every command's pseudocode, run
from two states that differ in `CV` alone, does the same and leaves two states that differ in `CV` at most. -/

namespace Sys2Proof.Machine

/-- `CV <- b`. -/
def State.withCV (s : State) (b : Bool) : State := { s with eng.CV := b }

@[simp] theorem State.withCV_env (s : State) (b : Bool) : (s.withCV b).env = s.env := rfl

/-- The same end, with the same result, in two states that differ in `CV` at most. -/
inductive Run.SameButCV {α : Type} : Run α → Run α → Prop where
  | done (a : α) (s : State) (b : Bool) : SameButCV (.done a s) (.done a (s.withCV b))
  | stop (w : Stop) (s : State) (b : Bool) : SameButCV (.stop w s) (.stop w (s.withCV b))

theorem raise_sameButCV {α : Type} (c : Cause) (s : State) (b : Bool) :
    (raise c s : Run α).SameButCV (raise c (s.withCV b)) := .stop (.raised c) s b

/-- Two pieces of pseudocode, one after the other. -/
theorem Run.SameButCV.bind {α β : Type} {r r' : Run α} {k k' : α → State → Run β} (hr : r.SameButCV r')
    (hk : ∀ a s b, (k a s).SameButCV (k' a (s.withCV b))) : (r.bind k).SameButCV (r'.bind k') := by
  cases hr with
  | done a s b => exact hk a s b
  | stop w s b => exact .stop w s b

/-- A test that does not read `CV` decides alike on both sides. -/
theorem Run.SameButCV.ite {α : Type} {c : Prop} [Decidable c] {r₁ r₁' r₂ r₂' : Run α} (h₁ : r₁.SameButCV r₁')
    (h₂ : r₂.SameButCV r₂') : (if c then r₁ else r₂).SameButCV (if c then r₁' else r₂') := by
  split
  · exact h₁
  · exact h₂

/-- The same of a test whose branches use what it found. -/
theorem Run.SameButCV.dite {α : Type} {c : Prop} [Decidable c] {r₁ r₁' : c → Run α} {r₂ r₂' : ¬ c → Run α}
    (h₁ : ∀ h, (r₁ h).SameButCV (r₁' h)) (h₂ : ∀ h, (r₂ h).SameButCV (r₂' h)) :
    (if h : c then r₁ h else r₂ h).SameButCV (if h : c then r₁' h else r₂' h) := by
  split
  · exact h₁ _
  · exact h₂ _

/-! ### The byte ports and the bit stream unit -/

theorem unanswered_sameButCV {α : Type} (p : Port) (s : State) (b : Bool) :
    (unanswered p s : Run α).SameButCV (unanswered p (s.withCV b)) :=
  .ite (.stop _ _ b) (.stop _ _ b)

theorem sinkAppend_sameButCV (byte : Byte) (s : State) (b : Bool) :
    (sinkAppend byte s).SameButCV (sinkAppend byte (s.withCV b)) := by
  refine .ite (.stop _ _ b) ?_
  simp only [State.withCV_env]
  split
  · exact .done _ _ b
  · exact .done _ _ b
  · exact .done _ _ b
  · exact unanswered_sameButCV _ _ b

theorem sourceNext_sameButCV (s : State) (b : Bool) : (sourceNext s).SameButCV (sourceNext (s.withCV b)) := by
  refine .ite (.stop _ _ b) ?_
  simp only [State.withCV_env]
  split
  · exact .done _ _ b
  · exact .done _ _ b
  · exact unanswered_sameButCV _ _ b

theorem writeBit_sameButCV (bit : Bool) (s : State) (b : Bool) :
    (writeBit bit s).SameButCV (writeBit bit (s.withCV b)) := by
  refine .dite (fun _ => (sinkAppend_sameButCV _ _ b).bind fun r t b => ?_) fun _ => .done _ _ b
  cases r with
  | ok => exact .done _ _ b
  | err => exact raise_sameButCV _ _ b

theorem closeLoop_sameButCV (n : Nat) (s : State) (b : Bool) :
    (closeLoop n s).SameButCV (closeLoop n (s.withCV b)) := by
  induction n generalizing s b with
  | zero => exact .done _ _ b
  | succ n ih => exact .ite (.done _ _ b) ((writeBit_sameButCV _ _ b).bind fun _ => ih)

theorem takeBit_sameButCV (s : State) (b : Bool) : (takeBit s).SameButCV (takeBit (s.withCV b)) := .done _ _ b

theorem readBit_sameButCV (s : State) (b : Bool) : (readBit s).SameButCV (readBit (s.withCV b)) := by
  refine .ite (.done _ _ b) (.ite ((sourceNext_sameButCV s b).bind fun r t b => ?_) (takeBit_sameButCV s b))
  cases r with
  | err => exact raise_sameButCV _ _ b
  | eof => exact .done _ _ b
  | byte x => exact takeBit_sameButCV _ b

theorem readBitPad_sameButCV (s : State) (b : Bool) : (readBitPad s).SameButCV (readBitPad (s.withCV b)) := by
  refine (readBit_sameButCV s b).bind fun r t b => ?_
  cases r with
  | some bit => exact .done _ _ b
  | none => exact .ite (raise_sameButCV _ _ b) (.done _ _ b)

/-! ### `EmitBit`, the renormalisation and the first fill of `code` -/

theorem emitOwed_sameButCV (bit : Bool) (n : Nat) (s : State) (b : Bool) :
    (emitOwed bit n s).SameButCV (emitOwed bit n (s.withCV b)) := by
  induction n generalizing s b with
  | zero => exact .done _ _ b
  | succ n ih => exact (writeBit_sameButCV _ _ b).bind fun _ t => ih (t.setPend n)

theorem emitBit_sameButCV (bit : Bool) (s : State) (b : Bool) :
    (emitBit bit s).SameButCV (emitBit bit (s.withCV b)) :=
  (writeBit_sameButCV bit s b).bind fun _ t => emitOwed_sameButCV bit t.eng.pend t

theorem pullBit_sameButCV (c : Nat) (s : State) (b : Bool) : (pullBit c s).SameButCV (pullBit c (s.withCV b)) :=
  (readBitPad_sameButCV s b).bind fun _ _ b => .done _ _ b

theorem shiftStep_sameButCV (side : Side) (s : State) (b : Bool) :
    (shiftStep side s).SameButCV (shiftStep side (s.withCV b)) := by
  refine Run.SameButCV.bind ?_ fun _ _ b => .done _ _ b
  cases side with
  | encode => exact emitBit_sameButCV _ s b
  | decode => exact pullBit_sameButCV _ s b

theorem underflowStep_sameButCV (side : Side) (s : State) (b : Bool) :
    (underflowStep side s).SameButCV (underflowStep side (s.withCV b)) := by
  refine Run.SameButCV.bind ?_ fun _ _ b => .done _ _ b
  cases side with
  | encode => exact .ite (raise_sameButCV _ s b) (.done _ _ b)
  | decode => exact pullBit_sameButCV _ s b

theorem shiftLoop_sameButCV (side : Side) (n : Nat) (s : State) (b : Bool) :
    (shiftLoop side n s).SameButCV (shiftLoop side n (s.withCV b)) := by
  induction n generalizing s b with
  | zero => exact .done _ _ b
  | succ n ih => exact .ite ((shiftStep_sameButCV side s b).bind fun _ => ih) (.done _ _ b)

theorem underflowLoop_sameButCV (side : Side) (n : Nat) (s : State) (b : Bool) :
    (underflowLoop side n s).SameButCV (underflowLoop side n (s.withCV b)) := by
  induction n generalizing s b with
  | zero => exact .done _ _ b
  | succ n ih => exact .ite ((underflowStep_sameButCV side s b).bind fun _ => ih) (.done _ _ b)

theorem renorm_sameButCV (side : Side) (s : State) (b : Bool) :
    (renorm side s).SameButCV (renorm side (s.withCV b)) :=
  (shiftLoop_sameButCV side s.params.W s b).bind fun _ t => underflowLoop_sameButCV side (t.params.W - 1) t

theorem fillCode_sameButCV (n : Nat) (s : State) (b : Bool) :
    (fillCode n s).SameButCV (fillCode n (s.withCV b)) := by
  induction n generalizing s b with
  | zero => exact .done _ _ b
  | succ n ih => exact (pullBit_sameButCV _ s b).bind fun _ => ih

theorem narrowTo_sameButCV (sym : Nat) (s : State) (b : Bool) :
    (narrowTo sym s).SameButCV (narrowTo sym (s.withCV b)) :=
  .ite (raise_sameButCV _ s b) (.done _ _ b)

/-! ### The commands -/

/-- What both coders do past their checks: `CV` is set before anything else, so that from there on both sides run from
one state (rules R122, R153, R184). -/
theorem coded_sameButCV (sym v : Nat) (side : Side) (s : State) (b : Bool) :
    ((narrowTo sym s.setCV).bind fun _ t => (renorm side t).bind fun _ u => .done v u).SameButCV
      ((narrowTo sym (s.withCV b).setCV).bind fun _ t => (renorm side t).bind fun _ u => .done v u) :=
  (narrowTo_sameButCV sym s.setCV true).bind fun _ t b =>
    (renorm_sameButCV side t b).bind fun _ u b => .done v u b

/-- The symbol search does not read `CV` (rules R182, R183). -/
theorem findSymbol_withCV (s : State) (b : Bool) :
    findSymbol (s.withCV b).eng (decodeValue (s.withCV b).eng) = findSymbol s.eng (decodeValue s.eng) := rfl

theorem ewriteBody_sameButCV (sym : Nat) (s : State) (b : Bool) :
    (ewriteBody sym s).SameButCV (ewriteBody sym (s.withCV b)) :=
  .ite (raise_sameButCV _ s b) <| .ite (raise_sameButCV _ s b) <| .ite (raise_sameButCV _ s b) <|
    .ite (raise_sameButCV _ s b) (coded_sameButCV sym 0 .encode s b)

theorem dreadBody_sameButCV (s : State) (b : Bool) : (dreadBody s).SameButCV (dreadBody (s.withCV b)) := by
  refine .ite (raise_sameButCV _ s b) (.ite (raise_sameButCV _ s b) ?_)
  rw [findSymbol_withCV]
  cases findSymbol s.eng (decodeValue s.eng) with
  | none => exact raise_sameButCV _ s.setCV true
  | some sym => exact coded_sameButCV sym sym .decode s b

theorem efinishBody_sameButCV (s : State) (b : Bool) : (efinishBody s).SameButCV (efinishBody (s.withCV b)) :=
  .ite (raise_sameButCV _ s b) <| .ite (raise_sameButCV _ s b) <|
    (emitBit_sameButCV _ (s.setPend (s.eng.pend + 1)) b).bind fun _ t b =>
      (closeLoop_sameButCV 7 t b).bind fun _ _ b => .done _ _ b

theorem dinitBody_sameButCV (s : State) (b : Bool) : (dinitBody s).SameButCV (dinitBody (s.withCV b)) :=
  .ite (raise_sameButCV _ s b) ((fillCode_sameButCV s.params.W _ b).bind fun _ _ b => .done _ _ b)

/-- `STATUS` is the one register that shows `CV` (rules R36, R37). -/
theorem regValue_withCV {r : Nat} (s : State) (b : Bool) (h : r ≠ 0) : regValue (s.withCV b) r = regValue s r := by
  unfold regValue
  split
  · exact absurd rfl h
  all_goals rfl

/-- A table write and `RESET` clear `CV`, and a command that uses `C` sets it, so that both sides go on from one state;
every other command, and a fault raised by a check, keeps it (rules R49, R122). -/
theorem bodyOf_sameButCV {i : Instr} (s : State) (b : Bool) (h : i ≠ .rdreg 0) :
    (bodyOf i s).SameButCV (bodyOf i (s.withCV b)) := by
  cases i with
  | reset => exact .done 0 (resetEngine s) false
  | rdreg r =>
    simp only [bodyOf]
    rw [regValue_withCV s b (by simpa using h)]
    exact .done _ s b
  | tinit n => exact .ite (raise_sameButCV _ s b) (.ite (raise_sameButCV _ s b) (.done _ _ false))
  | tset sym f => exact .ite (raise_sameButCV _ s b) (.ite (raise_sameButCV _ s b) (.done _ _ false))
  | tinc sym => exact .ite (raise_sameButCV _ s b) (.ite (raise_sameButCV _ s b) (.done _ _ false))
  | tget sym => exact .ite (raise_sameButCV _ s b) (.done _ s b)
  | tclo sym => exact .ite (raise_sameButCV _ s b) (.done _ s.setCV true)
  | tchi sym => exact .ite (raise_sameButCV _ s b) (.done _ s.setCV true)
  | ttot => exact .done _ s b
  | einit => exact .ite (raise_sameButCV _ s b) (.done _ _ b)
  | ewrite sym => exact ewriteBody_sameButCV sym s b
  | efinish => exact efinishBody_sameButCV s b
  | dinit => exact dinitBody_sameButCV s b
  | dread => exact dreadBody_sameButCV s b

/-! ### How a command ends -/

/-- The next states differ in `CV` at most, or both sides wait at the same port. -/
def OutcomesSameButCV (o o' : Host.Outcome State Fault Refusal) : Prop :=
  (∃ t b, o = .next t ∧ o' = .next (t.withCV b)) ∨
  (∃ p, o = .fault (.portUnanswered p) ∧ o' = .fault (.portUnanswered p))

/-- A reset clears `CV` (rule R49), so that it leaves one state on both sides. -/
theorem hardReset_sameButCV (s : State) (b : Bool) :
    OutcomesSameButCV (.next (hardReset s)) (.next (hardReset (s.withCV b))) :=
  .inl ⟨hardReset s, false, rfl, rfl⟩

theorem answer_sameButCV (st val : Nat) (s : State) (b : Bool) :
    OutcomesSameButCV (answer st val s) (answer st val (s.withCV b)) := by
  by_cases h : s.env.rstIn = none
  · rw [answer_undisturbed st val h, answer_undisturbed (s := s.withCV b) st val h]
    exact .inl ⟨s.answered st val, b, rfl, rfl⟩
  · rw [answer_cut st val h, answer_cut (s := s.withCV b) st val h]
    exact hardReset_sameButCV s b

theorem conclude_sameButCV {op sym : Nat} {r r' : Run Nat} (h : r.SameButCV r') :
    OutcomesSameButCV (conclude op sym r) (conclude op sym r') := by
  cases h with
  | done v s b => exact answer_sameButCV 0 v s b
  | stop w s b =>
    cases w with
    | raised c => exact answer_sameButCV (causeCode c) 0 (enterFault c op sym s) b
    | unanswered p => exact .inr ⟨p, rfl, rfl⟩
    | rst => exact hardReset_sameButCV s b

/-- A command is its pseudocode, or it is refused; neither shows `CV` (rules R78, R212). -/
theorem exec_sameButCV {i : Instr} (s : State) (b : Bool) (h : i ≠ .rdreg 0) :
    OutcomesSameButCV (exec i s) (exec i (s.withCV b)) := by
  by_cases hc : s.eng.FAULT = false ∨ RunsFaulted i
  · rw [exec_of_runs hc, exec_of_runs (s := s.withCV b) hc]
    exact conclude_sameButCV (bodyOf_sameButCV s b h)
  · rw [not_or, Bool.not_eq_false] at hc
    obtain ⟨hf, hi⟩ := hc
    rw [exec_refused hf hi, exec_refused (s := s.withCV b) hf hi]
    exact answer_sameButCV _ 0 s b

end Sys2Proof.Machine
end

section
/-! CERTIFICATES. The statements of the family: what `CV` can reach, and what a step serves. -/

namespace Sys2Proof.Machine

/-- Settles O25: the two runs agree but for `CV`, or both wait. -/
theorem noResultDependsOnTheCacheFlag : Obligations.NoResultDependsOnTheCacheFlag := by
  unfold Obligations.NoResultDependsOnTheCacheFlag
  intro i s b hi
  rcases exec_sameButCV s b hi with ⟨t, c, ht, ht'⟩ | hwait
  · exact .inl ⟨t, t.withCV c, ht, ht', rfl⟩
  · exact .inr hwait

/-- Settles O6, by the host's next event. -/
theorem stepServesTheNextEvent : Obligations.StepServesTheNextEvent := by
  unfold Obligations.StepServesTheNextEvent
  refine ⟨fun s w rest i hi hd => ?_, fun s w k rest i hi hd => ?_, fun s rest hi => ?_, fun s hi => step_idle hi⟩
  · rw [step_cmd hi, runWord_instr _ hd]
    rfl
  · rw [step_cmdCutByRst hi, runWord_instr _ hd]
    rfl
  · exact ⟨_, step_rst hi, hardReset_atReset (takeEvent rest none s), rfl, rfl⟩

end Sys2Proof.Machine
end

section
/-! SUPPORT. The command word read backwards (rules R71 to R75): what a decoded word's fields hold, and that they
make the whole word; and what a fault records (rule R210), field by field. -/

namespace Sys2Proof

/-! ### The opcode map -/

/-- No opcode stands for two rows, so the row with it is the one the decoder looks up (rule R73). -/
theorem opcodeMap_lookup : ∀ r ∈ opcodeMap, opcodeMap.find? (fun r' => r'.op == r.op) = some r := by
  simp [opcodeMap]

/-- A row's command has the row's opcode, and the operands the row says it uses (rules R73, R74). -/
theorem opcodeMap_make (sym data : Nat) : ∀ r ∈ opcodeMap,
    opcodeOf (r.make sym data) = r.op ∧ symOf (r.make sym data) = (if r.usesSym then sym else 0) ∧
    dataOf (r.make sym data) = (if r.usesData then data else 0) := by
  simp [opcodeMap, opcodeOf, symOf, dataOf]

/-- Which opcodes there are (rule R73). -/
theorem opcodeMap_ops :
    opcodeMap.map OpcodeRow.op =
      [0x01, 0x02, 0x10, 0x11, 0x12, 0x13, 0x14, 0x15, 0x16, 0x20, 0x21, 0x22, 0x30, 0x31] := rfl

/-- Which opcodes leave a field unused (rule R74). -/
theorem opcodeMap_unused : ∀ r ∈ opcodeMap,
    (r.usesSym = false ↔ r.op ∈ [0x01, 0x10, 0x16, 0x20, 0x22, 0x30, 0x31]) ∧
    (r.usesData = false ↔ r.op ∉ [0x10, 0x11]) := by decide

/-! ### The decoder, inverted -/

/-- A word fits a row: the row's opcode, `rsv = 0`, and 0 in each field the row does not use (rule R75). -/
def OpcodeRow.Fits (r : OpcodeRow) (w : Word) : Prop :=
  r.op = opField w ∧ rsvField w = 0 ∧ (r.usesSym = false → symField w = 0) ∧ (r.usesData = false → dataField w = 0)

/-- A word decodes exactly when it fits a row, and then to the row's command (rules R73 to R75). -/
theorem decode_eq_instr_iff {w : Word} {i : Instr} :
    decode w = .instr i ↔ ∃ r ∈ opcodeMap, r.Fits w ∧ r.make (symField w) (dataField w) = i := by
  constructor
  · intro h
    unfold decode at h
    split at h
    · cases h
    · rename_i r hr
      have hop : r.op = opField w := by simpa using List.find?_some hr
      split_ifs at h with hrsv hsym hdata
      refine ⟨r, List.mem_of_find?_eq_some hr, ⟨hop, not_not.1 hrsv, ?_, ?_⟩, Decoded.instr.inj h⟩
      · simpa using hsym
      · simpa using hdata
  · rintro ⟨r, hr, ⟨hop, hrsv, hsym, hdata⟩, rfl⟩
    have hlook := opcodeMap_lookup r hr
    rw [hop] at hlook
    simp only [decode, hlook, hrsv, ne_eq, not_true_eq_false, if_false]
    rw [if_neg fun h => h.2 (hsym h.1), if_neg fun h => h.2 (hdata h.1)]

/-- A word that decodes carries its command's opcode and operands in its fields (rules R71, R74). -/
theorem fields_of_decode {w : Word} {i : Instr} (h : decode w = .instr i) :
    opField w = opcodeOf i ∧ rsvField w = 0 ∧ symField w = symOf i ∧ dataField w = dataOf i := by
  obtain ⟨r, hr, ⟨hop, hrsv, hsym, hdata⟩, rfl⟩ := decode_eq_instr_iff.1 h
  obtain ⟨mop, msym, mdata⟩ := opcodeMap_make (symField w) (dataField w) r hr
  refine ⟨hop ▸ mop.symm, hrsv, ?_, ?_⟩
  · rw [msym]
    split
    · rfl
    · exact hsym (Bool.eq_false_of_not_eq_true ‹_›)
  · rw [mdata]
    split
    · rfl
    · exact hdata (Bool.eq_false_of_not_eq_true ‹_›)

theorem exists_bad_of_not_instr {w : Word} (h : ¬ ∃ i, decode w = .instr i) : ∃ e, decode w = .bad e := by
  cases hd : decode w with
  | instr i => exact absurd ⟨i, hd⟩ h
  | bad e => exact ⟨e, rfl⟩

/-! ### The fields make the word -/

theorem symField_fits (w : Word) : FitsSym (symField w) := Nat.mod_lt _ (by decide)

theorem dataField_fits (w : Word) : FitsData (dataField w) := Nat.mod_lt _ (by decide)

/-- The four fields are all of a word's bits (rule R71). -/
theorem commandWord_of_fields {w : Word} (h : rsvField w = 0) :
    commandWord (opField w) (symField w) (dataField w) = w := by
  apply BitVec.eq_of_toNat_eq
  have hw := w.isLt
  simp only [rsvField, opField, symField, dataField, slice, commandWord, BitVec.toNat_ofNat] at *
  omega

/-- A command is well formed when what its word carries fits the fields (rule R71). -/
theorem Instr.wf_iff (i : Instr) : i.wf = true ↔ FitsSym (symOf i) ∧ FitsData (dataOf i) := by
  cases i <;> simp [Instr.wf, symOf, dataOf]

theorem opcodeOf_lt (i : Instr) : opcodeOf i < 2 ^ 8 := by
  cases i <;> simp [opcodeOf]

end Sys2Proof

namespace Sys2Proof.Machine

/-! ### The fault record -/

/-- The fields of `FINFO` (rule R210). -/
theorem finfoValue_fields {op sym port : Nat} (hop : op < 2 ^ 8) (hsym : FitsSym sym) (hport : port < 2) :
    slice (finfoValue op sym port).toNat 7 0 = op ∧ slice (finfoValue op sym port).toNat 23 8 = sym ∧
    slice (finfoValue op sym port).toNat 24 24 = port := by
  unfold FitsSym at hsym
  simp only [slice, finfoValue, BitVec.toNat_ofNat]
  omega

/-- The port bit is 1 for an `IoError` only (rule R210). -/
theorem portBit_cases (c : Cause) : portBit c = 0 ∨ portBit c = 1 ∧ causeCode c = 5 := by
  cases c with
  | ioError p =>
    cases p with
    | sink => exact .inl rfl
    | source => exact .inr ⟨rfl, rfl⟩
  | _ => exact .inl rfl

/-- A command's pseudocode sets no fault and gives no response; both are the frame's around it (rules R72, R210). -/
theorem CommandFrame.unfaulted {i : Instr} {s u : State} (h : CommandFrame s i u) (hf : s.eng.FAULT = false) :
    u.eng.FAULT = false ∧ u.env.rsps = s.env.rsps := by
  by_cases hi : i = .reset
  · subst hi
    rw [show u = resetEngine s from h]
    exact ⟨rfl, rfl⟩
  · obtain ⟨hF, -, -, hrsps, -⟩ := h.fault hi
    exact ⟨hF.trans hf, hrsps⟩

/-- A word that is not well formed raises `IllegalCommand` at once (rule R75). -/
theorem issueMalformed_running {s : State} (w : Word) (hs : Running s) :
    issueMalformed w s = .next (s.faulted 6 (opField w) (symField w) 0) := by
  rw [issueMalformed, hs.1]
  exact conclude_raise (opField w) (symField w) .illegalCommand hs.2

/-- A command whose pseudocode raises before it has written anything changes nothing but the fault record. -/
theorem exec_raise {i : Instr} {s : State} {c : Cause} (hs : Running s) (hb : bodyOf i s = raise c s) :
    exec i s = .next (s.faulted (causeCode c) (opcodeOf i) (symOf i) (portBit c)) := by
  rw [exec_running i hs.1, hb]
  exact conclude_raise _ _ c hs.2

end Sys2Proof.Machine
end

section
/-! CERTIFICATES. The statements of the family: words and commands, responses, and what a fault records. -/

namespace Sys2Proof.Machine

/-- Settles O2: the word carries the command's fields, and the decoder reads them back. -/
theorem everyWellFormedCommandIsReadBackFromItsWord :
    Obligations.EveryWellFormedCommandIsReadBackFromItsWord := by
  unfold Obligations.EveryWellFormedCommandIsReadBackFromItsWord
  exact fun i hi => decode_encode hi

/-- Settles O3: the word's fields are the command's, so the operands fit and the fields make the word. -/
theorem onlyTheWordOfACommandDecodesToIt : Obligations.OnlyTheWordOfACommandDecodesToIt := by
  unfold Obligations.OnlyTheWordOfACommandDecodesToIt
  intro w i h
  obtain ⟨hop, hrsv, hsym, hdata⟩ := fields_of_decode h
  refine ⟨i.wf_iff.2 ⟨hsym ▸ symField_fits w, hdata ▸ dataField_fits w⟩, ?_⟩
  rw [encode, ← hop, ← hsym, ← hdata]
  exact commandWord_of_fields hrsv

/-- Settles O4: a word decodes when it fits a row of the opcode map, and any other is `issueMalformed`'s. -/
theorem wordNotWellFormedRaisesIllegalCommand : Obligations.WordNotWellFormedRaisesIllegalCommand := by
  unfold Obligations.WordNotWellFormedRaisesIllegalCommand
  refine ⟨fun w => ⟨?_, ?_⟩, fun s w rest hi hf hd => ?_⟩
  · rintro ⟨i, h⟩
    obtain ⟨r, hr, ⟨hop, hrsv, hsym, hdata⟩, -⟩ := decode_eq_instr_iff.1 h
    obtain ⟨hs, hd⟩ := opcodeMap_unused r hr
    rw [← hop, ← opcodeMap_ops]
    exact ⟨List.mem_map_of_mem hr, hrsv, fun h => hsym (hs.2 h), fun h => hdata (hd.2 h)⟩
  · rintro ⟨hop, hrsv, hsym, hdata⟩
    rw [← opcodeMap_ops] at hop
    obtain ⟨r, hr, hop⟩ := List.mem_map.1 hop
    obtain ⟨hs, hd⟩ := opcodeMap_unused r hr
    rw [← hop] at hsym hdata
    exact ⟨_, decode_eq_instr_iff.2 ⟨r, hr, ⟨hop, hrsv, fun h => hsym (hs.1 h), fun h => hdata (hd.1 h)⟩, rfl⟩⟩
  · obtain ⟨e, he⟩ := exists_bad_of_not_instr hd
    rw [step_cmd hi, runWord_bad _ he]
    exact issueMalformed_running w ⟨hf, rfl⟩

/-- Settles O17: the pseudocode leaves `FAULT` and the responses alone, then it is answered or its fault recorded. -/
theorem everyCommandIsAnsweredOnceAndAFaultIsRecorded :
    Obligations.EveryCommandIsAnsweredOnceAndAFaultIsRecorded := by
  unfold Obligations.EveryCommandIsAnsweredOnceAndAFaultIsRecorded
  rintro i s t hwf ⟨hf, hr⟩ h
  rcases exec_next_frame hr h with ⟨hfault, -⟩ | ⟨-, u, hu, ⟨v, rfl⟩ | ⟨c, rfl⟩⟩
  · simp [hf] at hfault
  · obtain ⟨hFault, hrsps⟩ := hu.unfaulted hf
    exact .inl ⟨hFault, v, by simp [hrsps]⟩
  · obtain ⟨-, hrsps⟩ := hu.unfaulted hf
    obtain ⟨hc1, hc7⟩ := causeCode_bounds c
    have hport := portBit_cases c
    obtain ⟨hop, hsym, hbit⟩ := finfoValue_fields (port := portBit c) (opcodeOf_lt i) (i.wf_iff.1 hwf).1 (by omega)
    refine .inr ⟨rfl, causeCode c, portBit c, hc1, hc7, hport, ?_, hop, hsym, hbit, by simp [hrsps]⟩
    rw [State.faulted_eng, BitVec.toNat_ofNat]
    omega

/-- Settles O1: each word is the word of its command. -/
theorem exampleWordsDecodeAsTheSpecAssemblesThem : Obligations.ExampleWordsDecodeAsTheSpecAssemblesThem := by
  unfold Obligations.ExampleWordsDecodeAsTheSpecAssemblesThem
  exact ⟨decode_encode (i := .tinit 5) rfl, decode_encode (i := .tset 1 6553) rfl, decode_encode (i := .ewrite 4) rfl,
    decode_encode (i := .rdreg 5) rfl, decode_encode (i := .dread) rfl, decode_encode (i := .tinc 1) rfl,
    decode_encode (i := .ttot) rfl, decode_encode (i := .efinish) rfl⟩

/-- Settles O5, by the layout of the response word. -/
theorem responseWordCarriesStatusAndValue : Obligations.ResponseWordCarriesStatusAndValue := by
  unfold Obligations.ResponseWordCarriesStatusAndValue
  intro st val hst hval
  simp only [slice, responseWord, BitVec.toNat_ofNat]
  omega

/-- Settles O19: each command's first check is its mode. -/
theorem commandInTheWrongModeIsIllegal : Obligations.CommandInTheWrongModeIsIllegal := by
  unfold Obligations.CommandInTheWrongModeIsIllegal
  intro s n sym hs
  refine ⟨fun hm => ⟨?_, ?_, ?_⟩, fun hm => ⟨?_, ?_⟩, fun hm => ?_⟩
  · exact exec_raise (i := .tinit n) hs (if_pos hm)
  · exact exec_raise (i := .einit) hs (if_pos hm)
  · exact exec_raise (i := .dinit) hs (if_pos hm)
  · exact exec_raise (i := .ewrite sym) hs (if_pos hm)
  · exact exec_raise (i := .efinish) hs (if_pos hm)
  · exact exec_raise (i := .dread) hs (if_pos hm)

end Sys2Proof.Machine
end

section
/-! SUPPORT. The bit stream unit on a host that answers and leaves RST alone (rules R101 to R105): a primitive that
cannot stop runs to its end, what the ports' `ERR` does, and where the unpacker takes its next bit from. -/

namespace Sys2Proof.Machine

/-- Pseudocode that has no way to stop early runs to its end. -/
theorem Run.Ends.exists_done {α : Type} {D : α → State → Prop} {S : Stop → State → Prop} {r : Run α}
    (h : r.Ends D S) (hs : ∀ w t, ¬ S w t) : ∃ a t, r = .done a t ∧ D a t := by
  cases r with
  | done a t => exact ⟨a, t, rfl, h⟩
  | stop w t => exact absurd h (hs w t)

/-- With no RST coming, a port transaction leaves no trace of its own. -/
theorem Env.transacted_undisturbed {v : Env} (h : v.rstIn = none) : v.transacted = v := by
  cases v
  simp_all [Env.transacted]

/-! ### The packer -/

theorem not_sinkFailed {s t : State} {w : Stop} (h : SinkAccepts s) : ¬ SinkFailed s w t := fun hf => hf.1 h

/-- Of the bits written, each whole byte is in the sink and the rest is in the packer (rule R103). -/
theorem Wrote.counts {s t : State} {bits : List Bool} {q : Nat} (h : Wrote s bits q t) :
    t.eng.onb.val = (s.eng.onb.val + bits.length) % 8 ∧
    t.env.sink.length = s.env.sink.length + (s.eng.onb.val + bits.length) / 8 := by
  have hlen := congrArg List.length h.1
  rw [List.length_append, outBits_length, outBits_length] at hlen
  have hs := s.eng.onb.isLt
  have ht := t.eng.onb.isLt
  omega

theorem sinkAppend_err {s : State} {r : List (Option SinkReply)} (byte : Byte) (hr : s.env.rstIn = none)
    (ha : s.env.sinkAnswers = some .err :: r) :
    sinkAppend byte s = .done .err (s.setEnv { s.env with sinkAnswers := r }) := by
  simp [sinkAppend, rstDue, hr, ha, Env.transacted_undisturbed hr]

/-- The eighth bit of a byte the sink does not take (rules R55, R101). -/
theorem writeBit_err {s : State} {r : List (Option SinkReply)} (b : Bool) (hr : s.env.rstIn = none)
    (ha : s.env.sinkAnswers = some .err :: r) (h7 : s.eng.onb.val = 7) :
    writeBit b s = .stop (.raised (.ioError .sink))
      { s with eng.obuf := 0, eng.onb := 0, env.sinkAnswers := r } := by
  have herr := sinkAppend_err (s := s.setPacker 0 0) (packBit s.eng.obuf b) hr ha
  rw [writeBit, dif_pos (by omega), herr]
  rfl

/-- On a byte boundary there is nothing to pad (rule R102). -/
theorem closeBits_at_boundary {s : State} (h : s.eng.onb = 0) : closeBits s = .done () s := by
  simp [closeBits, closeLoop, h]

/-! ### The unpacker -/

theorem sourceNext_err {s : State} {r : List (Option SourceReply)} (hr : s.env.rstIn = none)
    (ha : s.env.source = some .err :: r) :
    sourceNext s = .done .err (s.setEnv { s.env with source := r }) := by
  simp [sourceNext, rstDue, hr, ha, Env.transacted_undisturbed hr]

/-- A byte that is needed and that the source does not give (rules R56, R104). -/
theorem readBit_err {s : State} {r : List (Option SourceReply)} (hr : s.env.rstIn = none)
    (ha : s.env.source = some .err :: r) (he : s.eng.eof = false) (h0 : s.eng.inb = 0) :
    readBit s = .stop (.raised (.ioError .source)) { s with env.source := r } := by
  simp only [readBit, he, h0, sourceNext_err hr ha]
  rfl

/-- While bits are left, `ReadBit` delivers the next one, and asks for a byte only when none of the last is left
(rule R104). -/
theorem readBit_next {s : State} {bytes : List Byte} {more : Option (List (Option SourceReply))} {b : Bool}
    {bs : List Bool} (hr : s.env.rstIn = none) (hs : SourceHolds s bytes more) (hb : inBits s.eng bytes = b :: bs) :
    ∃ t, readBit s = .done (some b) t ∧
      t = { s with
        eng.ibuf := t.eng.ibuf
        eng.inb := t.eng.inb
        env.source := streamOf (bytes.drop (if s.eng.inb = 0 then 1 else 0)) more } ∧
      inBits t.eng (bytes.drop (if s.eng.inb = 0 then 1 else 0)) = bs := by
  obtain ⟨t, hread, ht, -, hrest, hfetched⟩ := readBit_of_cons hr hs hb
  rw [hfetched] at ht hrest
  exact ⟨t, hread, by rw [ht], hrest⟩

/-- A bit of the stream passes `ReadBitPad` as it is (rule R105). -/
theorem readBitPad_of_bit {s t : State} {b : Bool} (h : readBit s = .done (some b) t) :
    readBitPad s = .done b t := by
  rw [readBitPad, h]
  rfl

/-- At the indicator `ReadBitPad` gives up once `PADMAX` reads were padded, and pads and counts before (rule R105). -/
theorem readBitPad_of_eofind {s t : State} (h : readBit s = .done none t) :
    readBitPad s = if t.eng.padcnt = t.params.PADMAX then .stop (.raised .prematureEndOfStream) t
      else .done false (t.setPadcnt (t.eng.padcnt + 1)) := by
  rw [readBitPad, h]
  rfl

end Sys2Proof.Machine
end

section
/-! CERTIFICATES. The statements of the family: the four primitives of the bit stream unit. -/

namespace Sys2Proof.Machine

/-- Settles O32: a sink that accepts cannot fail, and the bits' number fixes the packer's and the sink's. -/
theorem writeBitAppendsOneBit : Obligations.WriteBitAppendsOneBit := by
  unfold Obligations.WriteBitAppendsOneBit
  intro s b hr ho
  refine ⟨fun hsink => ?_, fun r ha h7 => writeBit_err b hr ha h7⟩
  obtain ⟨_, t, hdone, hw⟩ := (writeBit_spec b s ⟨hr, ho⟩).exists_done fun _ _ => not_sinkFailed hsink
  obtain ⟨honb, hlen⟩ := hw.counts
  obtain ⟨hout, hobuf, -⟩ := hw
  exact ⟨t, hdone, hout, honb, hobuf, hlen⟩

/-- Settles O34: seven writes are enough to reach the boundary, and a sink that accepts cannot fail. -/
theorem closeBitsPadsToAByte : Obligations.CloseBitsPadsToAByte := by
  unfold Obligations.CloseBitsPadsToAByte
  intro s hr ho hsink
  obtain ⟨_, t, hdone, hw, honb, hobuf⟩ :=
    (closeLoop_spec 7 s ⟨hr, ho⟩ (by omega)).exists_done fun _ _ => not_sinkFailed hsink
  refine ⟨t, hdone, honb, hobuf, hw.1, fun h0 => ?_⟩
  have hsame : Run.done () t = .done () s := hdone.symm.trans (closeBits_at_boundary h0)
  exact (Run.done.inj hsame).2

/-- Settles O35: bits left, none left, and a source that answers `ERR`. -/
theorem readBitDeliversTheStreamInOrder : Obligations.ReadBitDeliversTheStreamInOrder := by
  unfold Obligations.ReadBitDeliversTheStreamInOrder
  intro s bytes more hr hs
  refine ⟨fun b bs hb => readBit_next hr hs hb, fun hb => readBit_of_nil hr hs hb, fun r he h0 => ?_⟩
  exact readBit_err (s := { s with env.source := some .err :: r }) hr rfl he h0

/-- Settles O36: `ReadBitPad` after each of the two answers of `ReadBit`. -/
theorem paddedReadsAreCountedAndBounded : Obligations.PaddedReadsAreCountedAndBounded := by
  unfold Obligations.PaddedReadsAreCountedAndBounded
  intro s bytes more hr hs
  refine ⟨fun b bs hb => ?_, fun hb hp => ?_, fun hb hp => ?_⟩
  · obtain ⟨t, hread, ht, -⟩ := readBit_next hr hs hb
    exact ⟨t, readBitPad_of_bit hread, ht⟩
  · rw [readBitPad_of_eofind (readBit_of_nil hr hs hb), if_neg hp]
    rfl
  · rw [readBitPad_of_eofind (readBit_of_nil hr hs hb), if_pos hp]

end Sys2Proof.Machine
end

section
/-! SUPPORT. The table's rules (R121 to R130): the cumulative function as prefix sums, what a command that runs to its
end leaves, the checks of the symbol operand, of the table and of the two coder commands, and the flag `CV`. -/

namespace Sys2Proof.Machine

/-! ### The cumulative function and the table RAM -/

theorem cum_zero (e : Engine) : cum e 0 = 0 := rfl

theorem cum_succ (e : Engine) (sym : Nat) : cum e (sym + 1) = cum e sym + freqAt e sym := by
  rw [cum, cum, freqAt, List.take_add_one, List.sum_append, List.getD_eq_getElem?_getD]
  cases e.F[sym]? <;> simp

theorem cum_mono (e : Engine) : Monotone (cum e) :=
  monotone_nat_of_le_succ fun sym => cum_succ e sym ▸ Nat.le_add_right _ _

/-- A read after `TINIT`'s loop (rule R124). -/
theorem Memory.read_zeroFirst (f : List Nat) (n k : Nat) :
    (Memory.zeroFirst f n).getD k 0 = if k < n then 0 else f.getD k 0 := by
  rw [Memory.zeroFirst]
  split
  · rw [List.getD_append _ _ _ _ (by simpa using ‹k < n›)]
    simp
  · rw [List.getD_append_right _ _ _ _ (by simpa using ‹¬ k < n›)]
    simp [show n + (k - n) = k by omega]

/-- The alphabet lies within the RAM (rule R28). -/
theorem TableExact.lt_length {s : State} {sym : Nat} (h : TableExact s) (hsym : sym < s.eng.NSYM) :
    sym < s.eng.F.length := by
  obtain ⟨hwf, hn, -⟩ := h
  rw [(Memory.wf_iff.1 hwf).1]
  omega

/-! ### A command that runs to its end, and its checks -/

/-- A command whose pseudocode runs to its end gives its result and changes nothing more (rules R72, R78). -/
theorem exec_done {i : Instr} {s u : State} {v : Nat} (hs : Running s) (hb : bodyOf i s = .done v u) :
    exec i s = .next (u.answered 0 v) := by
  have hu := bodyOf_undisturbed i hs.2
  rw [hb] at hu
  rw [exec_running i hs.1, hb]
  exact conclude_done _ _ v hu

/-- A command with a symbol operand raises when the symbol is outside the alphabet (rule R207). -/
theorem exec_out_of_range {i : Instr} {s : State} {sym : Nat} {body : State → Run Nat} (hs : Running s)
    (hi : bodyOf i = withSymbol sym body) (h : s.eng.NSYM ≤ sym) :
    exec i s = .next (s.faulted 6 (opcodeOf i) (symOf i) 0) :=
  exec_raise (c := .illegalCommand) hs (hi ▸ if_pos h)

/-- Past the range check the rest of the command runs (rule R207). -/
theorem bodyOf_in_range {i : Instr} {s : State} {sym : Nat} {body : State → Run Nat}
    (hi : bodyOf i = withSymbol sym body) (h : sym < s.eng.NSYM) : bodyOf i s = body s :=
  hi ▸ if_neg (not_le.2 h)

theorem tinitBody_illegal {n : Nat} {s : State} (h : s.eng.MODE ≠ .idle ∨ n = 0 ∨ s.params.NMAX < n) :
    tinitBody n s = raise .illegalCommand s := by
  by_cases hm : s.eng.MODE ≠ .idle
  · exact if_pos hm
  · rw [tinitBody, if_neg hm, if_pos (h.resolve_left hm)]

theorem tinitBody_legal {n : Nat} {s : State} (hm : s.eng.MODE = .idle) (h1 : 1 ≤ n) (hn : n ≤ s.params.NMAX) :
    tinitBody n s = .done 0 ((s.setNsym n).setTable (Memory.zeroFirst s.eng.F n) 0) := by
  rw [tinitBody, if_neg (not_not.2 hm), if_neg (by omega)]

theorem tableValid_iff {s : State} : tableValid s = true ↔ 1 ≤ s.eng.TOTAL ∧ s.eng.TOTAL ≤ s.params.MAXTOTAL := by
  simp [tableValid]

theorem tableValid_eq_false_iff {s : State} :
    tableValid s = false ↔ s.eng.TOTAL = 0 ∨ s.params.MAXTOTAL < s.eng.TOTAL := by
  rw [← Bool.not_eq_true, tableValid_iff]
  omega

/-- The checks of `EWRITE` (rules R123, R153). -/
abbrev EncodeChecks (s : State) (sym : Nat) : Prop :=
  s.eng.MODE = .enc ∧ sym < s.eng.NSYM ∧ 1 ≤ s.eng.TOTAL ∧ s.eng.TOTAL ≤ s.params.MAXTOTAL ∧ 1 ≤ freqAt s.eng sym

/-- The checks of `DREAD` (rules R123, R184). -/
abbrev DecodeChecks (s : State) : Prop :=
  s.eng.MODE = .dec ∧ 1 ≤ s.eng.TOTAL ∧ s.eng.TOTAL ≤ s.params.MAXTOTAL

/-- The range check comes before the table's (rule R209). -/
theorem ewriteBody_out_of_range {s : State} {sym : Nat} (hm : s.eng.MODE = .enc) (h : s.eng.NSYM ≤ sym) :
    ewriteBody sym s = raise .illegalCommand s := by
  rw [ewriteBody, if_neg (not_not.2 hm), if_pos h]

theorem ewriteBody_bad_table {s : State} {sym : Nat} (hm : s.eng.MODE = .enc) (hsym : sym < s.eng.NSYM)
    (h : s.eng.TOTAL = 0 ∨ s.params.MAXTOTAL < s.eng.TOTAL ∨ freqAt s.eng sym = 0) :
    ewriteBody sym s = raise .invalidFrequencyTable s := by
  rw [ewriteBody, if_neg (not_not.2 hm), if_neg (not_le.2 hsym)]
  by_cases hvalid : tableValid s = false
  · exact if_pos hvalid
  · rw [if_neg hvalid]
    rw [tableValid_eq_false_iff] at hvalid
    exact if_pos (by omega)

theorem dreadBody_bad_table {s : State} (hm : s.eng.MODE = .dec)
    (h : s.eng.TOTAL = 0 ∨ s.params.MAXTOTAL < s.eng.TOTAL) : dreadBody s = raise .invalidFrequencyTable s := by
  rw [dreadBody, if_neg (not_not.2 hm), if_pos (tableValid_eq_false_iff.2 h)]

/-- `EWRITE` raises at once unless every check passes. -/
theorem ewriteBody_fails {s : State} {sym : Nat} (h : ¬ EncodeChecks s sym) : ∃ c, ewriteBody sym s = raise c s := by
  by_cases hm : s.eng.MODE = .enc
  · by_cases hsym : sym < s.eng.NSYM
    · exact ⟨_, ewriteBody_bad_table hm hsym (by by_contra hn; exact h ⟨hm, hsym, by omega⟩)⟩
    · exact ⟨_, ewriteBody_out_of_range hm (not_lt.1 hsym)⟩
  · exact ⟨_, if_pos hm⟩

theorem dreadBody_fails {s : State} (h : ¬ DecodeChecks s) : ∃ c, dreadBody s = raise c s := by
  by_cases hm : s.eng.MODE = .dec
  · exact ⟨_, dreadBody_bad_table hm (by by_contra hn; exact h ⟨hm, by omega⟩)⟩
  · exact ⟨_, if_pos hm⟩

/-! ### The flag `CV` -/

/-- The coder commands set `CV` before they narrow, and neither narrowing nor the renormalisation writes it (rule R122
(b)). -/
theorem coded_leaves_cv (sym v : Nat) (side : Side) (s : State) :
    ((narrowTo sym s.setCV).bind fun _ t => (renorm side t).bind fun _ u => .done v u).Leaves
      fun u => u.eng.CV = true := by
  refine Run.Leaves.bind ((narrowTo_leaves sym s.setCV).mono fun t ht => by rw [ht.1]; rfl) fun _ t ht => ?_
  refine Run.Leaves.bind ?_ fun _ u hu => hu
  cases side with
  | encode => exact (renorm_encode_moves t).keeps ht fun u v m hu => by cases m <;> exact hu
  | decode => exact (renorm_decode_moves t).keeps ht fun u v m hu => by cases m <;> exact hu

theorem ewriteBody_leaves_cv {s : State} {sym : Nat} (h : EncodeChecks s sym) :
    (ewriteBody sym s).Leaves fun u => u.eng.CV = true := by
  obtain ⟨hm, hsym, h1, hmax, hfreq⟩ := h
  rw [ewriteBody, if_neg (not_not.2 hm), if_neg (not_le.2 hsym), if_neg (by simp [tableValid_iff.2 ⟨h1, hmax⟩]),
    if_neg (by omega)]
  exact coded_leaves_cv sym 0 .encode s

theorem dreadBody_leaves_cv {s : State} (h : DecodeChecks s) : (dreadBody s).Leaves fun u => u.eng.CV = true := by
  obtain ⟨hm, hvalid⟩ := h
  rw [dreadBody, if_neg (not_not.2 hm), if_neg (by simp [tableValid_iff.2 hvalid])]
  cases findSymbol s.eng (decodeValue s.eng) with
  | none => rfl
  | some sym => exact coded_leaves_cv sym sym .decode s

/-- `CV` after a command that ends in a fault or without one (rule R122 (a) to (c)). -/
def cacheAfter (s : State) (i : Instr) (fault : Bool) : Bool :=
  match i with
  | .reset => false
  | .tinit _ | .tset _ _ | .tinc _ => fault && s.eng.CV
  | .tclo _ | .tchi _ => !fault || s.eng.CV
  | .ewrite sym => s.eng.CV || decide (EncodeChecks s sym)
  | .dread => s.eng.CV || decide (DecodeChecks s)
  | .rdreg _ | .tget _ | .ttot | .einit | .efinish | .dinit => s.eng.CV

/-- The flag a piece of a command's pseudocode leaves is right for the end it has. -/
abbrev Run.FollowsCache (s : State) (i : Instr) (r : Run Nat) : Prop :=
  r.Ends (fun _ u => u.eng.CV = cacheAfter s i false) (fun _ u => u.eng.CV = cacheAfter s i true)

/-- Where the flag does not depend on the end, it is enough what the pseudocode leaves. -/
theorem Run.Leaves.followsCache {s : State} {i : Instr} {r : Run Nat} {b : Bool}
    (h : r.Leaves fun u => u.eng.CV = b) (hi : ∀ fault, cacheAfter s i fault = b) : r.FollowsCache s i := by
  cases r with
  | done v u => exact h.trans (hi false).symm
  | stop w u => exact h.trans (hi true).symm

theorem Run.FollowsCache.ite {s : State} {i : Instr} {c : Prop} [Decidable c] {r₁ r₂ : Run Nat}
    (h₁ : r₁.FollowsCache s i) (h₂ : r₂.FollowsCache s i) : (if c then r₁ else r₂).FollowsCache s i := by
  split
  · exact h₁
  · exact h₂

theorem CommandFrame.cv_kept {i : Instr} {s u : State} (h : CommandFrame s i u)
    (hi : (∃ r, i = .rdreg r) ∨ (∃ sym, i = .tget sym) ∨ i = .ttot ∨ i = .einit ∨ i = .efinish ∨ i = .dinit) :
    u.eng.CV = s.eng.CV := by
  cases i
  case rdreg | tget | ttot => rw [show u = s from h]
  case einit => rcases h with rfl | ⟨-, rfl⟩ <;> rfl
  case efinish =>
    rcases h with rfl | ⟨-, -, ⟨heng, -⟩ | ⟨heng, -⟩⟩
    · rfl
    · rw [heng]
    · rw [heng]
      rfl
  case dinit =>
    rcases h with rfl | ⟨-, heng, -⟩
    · rfl
    · rw [heng]
      rfl
  all_goals simp at hi

/-- A fault raised before anything is written keeps the flag. -/
theorem raise_followsCache {i : Instr} {s : State} (c : Cause) (h : cacheAfter s i true = s.eng.CV) :
    (raise c s : Run Nat).FollowsCache s i := h.symm

/-- Each command's pseudocode, check by check: a table write and a query write the flag as their last act, a coder
command as its first past the checks (rules R122, R153, R184). -/
theorem bodyOf_followsCache (i : Instr) (s : State) : (bodyOf i s).FollowsCache s i := by
  cases i with
  | reset => rfl
  | tinit n => exact .ite (raise_followsCache _ rfl) (.ite (raise_followsCache _ rfl) rfl)
  | tset sym f => exact .ite (raise_followsCache _ rfl) (.ite (raise_followsCache _ rfl) rfl)
  | tinc sym => exact .ite (raise_followsCache _ rfl) (.ite (raise_followsCache _ rfl) rfl)
  | tclo sym => exact .ite (raise_followsCache _ rfl) rfl
  | tchi sym => exact .ite (raise_followsCache _ rfl) rfl
  | ewrite sym =>
    by_cases hc : EncodeChecks s sym
    · exact (ewriteBody_leaves_cv hc).followsCache fun _ => by simp [cacheAfter, hc]
    · obtain ⟨c, hraise⟩ := ewriteBody_fails hc
      rw [bodyOf, hraise]
      exact raise_followsCache c (by simp [cacheAfter, hc])
  | dread =>
    by_cases hc : DecodeChecks s
    · exact (dreadBody_leaves_cv hc).followsCache fun _ => by simp [cacheAfter, hc]
    · obtain ⟨c, hraise⟩ := dreadBody_fails hc
      rw [bodyOf, hraise]
      exact raise_followsCache c (by simp [cacheAfter, hc])
  | rdreg | tget | ttot | einit | efinish | dinit =>
    exact ((bodyOf_frame _ s).mono fun u hu => hu.cv_kept (by simp)).followsCache fun _ => rfl

/-- The frame around the pseudocode adds nothing to `CV`, and `FAULT` afterwards tells which end it had (rule R210). -/
theorem exec_cv {i : Instr} {s t : State} (hs : Running s) (h : exec i s = .next t) :
    t.eng.CV = cacheAfter s i t.eng.FAULT := by
  have hend := bodyOf_followsCache i s
  have hframe := bodyOf_frame i s
  rcases exec_next hs.2 h with ⟨hf, -⟩ | ⟨-, ⟨v, u, hb, rfl⟩ | ⟨c, u, hb, rfl⟩⟩
  · simp [hs.1] at hf
  · rw [hb] at hend hframe
    rw [State.answered_eng, (CommandFrame.unfaulted hframe hs.1).1]
    exact hend
  · rw [hb] at hend
    exact hend

end Sys2Proof.Machine
end

section
/-! CERTIFICATES. The statements of the family: the table's commands, its cumulative function, and the flag `CV`. -/

namespace Sys2Proof.Machine

/-- Settles O15: `C` grows by one entry at a time, and an exact table's `TOTAL` is its last value. -/
theorem cumulativeFrequenciesArePrefixSums : Obligations.CumulativeFrequenciesArePrefixSums := by
  unfold Obligations.CumulativeFrequenciesArePrefixSums
  rintro s ⟨-, -, htotal⟩
  exact ⟨cum_zero s.eng, fun sym _ => cum_succ s.eng sym, fun a b hab => cum_mono s.eng hab, htotal.symm⟩

/-- Settles O24: `cacheAfter` is the statement's six clauses. -/
theorem cacheFlagFollowsTableWritesAndQueries : Obligations.CacheFlagFollowsTableWritesAndQueries := by
  unfold Obligations.CacheFlagFollowsTableWritesAndQueries
  intro i s t hs h
  have hcv := exec_cv hs h
  refine ⟨?_, ?_, ?_, ?_, ?_, ?_⟩
  · rintro rfl
    exact hcv
  · rintro (⟨n, rfl⟩ | ⟨sym, f, rfl⟩ | ⟨sym, rfl⟩) <;> exact hcv
  · rintro (⟨sym, rfl⟩ | ⟨sym, rfl⟩) <;> exact hcv
  · rintro sym rfl
    exact hcv
  · rintro rfl
    exact hcv
  · rintro (⟨r, rfl⟩ | ⟨sym, rfl⟩ | rfl | rfl | rfl | rfl) <;> exact hcv

/-- Settles O11: the RAM `TINIT` leaves is `zeroFirst`'s. -/
theorem tinitStartsAnEmptyTable : Obligations.TinitStartsAnEmptyTable := by
  unfold Obligations.TinitStartsAnEmptyTable
  intro s n hs
  refine ⟨fun hm h1 hn => ?_, fun h => exec_raise (i := .tinit n) hs (tinitBody_illegal h)⟩
  exact ⟨Memory.zeroFirst s.eng.F n, Memory.read_zeroFirst s.eng.F n,
    exec_done (i := .tinit n) hs (tinitBody_legal hm h1 hn)⟩

/-- Settles O12: the range check, then the entry's, then the write; the entry is part of an exact total. -/
theorem tsetWritesOneFrequency : Obligations.TsetWritesOneFrequency := by
  unfold Obligations.TsetWritesOneFrequency
  intro s sym f hs ht
  refine ⟨fun hsym hf => ⟨?_, ht.freqAt_le_total hsym, Memory.read_write_same f (ht.lt_length hsym)⟩,
    fun hsym => exec_out_of_range (i := .tset sym f) hs rfl hsym, fun hsym hf => ?_⟩
  · exact exec_done hs ((bodyOf_in_range (i := .tset sym f) rfl hsym).trans (if_neg (not_lt.2 hf)))
  · exact exec_raise hs ((bodyOf_in_range (i := .tset sym f) rfl hsym).trans (if_pos hf))

/-- Settles O13: the range check, then the entry's, then the write. -/
theorem tincAddsOneToAFrequency : Obligations.TincAddsOneToAFrequency := by
  unfold Obligations.TincAddsOneToAFrequency
  intro s sym hs ht
  refine ⟨fun hsym hf => ⟨?_, Memory.read_write_same _ (ht.lt_length hsym)⟩,
    fun hsym => exec_out_of_range (i := .tinc sym) hs rfl hsym, fun hsym hf => ?_⟩
  · exact exec_done hs ((bodyOf_in_range (i := .tinc sym) rfl hsym).trans (if_neg (not_lt.2 hf)))
  · exact exec_raise hs ((bodyOf_in_range (i := .tinc sym) rfl hsym).trans (if_pos hf))

/-- Settles O14: past the range check a query only answers, and `TCLO` and `TCHI` set `CV`. -/
theorem tableQueriesAnswerFromTheTable : Obligations.TableQueriesAnswerFromTheTable := by
  unfold Obligations.TableQueriesAnswerFromTheTable
  intro s sym hs
  refine ⟨fun hsym => ⟨?_, ?_, ?_⟩, fun hsym => ⟨?_, ?_, ?_⟩, exec_done (i := .ttot) hs rfl⟩
  · exact exec_done hs (bodyOf_in_range (i := .tget sym) (body := fun s => .done (freqAt s.eng sym) s)
      rfl hsym)
  · exact exec_done hs (bodyOf_in_range (i := .tclo sym) (body := fun s => .done (cum s.eng sym) s.setCV)
      rfl hsym)
  · exact exec_done hs (bodyOf_in_range (i := .tchi sym) (body := fun s => .done (cum s.eng (sym + 1)) s.setCV)
      rfl hsym)
  · exact exec_out_of_range (i := .tget sym) hs rfl hsym
  · exact exec_out_of_range (i := .tclo sym) hs rfl hsym
  · exact exec_out_of_range (i := .tchi sym) hs rfl hsym

/-- Settles O20: each check that fails raises before anything is written. -/
theorem coderRefusesAnUnusableTable : Obligations.CoderRefusesAnUnusableTable := by
  unfold Obligations.CoderRefusesAnUnusableTable
  intro s sym hs
  refine ⟨fun hm hsym => ?_, fun hm hsym h => ?_, fun hm h => ?_⟩
  · exact exec_raise (i := .ewrite sym) hs (ewriteBody_out_of_range hm hsym)
  · exact exec_raise (i := .ewrite sym) hs (ewriteBody_bad_table hm hsym h)
  · exact exec_raise (i := .dread) hs (dreadBody_bad_table hm h)

end Sys2Proof.Machine
end

section
/-! SUPPORT. The encoder (rules R151 to R159): what narrowing gives each symbol, the pseudocode of `EWRITE` and
`EFINISH` once their checks pass, and the exact number the encoder stands for through a renormalisation. -/

namespace Sys2Proof.Machine

/-- A command that ends without a fault ran its pseudocode to the end (rules R78, R210). -/
theorem exec_unfaulted {i : Instr} {s t : State} (hs : Running s) (h : exec i s = .next t) (hf : t.eng.FAULT = false) :
    ∃ v u, bodyOf i s = .done v u ∧ t = u.answered 0 v := by
  rcases exec_next hs.2 h with ⟨hfault, -⟩ | ⟨-, hdone | ⟨c, u, -, rfl⟩⟩
  · simp [hs.1] at hfault
  · exact hdone
  · simp at hf

/-! ### Narrowing (rule R152) -/

/-- The floor of a sum of two quotients is the sum of their floors or one more. -/
theorem add_ediv_bounds (a b : Int) {c : Int} (hc : 0 < c) :
    a / c + b / c ≤ (a + b) / c ∧ (a + b) / c ≤ a / c + b / c + 1 := by
  constructor
  · rw [Int.le_ediv_iff_mul_le hc]
    linarith [Int.ediv_mul_le a hc.ne', Int.ediv_mul_le b hc.ne']
  · rw [← Int.lt_add_one_iff, Int.ediv_lt_iff_lt_mul hc]
    linarith [Int.lt_ediv_add_one_mul_self a hc, Int.lt_ediv_add_one_mul_self b hc]

/-- Fact (b) of rule R152: a sub-interval's size is the exact share's floor or one more. -/
theorem narrow_size_bounds {e : Engine} (sym : Nat) (hT : 0 < e.TOTAL) :
    rangeOf e * freqAt e sym / e.TOTAL ≤ (narrow e sym).2 - (narrow e sym).1 + 1 ∧
    (narrow e sym).2 - (narrow e sym).1 + 1 ≤ rangeOf e * freqAt e sym / e.TOTAL + 1 := by
  have hsum := add_ediv_bounds (rangeOf e * cum e sym) (rangeOf e * freqAt e sym) (Int.natCast_pos.2 hT)
  rw [← mul_add, ← Nat.cast_add, ← cum_succ] at hsum
  simp only [narrow]
  omega

/-- Fact (c) of rule R152: with more values than the total, a symbol of non-zero frequency has one. -/
theorem narrow_nonempty {e : Engine} {sym : Nat} (hT : 0 < e.TOTAL) (hf : 1 ≤ freqAt e sym)
    (hR : (e.TOTAL : Int) < rangeOf e) : (narrow e sym).1 ≤ (narrow e sym).2 := by
  have hshare : 1 ≤ rangeOf e * freqAt e sym / e.TOTAL := by
    rw [Int.le_ediv_iff_mul_le (Int.natCast_pos.2 hT)]
    nlinarith
  have := (narrow_size_bounds sym hT).1
  omega

theorem narrow_of_freq_zero {e : Engine} {sym : Nat} (hf : freqAt e sym = 0) :
    (narrow e sym).2 = (narrow e sym).1 - 1 := by
  simp only [narrow, cum_succ, hf, Nat.add_zero]

theorem narrow_adjoins (e : Engine) (sym : Nat) : (narrow e (sym + 1)).1 = (narrow e sym).2 + 1 := by
  simp only [narrow]
  omega

theorem narrow_first (e : Engine) : (narrow e 0).1 = e.low := by
  simp [narrow, cum_zero]

/-- The sub-intervals of an exact table end where `[low, high]` does. -/
theorem TableExact.narrow_end {s : State} (h : TableExact s) (hT : 1 ≤ s.eng.TOTAL) :
    (narrow s.eng s.eng.NSYM).1 = (s.eng.high : Int) + 1 := by
  have hcum : cum s.eng s.eng.NSYM = s.eng.TOTAL := h.2.2.symm
  simp only [narrow, hcum]
  rw [Int.mul_ediv_cancel _ (by omega), rangeOf]
  omega

/-- Rule R152's bounds are its naturals where the sub-interval is not empty. -/
theorem narrow_eq_narrowed {e : Engine} {sym : Nat} (h : e.low ≤ e.high)
    (hne : (narrow e sym).1 ≤ (narrow e sym).2) :
    (narrow e sym).1 = narrowedLow e sym ∧ (narrow e sym).2 = narrowedHigh e sym := by
  have hR : rangeOf e = ((e.high - e.low + 1 : Nat) : Int) := by
    rw [rangeOf]
    omega
  have hshare : ∀ c : Nat, rangeOf e * c / e.TOTAL = (((e.high - e.low + 1) * c / e.TOTAL : Nat) : Int) := by
    intro c
    rw [hR]
    norm_cast
  have hlow := le_narrow_low sym h
  simp only [narrow, narrowedLow, narrowedHigh, hshare] at hne hlow ⊢
  omega

/-- Settled bounds leave a range of at least `QUARTER + 2` (rule R158). -/
theorem range_of_settled {p : Params} (hp : p.Legal) {l h : Nat} (hl : l < p.HALF) (hh : p.HALF ≤ h)
    (hu : ¬ (p.QUARTER ≤ l ∧ h < p.HALF + p.QUARTER)) : p.QUARTER + 2 ≤ h - l + 1 := by
  have hq := sizes_of_legal hp
  omega

/-- An `EWRITE` whose checks pass narrows to a non-empty part of `[low, high]` (rules R152, R158, R203). -/
theorem EncodeChecks.narrow_ordered {s : State} {sym : Nat} (hs : Inv s) (hrun : Running s)
    (hc : EncodeChecks s sym) :
    s.eng.low ≤ s.eng.high ∧ (narrow s.eng sym).1 ≤ (narrow s.eng sym).2 ∧ (narrow s.eng sym).2 ≤ s.eng.high := by
  obtain ⟨hp, -, ht, hset, -⟩ := hs
  obtain ⟨hm, hsym, h1, hmax, hf⟩ := hc
  obtain ⟨hl, hh, hu⟩ := hset hrun.1 (.inl hm)
  have hrange := range_of_settled hp hl hh hu
  have hq := sizes_of_legal hp
  refine ⟨by omega, narrow_nonempty h1 hf ?_, narrow_high_le (by omega) h1 (ht.cum_le_total hsym)⟩
  rw [rangeOf]
  omega

/-- The same over naturals, which fit their registers. -/
theorem EncodeChecks.narrowed_ordered {s : State} {sym : Nat} (hs : Inv s) (hrun : Running s)
    (hc : EncodeChecks s sym) :
    narrowedLow s.eng sym ≤ narrowedHigh s.eng sym ∧ narrowedHigh s.eng sym < s.params.FULL := by
  obtain ⟨hlh, hne, hle⟩ := hc.narrow_ordered hs hrun
  obtain ⟨hlow, hhigh⟩ := narrow_eq_narrowed hlh hne
  obtain ⟨-, ⟨-, hfull, -⟩, -⟩ := hs
  exact ⟨by omega, lt_of_le_of_lt (by omega) hfull⟩

theorem narrowTo_of_ordered {s : State} {sym : Nat} (h : s.eng.low ≤ s.eng.high)
    (hne : (narrow s.eng sym).1 ≤ (narrow s.eng sym).2) :
    narrowTo sym s = .done () (s.setBounds (narrowedLow s.eng sym) (narrowedHigh s.eng sym)) := by
  obtain ⟨hlow, hhigh⟩ := narrow_eq_narrowed h hne
  rw [narrowTo, if_neg (not_lt.2 hne), hlow, hhigh, Int.toNat_natCast, Int.toNat_natCast]

/-- An encode session with the narrowest settled bounds and the largest total a table may have at `W = 8`. -/
def narrowestSession : State :=
  { State.resetOf { W := 8, NMAX := 2, PW := 3, PADMAX := 8 } with
    eng.low := 63, eng.high := 128, eng.F := [1, 62], eng.NSYM := 2, eng.TOTAL := 63, eng.MODE := .enc }

/-! ### `EWRITE` and `EFINISH` once their checks pass -/

theorem ewriteBody_of_checks {s : State} {sym : Nat} (h : EncodeChecks s sym) :
    ewriteBody sym s = (narrowTo sym s.setCV).bind fun _ t => (renorm .encode t).bind fun _ u => .done 0 u := by
  obtain ⟨hm, hsym, h1, hmax, hf⟩ := h
  rw [ewriteBody, if_neg (not_not.2 hm), if_neg (not_le.2 hsym), if_neg (by simp [tableValid_iff.2 ⟨h1, hmax⟩]),
    if_neg (by omega)]

/-- Every shift settles one bit (rule R155). -/
theorem shiftPlan_bits_length (p : Params) (l h : Nat) :
    ((bitsOf p.W l).take (shiftPlan p p.W l h).shifts).length = (shiftPlan p p.W l h).shifts := by
  rw [List.length_take, bitsOf_length]
  exact min_eq_left (shiftPlan_shifts_le _ _ _)

/-- The bits an `EWRITE` settles (rule R155). -/
def settledBits (s : State) (sym : Nat) : List Bool :=
  (bitsOf s.params.W (narrowedLow s.eng sym)).take (planFor s sym).shifts

theorem settledBits_length (s : State) (sym : Nat) : (settledBits s sym).length = (planFor s sym).shifts :=
  shiftPlan_bits_length s.params _ _

/-- `EWRITE` past its checks (rules R153 to R156): the plan's bounds, the settled bits with what was owed, the underflow
steps owed; or a failing sink; or `PendOverflow`. -/
theorem ewriteBody_spec {s : State} {sym : Nat} (hs : Inv s) (hrun : Running s) (hc : EncodeChecks s sym) :
    (ewriteBody sym s).Ends
      (fun v u => v = 0 ∧ owedAfter s (planFor s sym) ≤ s.params.PENDMAX ∧
        Coded s.setCV (planFor s sym).low (planFor s sym).high (withOwed s.eng.pend (settledBits s sym))
          (owedAfter s (planFor s sym)) u)
      (fun w u =>
        CodingFailed (s.setCV.setBounds (narrowedLow s.eng sym) (narrowedHigh s.eng sym)) w u ∨
        PendFull (s.setCV.setBounds (narrowedLow s.eng sym) (narrowedHigh s.eng sym))
          (owedAfter s (planFor s sym)) w u) := by
  obtain ⟨hlh, hne, -⟩ := hc.narrow_ordered hs hrun
  obtain ⟨hord, hfull⟩ := hc.narrowed_ordered hs hrun
  obtain ⟨hp, ⟨-, -, -, hpend, hobuf, -⟩, -⟩ := hs
  rw [ewriteBody_of_checks hc, narrowTo_of_ordered (s := s.setCV) hlh hne]
  refine (renorm_encode_spec (s.setCV.setBounds (narrowedLow s.eng sym) (narrowedHigh s.eng sym)) hp ⟨hrun.2, hobuf⟩
    hord hfull (le_pendmax_iff.2 hpend)).bind (fun _ _ => id) fun _ u hu => ?_
  exact ⟨rfl, hu.2, hu.1⟩

/-- What an `EWRITE` that ends without a fault has done: it passed its checks and followed its plan. -/
theorem exec_ewrite_unfaulted {s t : State} {sym : Nat} (hs : Inv s) (hrun : Running s)
    (h : exec (.ewrite sym) s = .next t) (hf : t.eng.FAULT = false) :
    EncodeChecks s sym ∧ t.eng.low = (planFor s sym).low ∧ t.eng.high = (planFor s sym).high ∧
    t.eng.pend = owedAfter s (planFor s sym) ∧
    outBits t = outBits s ++ withOwed s.eng.pend (settledBits s sym) := by
  obtain ⟨v, u, hbody, rfl⟩ := exec_unfaulted hrun h hf
  have hbody : ewriteBody sym s = .done v u := hbody
  have hc : EncodeChecks s sym := by
    by_contra hc
    obtain ⟨c, hraise⟩ := ewriteBody_fails hc
    cases hraise.symm.trans hbody
  have hspec := ewriteBody_spec hs hrun hc
  rw [hbody] at hspec
  obtain ⟨-, -, hcoded⟩ := hspec
  obtain ⟨hlow, hhigh, hpend, -⟩ := hcoded.registers
  exact ⟨hc, hlow, hhigh, hpend, hcoded.1⟩

/-- The bits that name the number an `EFINISH` stops at: one bit, then the opposite one for every bit owed and once more
(rule R157). -/
def finishBits (s : State) : List Bool := withOwed (s.eng.pend + 1) [decide (s.params.QUARTER ≤ s.eng.low)]

theorem finishBits_eq (s : State) :
    finishBits s = decide (s.params.QUARTER ≤ s.eng.low) ::
      List.replicate (s.eng.pend + 1) (decide (s.eng.low < s.params.QUARTER)) := by
  simp [finishBits, withOwed, ← decide_not]

theorem finishBits_length (s : State) : (finishBits s).length = s.eng.pend + 2 := by
  simp [finishBits, withOwed]

/-- `EFINISH` past its checks (rules R157, R102): the finish bits, then zeros to a byte boundary; or a failing sink. -/
theorem efinishBody_spec {s : State} (hr : PackerReady s) (hm : s.eng.MODE = .enc)
    (hp : s.eng.pend ≠ s.params.PENDMAX) :
    (efinishBody s).Ends
      (fun v u => v = 0 ∧ ∃ t pad, u = t.setMode .encDone ∧ pad < 8 ∧ t.eng.onb = 0 ∧ t.eng.obuf = 0 ∧
        Wrote s (finishBits s ++ List.replicate pad false) 0 t)
      (fun w u => SinkFailed (s.setPend (s.eng.pend + 1)) w u) := by
  have hr' : PackerReady (s.setPend (s.eng.pend + 1)) := hr
  rw [efinishBody, if_neg (not_not.2 hm), if_neg hp]
  refine (emitBit_spec _ _ hr').bind (fun _ _ => id) fun _ t ht => ?_
  have hpt : t.eng.pend = 0 := ht.coded.registers.2.2.1
  refine (closeLoop_spec 7 t (ht.ready hr') (by omega)).bind (fun _ _ => ht.failed (Nat.zero_le _)) fun _ u hu => ?_
  obtain ⟨hw, honb, hobuf⟩ := hu
  have hboth := ht.trans hw
  rw [hpt] at hboth
  have hboth : Wrote s _ 0 u := hboth
  refine ⟨rfl, u, (8 - t.eng.onb.val) % 8, rfl, Nat.mod_lt _ (by decide), honb, hobuf, ?_⟩
  simpa [finishBits, withOwed] using hboth

/-- What an `EFINISH` that ends without a fault has written. -/
theorem exec_efinish_unfaulted {s t : State} (hrun : Running s) (hobuf : s.eng.obuf.toNat < 2 ^ s.eng.onb.val)
    (hm : s.eng.MODE = .enc) (h : exec .efinish s = .next t) (hf : t.eng.FAULT = false) :
    ∃ pad, outBits t = outBits s ++ (finishBits s ++ List.replicate pad false) := by
  obtain ⟨v, u, hbody, rfl⟩ := exec_unfaulted hrun h hf
  have hbody : efinishBody s = .done v u := hbody
  have hp : s.eng.pend ≠ s.params.PENDMAX := by
    intro hp
    rw [efinishBody, if_neg (not_not.2 hm), if_pos hp] at hbody
    cases hbody
  have hspec := efinishBody_spec ⟨hrun.2, hobuf⟩ hm hp
  rw [hbody] at hspec
  obtain ⟨-, w, pad, rfl, -, -, -, hw⟩ := hspec
  exact ⟨pad, hw.1⟩

/-! ### The exact number the encoder stands for -/

/-- The number, in units of `HALF`, that `low` is added to: the bits written, then a 0 and a 1 for every bit owed, which a
carry from `low` turns into a 1 and zeros (the argument of rule R154). -/
def codeBase (bits : List Bool) (owed : Nat) : Nat := bitsValue bits * 2 ^ (owed + 1) + 2 ^ owed - 1

theorem codeBase_add_one (bits : List Bool) (owed : Nat) :
    codeBase bits owed + 1 = bitsValue bits * 2 ^ (owed + 1) + 2 ^ owed :=
  Nat.sub_add_cancel (Nat.le_add_left_of_le Nat.one_le_two_pow)

theorem codeBase_none_owed (bits : List Bool) : codeBase bits 0 = 2 * bitsValue bits := by
  have := codeBase_add_one bits 0
  omega

/-- Owing `u` more bits (rule R156). -/
theorem codeBase_owe (bits : List Bool) (owed u : Nat) :
    codeBase bits (owed + u) + 1 = 2 ^ u * (codeBase bits owed + 1) := by
  rw [codeBase_add_one, codeBase_add_one]
  ring

/-- Bits that settle pay what was owed (rules R154, R155). -/
theorem codeBase_pay (out bs : List Bool) (owed : Nat) :
    codeBase (out ++ withOwed owed bs) (if bs.length = 0 then owed else 0) =
      2 ^ bs.length * codeBase out owed + 2 * bitsValue bs := by
  cases bs with
  | nil => simp [withOwed, bitsValue]
  | cons b bs =>
    have hbase := codeBase_add_one out owed
    have hones := bitsValue_ones owed
    rw [if_neg (by simp), codeBase_none_owed, bitsValue_append, withOwed, bitsValue_cons, bitsValue_append,
      bitsValue_cons]
    simp only [List.length_cons, List.length_append, List.length_replicate]
    zify at hbase hones ⊢
    cases b with
    | true =>
      simp only [Bool.not_true, bitsValue_zeros, Bool.toNat_true]
      linear_combination (-2 ^ (bs.length + 1)) * hbase
    | false =>
      simp only [Bool.not_false, Bool.toNat_false]
      linear_combination (-2 ^ (bs.length + 1)) * hbase + 2 ^ (bs.length + 1) * hones

theorem withOwed_length (owed : Nat) (bs : List Bool) :
    (withOwed owed bs).length + (if bs.length = 0 then owed else 0) = bs.length + owed := by
  cases bs with
  | nil => simp [withOwed]
  | cons b bs =>
    simp [withOwed]
    omega

/-- The shifts move the settled bits out of `low` (rule R155). -/
theorem shiftPlan_low {p : Params} (hp : p.Legal) {n l h : Nat} (hn : n ≤ p.W) (hlh : l ≤ h) (hh : h < p.FULL) :
    (shiftPlan p n l h).low + bitsValue ((bitsOf p.W l).take (shiftPlan p n l h).shifts) * p.FULL =
      2 ^ (shiftPlan p n l h).shifts * l := by
  induction n generalizing l h with
  | zero => simp [shiftPlan, bitsValue]
  | succ n ih =>
    by_cases ha : topsAgree p l h = true
    · obtain ⟨hplan, hlh', hh'⟩ := shiftPlan_pass hp n hlh hh ha
      have ih := ih (by omega) hlh' hh'
      have hk := shiftPlan_shifts_le (p := p) n (2 * l % p.FULL) (2 * h % p.FULL + 1)
      have hdouble : 2 * l % p.FULL + (decide (p.HALF ≤ l)).toNat * p.FULL = 2 * l := by
        have hq := sizes_of_legal hp
        rw [double_mod_full hp (by omega)]
        by_cases hb : p.HALF ≤ l <;> simp [hb]
        omega
      rw [hplan, take_bitsOf_shift hp (by omega) (by omega), bitsValue_cons, List.length_take, bitsOf_length,
        min_eq_left (by omega)]
      linear_combination ih + 2 ^ (shiftPlan p n (2 * l % p.FULL) (2 * h % p.FULL + 1)).shifts * hdouble
    · rw [shiftPlan_stop hp _ hlh hh ha]
      simp [bitsValue]

/-- The underflow steps move the owed bits' half out of `low` (rule R156). -/
theorem underflowPlan_low {p : Params} (hp : p.Legal) (n l h : Nat) :
    (underflowPlan p n l h).low + 2 ^ (underflowPlan p n l h).underflows * p.HALF =
      2 ^ (underflowPlan p n l h).underflows * l + p.HALF := by
  induction n generalizing l h with
  | zero => simp [underflowPlan]
  | succ n ih =>
    have hq := sizes_of_legal hp
    rw [underflowPlan]
    split
    · have ih := ih (2 * l - p.HALF) (2 * h - p.HALF + 1)
      have hsub : 2 * l - p.HALF + p.HALF = 2 * l := by omega
      simp only [pow_succ]
      zify at ih hsub ⊢
      linear_combination ih + 2 ^ (underflowPlan p n (2 * l - p.HALF) (2 * h - p.HALF + 1)).underflows * hsub
    · simp

/-- A renormalisation keeps the number the encoder stands for, scaled by two for each of its steps (rules R154 to
R156). -/
theorem renormPlan_number {p : Params} (hp : p.Legal) {l h : Nat} (hlh : l ≤ h) (hh : h < p.FULL) (out : List Bool)
    (owed : Nat) :
    codeBase (out ++ withOwed owed ((bitsOf p.W l).take (renormPlan p l h).shifts))
        ((if (renormPlan p l h).shifts = 0 then owed else 0) + (renormPlan p l h).underflows) * p.HALF +
      (renormPlan p l h).low =
    2 ^ ((renormPlan p l h).shifts + (renormPlan p l h).underflows) * (codeBase out owed * p.HALF + l) := by
  have hfull : p.FULL = 2 * p.HALF := by have := sizes_of_legal hp; omega
  have hlen := shiftPlan_bits_length p l h
  have hshift := shiftPlan_low hp le_rfl hlh hh
  obtain ⟨a, ha⟩ : ∃ a, shiftPlan p p.W l h = a := ⟨_, rfl⟩
  obtain ⟨b, hb⟩ : ∃ b, underflowPlan p (p.W - 1) a.low a.high = b := ⟨_, rfl⟩
  have hunder := underflowPlan_low hp (p.W - 1) a.low a.high
  have hplan : renormPlan p l h = ⟨a.shifts, b.underflows, b.low, b.high⟩ := by
    rw [← hb, ← ha]
    rfl
  rw [ha] at hlen hshift
  rw [hb] at hunder
  rw [hplan]
  have hpay := codeBase_pay out ((bitsOf p.W l).take a.shifts) owed
  rw [hlen] at hpay
  have howe := codeBase_owe (out ++ withOwed owed ((bitsOf p.W l).take a.shifts))
    (if a.shifts = 0 then owed else 0) b.underflows
  rw [hpay] at howe
  rw [hfull] at hshift
  simp only [pow_add]
  zify at *
  linear_combination p.HALF * howe + hunder + 2 ^ b.underflows * hshift

/-- The bits up to the finish bits, in units of `QUARTER`, where `low = 0` stands at `2 * codeBase`: they name quarter 1
above it if `low` lies in quarter 0, and quarter 2 otherwise (rule R157). -/
theorem bitsValue_finishBits (s : State) :
    bitsValue (outBits s ++ finishBits s) =
      2 * codeBase (outBits s) s.eng.pend + 1 + (decide (s.params.QUARTER ≤ s.eng.low)).toNat := by
  have hpay := codeBase_pay (outBits s) [decide (s.params.QUARTER ≤ s.eng.low)] (s.eng.pend + 1)
  have howe := codeBase_owe (outBits s) s.eng.pend 1
  rw [List.length_singleton, if_neg one_ne_zero, codeBase_none_owed] at hpay
  simp only [bitsValue, List.foldl_cons, List.foldl_nil] at hpay
  simp only [finishBits, bitsValue]
  omega

end Sys2Proof.Machine
end

section
/-! CERTIFICATES. The statements of the family: `EmitBit`, the narrowing, and the encoder's three commands. -/

namespace Sys2Proof.Machine

/-- Settles O39: in `IDLE` nothing can stop the pseudocode. -/
theorem einitOpensAnEncodeSession : Obligations.EinitOpensAnEncodeSession := by
  unfold Obligations.EinitOpensAnEncodeSession
  intro s hs hm
  exact exec_done (i := .einit) hs (if_neg (not_not.2 hm))

/-- Settles O33: a sink that accepts cannot fail. -/
theorem emitBitPaysWhatIsOwed : Obligations.EmitBitPaysWhatIsOwed := by
  unfold Obligations.EmitBitPaysWhatIsOwed
  intro s b hr ho hsink
  obtain ⟨_, t, hdone, hw⟩ := (emitBit_spec b s ⟨hr, ho⟩).exists_done fun _ _ => not_sinkFailed hsink
  exact ⟨t, hdone, hw.coded.registers.2.2.1, hw.1⟩

/-- Settles O40: facts (a) to (f) one by one, and for fact (d) symbol 0 of `narrowestSession`, whose share of the 66
values is one. -/
theorem narrowedIntervalsTileTheInterval : Obligations.NarrowedIntervalsTileTheInterval := by
  unfold Obligations.NarrowedIntervalsTileTheInterval
  refine ⟨fun s hlh ht hT => ⟨fun sym hsym => ?_, narrow_first s.eng, ht.narrow_end hT⟩, narrowestSession, 0,
    by decide, by decide⟩
  obtain ⟨hfloor, hceil⟩ := narrow_size_bounds sym hT
  exact ⟨le_narrow_low sym hlh, narrow_high_le hlh hT (ht.cum_le_total hsym), hfloor, hceil,
    fun hf hR => narrow_nonempty hT hf hR, narrow_of_freq_zero, narrow_adjoins s.eng sym⟩

/-- Settles O41: with room in `pend` and a sink that accepts, the pseudocode past its checks cannot stop. -/
theorem ewriteCodesOneSymbol : Obligations.EwriteCodesOneSymbol := by
  unfold Obligations.EwriteCodesOneSymbol
  intro s sym hs hrun hm hsym h1 hmax hf hsink hroom
  have hspec := ewriteBody_spec hs hrun ⟨hm, hsym, h1, hmax, hf⟩
  obtain ⟨v, u, hbody, rfl, -, hout, -, hu, -⟩ := hspec.exists_done fun w u hstop => by
    rcases hstop with ⟨hfail, -⟩ | ⟨-, hover, -⟩
    · exact hfail hsink
    · exact absurd hover (not_lt.2 hroom)
  refine ⟨u.answered 0 0, exec_done (i := .ewrite sym) hrun hbody, ?_, hout, ?_, ?_⟩
  · rw [State.answered_eng, hu]
    rfl
  · rw [State.answered_params, hu]
    rfl
  · rw [State.answered_env, hu]
    rfl

/-- Settles O43: a completed `EWRITE` followed its plan, whose steps are counted and whose number is scaled. -/
theorem ewriteScalesTheNarrowedInterval : Obligations.EwriteScalesTheNarrowedInterval := by
  unfold Obligations.EwriteScalesTheNarrowedInterval
  intro s t sym hs hrun h hf
  obtain ⟨hc, hlow, hhigh, hpend, hout⟩ := exec_ewrite_unfaulted hs hrun h hf
  obtain ⟨hord, hfull⟩ := hc.narrowed_ordered hs hrun
  have hp : s.params.Legal := hs.1
  obtain ⟨hsteps, hl, hh, -, hrange, hu⟩ := renormPlan_ends hp hord hfull
  refine ⟨(planFor s sym).shifts + (planFor s sym).underflows, hsteps, ?_, ?_, hlow ▸ hl, hhigh ▸ hh, ?_, ?_⟩
  · have hlen := withOwed_length s.eng.pend (settledBits s sym)
    rw [settledBits_length] at hlen
    rw [hout, hpend, List.length_append, owedAfter]
    omega
  · rw [hlow, hhigh]
    exact hrange
  · rw [hlow, hhigh]
    exact range_of_settled hp hl hh hu
  · rw [hout, hpend, hlow]
    exact renormPlan_number hp hord hfull (outBits s) s.eng.pend

/-- Settles O44: a sink that accepts cannot fail, and what is written fills whole bytes of the sink. -/
theorem efinishClosesTheStream : Obligations.EfinishClosesTheStream := by
  unfold Obligations.EfinishClosesTheStream
  rintro s ⟨-, -, -, -, hobuf, -⟩ hrun hm hp hsink
  obtain ⟨v, u, hbody, rfl, t, pad, rfl, hpad, honb, hempty, hout, -, ht, -⟩ :=
    (efinishBody_spec ⟨hrun.2, hobuf⟩ hm hp).exists_done fun _ _ => not_sinkFailed hsink
  have hlen := outBits_length t
  rw [honb] at hlen
  refine ⟨(t.setMode .encDone).answered 0 0, pad, exec_done (i := .efinish) hrun hbody, ?_, ?_, hpad, ?_, ?_, ?_, ?_⟩
  · rw [State.answered_eng, State.setMode_eng, ht, honb, hempty]
  · rw [← finishBits_eq, List.append_assoc]
    exact hout
  · exact ⟨_, hlen⟩
  · intro hnil
    have hnil : t.env.sink = [] := hnil
    rw [hout, hnil, List.length_append, List.length_append, finishBits_length] at hlen
    simp at hlen
  · rw [State.answered_params, State.setMode_params, ht]
  · rw [State.answered_env, State.setMode_env, ht]

/-- Settles O45: the finish bits name quarter 1 of the code space if `low` lies in quarter 0, and quarter 2 otherwise;
settled bounds contain it. -/
theorem finishBitsNameAQuarterInsideTheInterval : Obligations.FinishBitsNameAQuarterInsideTheInterval := by
  unfold Obligations.FinishBitsNameAQuarterInsideTheInterval
  intro s t hs hrun hm h hf
  obtain ⟨hp, ⟨-, -, -, -, hobuf, -⟩, -, hset, -⟩ := hs
  obtain ⟨hl, hh, hu⟩ := hset hrun.1 (.inl hm)
  obtain ⟨-, hhalf, -⟩ := sizes_of_legal hp
  obtain ⟨pad, hout⟩ := exec_efinish_unfaulted hrun hobuf hm h hf
  have htake : (outBits t).take ((outBits s).length + s.eng.pend + 2) = outBits s ++ finishBits s := by
    rw [hout, ← List.append_assoc]
    exact List.take_left' (by rw [List.length_append, finishBits_length]; omega)
  refine ⟨_, rfl, ?_⟩
  rw [htake, bitsValue_finishBits]
  change codeBase (outBits s) s.eng.pend * _ + _ ≤ _ ∧ _ ≤ codeBase (outBits s) s.eng.pend * _ + _ + 1
  rw [hhalf] at hl hh hu ⊢
  by_cases hb : s.params.QUARTER ≤ s.eng.low
  · have hthird : 2 * s.params.QUARTER + s.params.QUARTER ≤ s.eng.high := not_lt.1 fun hlt => hu ⟨hb, hlt⟩
    simp only [hb, decide_true, Bool.toNat_true]
    constructor <;> linarith
  · simp only [hb, decide_false, Bool.toNat_false]
    constructor <;> linarith

end Sys2Proof.Machine
end

section
/-! SUPPORT. The decoder (rules R181 to R188): the symbol search as an equivalence, the decoded value against the
narrowed intervals, reads that stay within the pad bound, and the pseudocode of `DINIT` and `DREAD` once their checks
pass; and that no command raises a range error. -/

namespace Sys2Proof.Machine

/-! ### The symbol search (rule R183) -/

/-- The cumulative intervals of two symbols do not meet. -/
theorem cum_interval_unique {e : Engine} {value : Int} {a b : Nat} (ha : (cum e a : Int) ≤ value)
    (ha' : value < cum e (a + 1)) (hb : (cum e b : Int) ≤ value) (hb' : value < cum e (b + 1)) : a = b := by
  rcases lt_trichotomy a b with hlt | heq | hlt
  · have : cum e (a + 1) ≤ cum e b := cum_mono e hlt
    omega
  · exact heq
  · have : cum e (b + 1) ≤ cum e a := cum_mono e hlt
    omega

/-- The cumulative intervals below `n` cover every value from 0 up to `C(n)`. -/
theorem exists_cum_interval {e : Engine} {value : Int} (h0 : 0 ≤ value) (n : Nat) (hn : value < cum e n) :
    ∃ sym < n, (cum e sym : Int) ≤ value ∧ value < cum e (sym + 1) := by
  induction n with
  | zero =>
    rw [cum_zero] at hn
    omega
  | succ n ih =>
    by_cases hlt : value < cum e n
    · obtain ⟨sym, hsym, hin⟩ := ih hlt
      exact ⟨sym, by omega, hin⟩
    · exact ⟨n, by omega, by omega, hn⟩

/-- What `FindSymbol` finds is the one symbol whose cumulative interval holds the value. -/
theorem findSymbol_eq_some_iff {e : Engine} {value : Int} {sym : Nat} :
    findSymbol e value = some sym ↔ sym < e.NSYM ∧ (cum e sym : Int) ≤ value ∧ value < cum e (sym + 1) := by
  refine ⟨findSymbol_some, fun ⟨hsym, hle, hlt⟩ => ?_⟩
  cases hfind : findSymbol e value with
  | none =>
    have hno := List.find?_eq_none.1 hfind sym (List.mem_range.2 hsym)
    simp [hle, hlt] at hno
  | some other =>
    obtain ⟨-, hle', hlt'⟩ := findSymbol_some hfind
    rw [cum_interval_unique hle' hlt' hle hlt]

/-- For an exact table the search finds a symbol exactly for the values below `TOTAL`. -/
theorem TableExact.exists_findSymbol_iff {s : State} {value : Int} (h : TableExact s) :
    (∃ sym, findSymbol s.eng value = some sym) ↔ 0 ≤ value ∧ value < s.eng.TOTAL := by
  have htotal : s.eng.TOTAL = cum s.eng s.eng.NSYM := h.2.2
  constructor
  · rintro ⟨sym, hfind⟩
    obtain ⟨hsym, hle, hlt⟩ := findSymbol_some hfind
    have : cum s.eng (sym + 1) ≤ s.eng.TOTAL := h.cum_le_total hsym
    omega
  · rintro ⟨h0, hlt⟩
    obtain ⟨sym, hin⟩ := exists_cum_interval h0 s.eng.NSYM (htotal ▸ hlt)
    exact ⟨sym, findSymbol_eq_some_iff.2 hin⟩

/-- A symbol whose cumulative interval holds a value has a non-zero frequency. -/
theorem freqAt_pos_of_interval {e : Engine} {value : Int} {sym : Nat} (hle : (cum e sym : Int) ≤ value)
    (hlt : value < cum e (sym + 1)) : 1 ≤ freqAt e sym := by
  rw [cum_succ] at hlt
  omega

/-! ### The decoded value and the narrowed intervals (rules R182, R185) -/

/-- `code` between the bounds stands for a value between 0 and `TOTAL`. -/
theorem decodeValue_bounds {e : Engine} (hl : e.low ≤ e.code) (hh : e.code ≤ e.high) (hT : 0 < e.TOTAL) :
    0 ≤ decodeValue e ∧ decodeValue e < e.TOTAL := by
  have hR : 0 < rangeOf e := by unfold rangeOf; omega
  have hone : 1 ≤ (e.code : Int) - e.low + 1 := by omega
  have hle : (e.code : Int) - e.low + 1 ≤ rangeOf e := by unfold rangeOf; omega
  constructor
  · refine Int.ediv_nonneg ?_ hR.le
    nlinarith
  · rw [decodeValue, Int.ediv_lt_iff_lt_mul hR]
    nlinarith

/-- The decoded value over naturals. -/
theorem decodeValue_eq_natCast {e : Engine} (hl : e.low ≤ e.code) (hh : e.code ≤ e.high) (hT : 0 < e.TOTAL) :
    decodeValue e = (((e.code - e.low + 1) * e.TOTAL - 1) / (e.high - e.low + 1) : Nat) := by
  have hpos : 1 ≤ (e.code - e.low + 1) * e.TOTAL := Nat.mul_pos (Nat.succ_pos _) hT
  rw [decodeValue, rangeOf]
  push_cast [hl, hl.trans hh, hpos]
  rfl

/-- The core of rule R185, as an equivalence: a symbol's new lower bound is at or below `code` exactly when its
cumulative frequency does not pass the decoded value. -/
theorem narrow_low_le_code_iff {e : Engine} {sym : Nat} (h : e.low ≤ e.high) (hT : 0 < e.TOTAL) :
    (narrow e sym).1 ≤ e.code ↔ (cum e sym : Int) ≤ decodeValue e := by
  refine ⟨fun hc => ?_, narrow_low_le_code h hT⟩
  have hR : 0 < rangeOf e := by unfold rangeOf; omega
  simp only [narrow] at hc
  have hmul : rangeOf e * cum e sym < ((e.code : Int) - e.low + 1) * e.TOTAL :=
    (Int.ediv_lt_iff_lt_mul (Int.natCast_pos.2 hT)).1 (by omega)
  rw [decodeValue, Int.le_ediv_iff_mul_le hR, mul_comm]
  omega

/-- Above, the same for the symbol whose interval begins where this one's ends. -/
theorem code_le_narrow_high_iff {e : Engine} {sym : Nat} (h : e.low ≤ e.high) (hT : 0 < e.TOTAL) :
    (e.code : Int) ≤ (narrow e sym).2 ↔ decodeValue e < cum e (sym + 1) := by
  have hnext := narrow_low_le_code_iff (sym := sym + 1) h hT
  rw [narrow_adjoins] at hnext
  omega

/-! ### Reads within the pad bound (rules R104, R105) -/

/-- While the padded reads stay within `PADMAX`, a source that holds bytes before its `EOF` cannot fail. -/
theorem SourceHolds.not_readFails {s t : State} {bytes : List Byte} {more : Option (List (Option SourceReply))}
    {n : Nat} {w : Stop} (hs : SourceHolds s bytes more)
    (hpad : s.eng.padcnt + (n - (inBits s.eng bytes).length) ≤ s.params.PADMAX) :
    ¬ ReadFails s n w t := by
  rintro ⟨-, -, -, hfail⟩
  obtain ⟨-, -, -, hover⟩ := hfail bytes more hs
  have := hover (by omega)
  omega

/-- The state after a read from a source that holds bytes before its `EOF`. -/
theorem Reads.state_eq {s t : State} {bits : List Bool} {bytes : List Byte} {more : Option (List (Option SourceReply))}
    (h : Reads s bits t) (hs : SourceHolds s bytes more) :
    t = { s with
      eng.low := t.eng.low
      eng.high := t.eng.high
      eng.code := t.eng.code
      eng.ibuf := (s.eng.ibuf :: bytes).getD (bytesFetched s.eng bytes bits.length) 0
      eng.inb := t.eng.inb
      eng.eof := s.eng.eof || decide ((inBits s.eng bytes).length < bits.length)
      eng.padcnt := s.eng.padcnt + (bits.length - (inBits s.eng bytes).length)
      env.source := sourceAfter s bytes more bits.length } := by
  obtain ⟨hframe, -, hread⟩ := h
  obtain ⟨hsource, -, -, hpad, heof, hibuf, -⟩ := hread bytes more hs
  rw [← hsource, ← hpad, ← heof, ← hibuf]
  exact hframe

/-! ### `DINIT` and `DREAD` once their checks pass -/

/-- The state in which `DINIT` begins to fill `code` (rule R181). -/
def dinitStart (s : State) : State :=
  ((((((s.setBounds 0 s.params.MASK).setCode 0).setPend 0).setUnpacker 0 0).setEof false).setPadcnt 0).setMode .dec

theorem dinitStart_inBits (s : State) (bytes : List Byte) :
    inBits (dinitStart s).eng bytes = bytes.flatMap byteBits := rfl

theorem dinitStart_bytesFetched (s : State) (bytes : List Byte) (n : Nat) :
    bytesFetched (dinitStart s).eng bytes n = min ((n + 7) / 8) bytes.length := rfl

theorem dinitStart_unreadAfter (s : State) (bytes : List Byte) (n : Nat) :
    unreadAfter (dinitStart s).eng bytes n = 8 * min ((n + 7) / 8) bytes.length - n := by
  change 0 + 8 * min ((n - 0 + 7) / 8) bytes.length - n = _
  rw [Nat.zero_add, Nat.sub_zero]

theorem drop_bytesFetched_dinitStart (s : State) (bytes : List Byte) (n : Nat) :
    bytes.drop (bytesFetched (dinitStart s).eng bytes n) = bytes.drop ((n + 7) / 8) := by
  rw [dinitStart_bytesFetched, List.drop_eq_drop_iff]
  omega

theorem dinitStart_sourceAfter (s : State) (bytes : List Byte) (more : Option (List (Option SourceReply))) (n : Nat) :
    sourceAfter (dinitStart s) bytes more n =
      if 8 * bytes.length < n then more.getD [] else streamOf (bytes.drop ((n + 7) / 8)) more := by
  rw [sourceAfter, drop_bytesFetched_dinitStart, dinitStart_inBits, flatMap_byteBits_length]
  rfl

theorem dinitStart_padcnt (s : State) : (dinitStart s).eng.padcnt = 0 := rfl

/-- `DINIT` in `IDLE` (rule R181): `code` is the number the next `W` bits write; or a read that fails. -/
theorem dinitBody_spec {s : State} (hp : s.params.Legal) (hr : s.env.rstIn = none) (hm : s.eng.MODE = .idle) :
    (dinitBody s).Ends
      (fun v u => v = 0 ∧ ∃ bits, bits.length = s.params.W ∧ Reads (dinitStart s) bits u ∧ u.eng.low = 0 ∧
        u.eng.high = s.params.MASK ∧ u.eng.code = bitsValue bits)
      (fun w u => ReadFails (dinitStart s) s.params.W w u) := by
  rw [dinitBody, if_neg (not_not.2 hm)]
  refine (fillCode_spec s.params.W (dinitStart s) hp hr (Nat.two_pow_pos _)).bind (fun _ _ hw => hw.1) fun _ u hu => ?_
  obtain ⟨bits, hlen, hreads, hlow, hhigh, hcode⟩ := hu
  refine ⟨rfl, bits, hlen, hreads, hlow, hhigh, hcode.trans ?_⟩
  change (0 * 2 ^ s.params.W + bitsValue bits) % 2 ^ s.params.W = _
  rw [Nat.zero_mul, Nat.zero_add, Nat.mod_eq_of_lt (hlen ▸ bitsValue_lt bits)]

/-- In a decode session with a valid table the search finds a symbol (rules R185, R186). -/
theorem DecodeChecks.exists_found {s : State} (hs : Inv s) (hrun : Running s) (hc : DecodeChecks s) :
    s.eng.low ≤ s.eng.code ∧ s.eng.code ≤ s.eng.high ∧ ∃ sym, findSymbol s.eng (decodeValue s.eng) = some sym := by
  obtain ⟨-, -, ht, -, hcode, -⟩ := hs
  obtain ⟨hm, hT, -⟩ := hc
  obtain ⟨hl, hh⟩ := hcode hrun.1 hm
  exact ⟨hl, hh, ht.exists_findSymbol_iff.2 (decodeValue_bounds hl hh hT)⟩

/-- The found symbol's narrowed bounds hold `code` and fit their registers (rule R185). -/
theorem DecodeChecks.narrowed_holds_code {s : State} {sym : Nat} (hs : Inv s) (hrun : Running s) (hc : DecodeChecks s)
    (hfind : findSymbol s.eng (decodeValue s.eng) = some sym) :
    (narrow s.eng sym).1 ≤ (narrow s.eng sym).2 ∧ narrowedLow s.eng sym ≤ s.eng.code ∧
    s.eng.code ≤ narrowedHigh s.eng sym ∧ narrowedHigh s.eng sym < s.params.FULL := by
  obtain ⟨hl, hh, -⟩ := hc.exists_found hs hrun
  obtain ⟨-, ⟨-, hfull, -⟩, ht, -⟩ := hs
  obtain ⟨-, hT, -⟩ := hc
  obtain ⟨hsym, hle, hlt⟩ := findSymbol_some hfind
  have hlow := narrow_low_le_code (hl.trans hh) hT hle
  have hhigh := code_le_narrow_high (hl.trans hh) hT hlt
  have hinside := narrow_high_le (hl.trans hh) hT (ht.cum_le_total hsym)
  obtain ⟨hlow', hhigh'⟩ := narrow_eq_narrowed (hl.trans hh) (hlow.trans hhigh)
  exact ⟨hlow.trans hhigh, by omega, by omega, lt_of_le_of_lt (by omega) hfull⟩

/-- Past its checks, and with a symbol found, `DREAD` renormalises the narrowed bounds: rule R184's range errors are not
reached. -/
theorem dreadBody_of_checks {s : State} {sym : Nat} (hs : Inv s) (hrun : Running s) (hc : DecodeChecks s)
    (hfind : findSymbol s.eng (decodeValue s.eng) = some sym) :
    dreadBody s =
      (renorm .decode (s.setCV.setBounds (narrowedLow s.eng sym) (narrowedHigh s.eng sym))).bind
        fun _ u => .done sym u := by
  obtain ⟨hl, hh, -⟩ := hc.exists_found hs hrun
  obtain ⟨hne, -⟩ := hc.narrowed_holds_code hs hrun hfind
  obtain ⟨hm, hvalid⟩ := hc
  rw [dreadBody, if_neg (not_not.2 hm), if_neg (by simp [tableValid_iff.2 hvalid]), hfind]
  change (narrowTo sym s.setCV).bind _ = _
  rw [narrowTo_of_ordered (s := s.setCV) (hl.trans hh) hne]
  rfl

/-- `DREAD` past its checks (rules R184, R185): the plan's bounds, with `code` moved along; or a read that fails. -/
theorem dreadBody_spec {s : State} {sym : Nat} (hs : Inv s) (hrun : Running s) (hc : DecodeChecks s)
    (hfind : findSymbol s.eng (decodeValue s.eng) = some sym) :
    (dreadBody s).Ends
      (fun v u => v = sym ∧ Followed (s.setCV.setBounds (narrowedLow s.eng sym) (narrowedHigh s.eng sym))
        (planFor s sym).low (planFor s sym).high ((planFor s sym).shifts + (planFor s sym).underflows) u)
      (fun w u => ReadFails (s.setCV.setBounds (narrowedLow s.eng sym) (narrowedHigh s.eng sym))
        ((planFor s sym).shifts + (planFor s sym).underflows) w u) := by
  obtain ⟨-, hlow, hhigh, hfull⟩ := hc.narrowed_holds_code hs hrun hfind
  rw [dreadBody_of_checks hs hrun hc hfind]
  exact (renorm_decode_spec (s.setCV.setBounds (narrowedLow s.eng sym) (narrowedHigh s.eng sym)) hs.1 hrun.2 hlow hhigh
    hfull).bind (fun _ _ hw => hw.1) fun _ _ hu => ⟨rfl, hu⟩

/-- What a `DREAD` that ends without a fault has done: it passed its checks, answered the symbol it found and followed
that symbol's plan. -/
theorem exec_dread_unfaulted {s t : State} (hs : Inv s) (hrun : Running s) (h : exec .dread s = .next t)
    (hf : t.eng.FAULT = false) :
    ∃ sym < s.eng.NSYM, t.eng.low = (planFor s sym).low ∧ t.eng.high = (planFor s sym).high ∧
      t.env.rsps = s.env.rsps ++ [responseWord 0 sym] := by
  obtain ⟨v, u, hbody, rfl⟩ := exec_unfaulted hrun h hf
  have hbody : dreadBody s = .done v u := hbody
  have hc : DecodeChecks s := by
    by_contra hc
    obtain ⟨c, hraise⟩ := dreadBody_fails hc
    cases hraise.symm.trans hbody
  obtain ⟨-, -, sym, hfind⟩ := hc.exists_found hs hrun
  have hspec := dreadBody_spec hs hrun hc hfind
  rw [hbody] at hspec
  obtain ⟨rfl, bits, -, ⟨hframe, -⟩, hlow, hhigh, -⟩ := hspec
  have hrsps : u.env.rsps = s.env.rsps := by rw [hframe]; rfl
  exact ⟨v, (findSymbol_some hfind).1, hlow, hhigh, by rw [State.answered_env, hrsps]⟩

/-! ### What the encoder's and the decoder's plans depend on (rule R180) -/

theorem shiftPlan_congr {p q : Params} (hW : p.W = q.W) (n l h : Nat) : shiftPlan p n l h = shiftPlan q n l h := by
  have hfull : p.FULL = q.FULL := congrArg (2 ^ ·) hW
  have hhalf : p.HALF = q.HALF := congrArg (fun w => 2 ^ (w - 1)) hW
  induction n generalizing l h with
  | zero => rfl
  | succ n ih =>
    rw [shiftPlan, shiftPlan, hhalf, hfull]
    simp only [ih]

theorem underflowPlan_congr {p q : Params} (hW : p.W = q.W) (n l h : Nat) :
    underflowPlan p n l h = underflowPlan q n l h := by
  have hhalf : p.HALF = q.HALF := congrArg (fun w => 2 ^ (w - 1)) hW
  have hquarter : p.QUARTER = q.QUARTER := congrArg (fun w => 2 ^ (w - 2)) hW
  induction n generalizing l h with
  | zero => rfl
  | succ n ih =>
    rw [underflowPlan, underflowPlan, hhalf, hquarter]
    simp only [ih]

/-- A renormalisation depends on the width alone, of all the parameters. -/
theorem renormPlan_congr {p q : Params} (hW : p.W = q.W) (l h : Nat) : renormPlan p l h = renormPlan q l h := by
  simp only [renormPlan, hW, shiftPlan_congr hW, underflowPlan_congr hW]

/-- A cumulative frequency depends on the entries below it alone (rules R120, R121). -/
theorem cum_congr {e d : Engine} {i n : Nat} (hF : e.F.take n = d.F.take n) (hi : i ≤ n) : cum e i = cum d i := by
  have htake := congrArg (List.take i) hF
  rw [List.take_take, List.take_take, min_eq_left hi] at htake
  rw [cum, cum, htake]

/-- Equal widths, bounds and tables give equal plans. -/
theorem planFor_congr {s t : State} {sym : Nat} (hs : TableExact s) (ht : TableExact t) (hW : s.params.W = t.params.W)
    (hN : s.eng.NSYM = t.eng.NSYM) (hF : s.eng.F.take s.eng.NSYM = t.eng.F.take s.eng.NSYM)
    (hl : s.eng.low = t.eng.low) (hh : s.eng.high = t.eng.high) (hsym : sym < s.eng.NSYM) :
    planFor s sym = planFor t sym := by
  have htotal : s.eng.TOTAL = t.eng.TOTAL := by rw [hs.2.2, ht.2.2, ← hN, hF]
  have hcum := cum_congr hF hsym.le
  have hcum' := cum_congr hF (Nat.succ_le_of_lt hsym)
  rw [planFor, planFor, narrowedLow, narrowedLow, narrowedHigh, narrowedHigh, hl, hh, htotal, hcum, hcum']
  exact renormPlan_congr hW _ _

/-- Different results within the 48 bits of `val` are different responses (rule R72). -/
theorem responseWord_val_inj {a b : Nat} (ha : a < 2 ^ 48) (hb : b < 2 ^ 48)
    (h : responseWord 0 a = responseWord 0 b) : a = b := by
  obtain ⟨-, -, hva⟩ := responseWordCarriesStatusAndValue 0 a (by decide) ha
  obtain ⟨-, -, hvb⟩ := responseWordCarriesStatusAndValue 0 b (by decide) hb
  rw [← hva, ← hvb, h]

/-! ### The range errors (rules R186, R203, R204) -/

/-- A piece of pseudocode that does not raise `CodingRangeError` or `DecodingRangeError`. -/
abbrev Run.InRange {α : Type} (r : Run α) : Prop :=
  r.Ends (fun _ _ => True) fun w _ => w ≠ .raised .codingRangeError ∧ w ≠ .raised .decodingRangeError

theorem Run.InRange.bind {α β : Type} {r : Run α} {k : α → State → Run β} (hr : r.InRange)
    (hk : ∀ a t, (k a t).InRange) : (r.bind k).InRange :=
  Run.Ends.bind hr (fun _ _ => id) fun a t _ => hk a t

theorem Run.InRange.ite {α : Type} {c : Prop} [Decidable c] {r₁ r₂ : Run α} (h₁ : r₁.InRange)
    (h₂ : ¬ c → r₂.InRange) : (if c then r₁ else r₂).InRange := by
  split
  · exact h₁
  · exact h₂ ‹¬ c›

theorem raise_inRange {α : Type} {c : Cause} (s : State) (h₁ : c ≠ .codingRangeError) (h₂ : c ≠ .decodingRangeError) :
    (raise c s : Run α).InRange :=
  ⟨fun h => h₁ (Stop.raised.inj h), fun h => h₂ (Stop.raised.inj h)⟩

theorem Run.Encodes.inRange {α : Type} {s : State} {r : Run α} (h : r.Encodes s) : r.InRange := by
  match r with
  | .done _ _ => trivial
  | .stop (.raised c) t => obtain ⟨-, rfl | rfl⟩ := h <;> exact raise_inRange t (by decide) (by decide)
  | .stop (.unanswered _) _ | .stop .rst _ => exact ⟨nofun, nofun⟩

theorem Run.Decodes.inRange {α : Type} {s : State} {r : Run α} (h : r.Decodes s) : r.InRange := by
  match r with
  | .done _ _ => trivial
  | .stop (.raised c) t => obtain ⟨-, rfl | rfl⟩ := h <;> exact raise_inRange t (by decide) (by decide)
  | .stop (.unanswered _) _ | .stop .rst _ => exact ⟨nofun, nofun⟩

/-- The codes 2 and 3 are the range errors' alone (rule R201). -/
theorem causeCode_inRange {c : Cause} (h₁ : c ≠ .codingRangeError) (h₂ : c ≠ .decodingRangeError) :
    BitVec.ofNat 8 (causeCode c) ≠ 2 ∧ BitVec.ofNat 8 (causeCode c) ≠ 3 := by
  cases c with
  | codingRangeError => exact absurd rfl h₁
  | decodingRangeError => exact absurd rfl h₂
  | invalidFrequencyTable | prematureEndOfStream | ioError | illegalCommand | pendOverflow => simp [causeCode]

/-- From the invariant the guards of rules R203 and R204 are never reached: an `EWRITE` that passes its checks narrows
to a non-empty interval, and a `DREAD` that passes its own finds a symbol, whose interval is not empty. -/
theorem bodyOf_inRange (i : Instr) {s : State} (hs : Inv s) (hrun : Running s) : (bodyOf i s).InRange := by
  have hill : (raise .illegalCommand s : Run Nat).InRange := raise_inRange s (by decide) (by decide)
  have hift : (raise .invalidFrequencyTable s : Run Nat).InRange := raise_inRange s (by decide) (by decide)
  have hpov : (raise .pendOverflow s : Run Nat).InRange := raise_inRange s (by decide) (by decide)
  cases i with
  | reset | rdreg | ttot => trivial
  | tget | tclo | tchi | einit => exact .ite hill fun _ => trivial
  | tinit => exact .ite hill fun _ => .ite hill fun _ => trivial
  | tset | tinc => exact .ite hill fun _ => .ite hift fun _ => trivial
  | ewrite sym =>
    refine .ite hill fun hm => .ite hill fun hsym => .ite hift fun hv => .ite hift fun hf => ?_
    obtain ⟨hT, hmax⟩ := tableValid_iff.1 (Bool.not_eq_false _ ▸ hv)
    have hc : EncodeChecks s sym := ⟨not_not.1 hm, not_le.1 hsym, hT, hmax, Nat.pos_of_ne_zero hf⟩
    obtain ⟨hlh, hne, -⟩ := hc.narrow_ordered hs hrun
    rw [narrowTo_of_ordered (s := s.setCV) hlh hne]
    exact (renorm_encode_moves _).inRange.bind fun _ _ => trivial
  | efinish =>
    refine .ite hill fun _ => .ite hpov fun _ => ?_
    exact (emitBit_moves _ _).inRange.bind fun _ t => (closeLoop_moves 7 t).inRange.bind fun _ _ => trivial
  | dinit => exact .ite hill fun _ => (fillCode_moves _ _).inRange.bind fun _ _ => trivial
  | dread =>
    by_cases hm : s.eng.MODE = .dec
    · by_cases hT : 1 ≤ s.eng.TOTAL ∧ s.eng.TOTAL ≤ s.params.MAXTOTAL
      · have hc : DecodeChecks s := ⟨hm, hT⟩
        obtain ⟨-, -, sym, hfind⟩ := hc.exists_found hs hrun
        rw [bodyOf, dreadBody_of_checks hs hrun hc hfind]
        exact (renorm_decode_moves _).inRange.bind fun _ _ => trivial
      · rw [bodyOf, dreadBody_bad_table hm (by omega)]
        exact hift
    · rw [bodyOf, dreadBody, if_pos hm]
      exact hill

end Sys2Proof.Machine
end

section
/-! CERTIFICATES. The statements of the family: the symbol search, the decoder's two commands, and the range errors. -/

namespace Sys2Proof.Machine

/-- Settles O47: the values below `TOTAL` are those the search finds a symbol for, and cumulative intervals do not
meet. -/
theorem symbolSearchFindsTheOneSymbol : Obligations.SymbolSearchFindsTheOneSymbol := by
  unfold Obligations.SymbolSearchFindsTheOneSymbol
  intro s value ht
  refine ⟨fun h0 hlt => ?_, fun hout => ?_⟩
  · obtain ⟨sym, hfind⟩ := ht.exists_findSymbol_iff.2 ⟨h0, hlt⟩
    obtain ⟨hsym, hle, hlt⟩ := findSymbol_some hfind
    exact ⟨sym, hfind, hsym, freqAt_pos_of_interval hle hlt, hle, hlt,
      fun other _ hle' hlt' => cum_interval_unique hle' hlt' hle hlt⟩
  · refine Option.eq_none_iff_forall_ne_some.2 fun sym hfind => ?_
    have := ht.exists_findSymbol_iff.1 ⟨sym, hfind⟩
    omega

/-- Settles O48: each end of the cumulative interval against the decoded value is the same end of the narrowed interval
against `code`. -/
theorem decoderFindsTheSymbolWhoseIntervalHoldsTheCode :
    Obligations.DecoderFindsTheSymbolWhoseIntervalHoldsTheCode := by
  unfold Obligations.DecoderFindsTheSymbolWhoseIntervalHoldsTheCode
  intro s sym hs hrun hm hT hmax
  obtain ⟨hl, hh, -⟩ := DecodeChecks.exists_found hs hrun ⟨hm, hT, hmax⟩
  rw [findSymbol_eq_some_iff, narrow_low_le_code_iff (hl.trans hh) hT, code_le_narrow_high_iff (hl.trans hh) hT]

/-- Settles O46: short of padding past `PADMAX` the reads of `DINIT` cannot fail, and the bits to come are the
source's. -/
theorem dinitFillsTheCodeRegister : Obligations.DinitFillsTheCodeRegister := by
  unfold Obligations.DinitFillsTheCodeRegister
  intro s bytes more hp hrun hm hsource hpad
  have hs : SourceHolds (dinitStart s) bytes more := fun _ => hsource
  have hlen := flatMap_byteBits_length bytes
  obtain ⟨v, u, hbody, rfl, bits, hbits, hreads, hlow, hhigh, hcode⟩ :=
    (dinitBody_spec hp hrun.2 hm).exists_done fun w t => hs.not_readFails (by
      rwa [dinitStart_padcnt, dinitStart_inBits, hlen, Nat.zero_add])
  have hu := hreads.state_eq hs
  obtain ⟨-, hrest, hpadded, -, -, -, hinb⟩ := hreads.2.2 bytes more hs
  rw [hbits, dinitStart_inBits] at hpadded
  rw [hbits, dinitStart_inBits, drop_bytesFetched_dinitStart] at hrest
  rw [hbits, dinitStart_unreadAfter] at hinb
  rw [hbits, hlow, hhigh, hcode, hpadded, dinitStart_inBits, dinitStart_bytesFetched, dinitStart_sourceAfter,
    dinitStart_padcnt, hlen, Nat.zero_add] at hu
  refine ⟨u.answered 0 0, exec_done (i := .dinit) hrun hbody, ?_, hinb, hrest, ?_, ?_⟩
  · rw [State.answered_eng, hu]
    rfl
  · rw [State.answered_params, hu]
    rfl
  · rw [State.answered_env, hu]
    rfl

/-- Settles O49: the search finds a symbol, and short of padding past `PADMAX` the reads of its renormalisation cannot
fail. -/
theorem dreadDecodesOneSymbol : Obligations.DreadDecodesOneSymbol := by
  unfold Obligations.DreadDecodesOneSymbol
  intro s bytes more hs hrun hm hT hmax hsource
  have hc : DecodeChecks s := ⟨hm, hT, hmax⟩
  obtain ⟨hl, hh, sym, hfind⟩ := hc.exists_found hs hrun
  obtain ⟨hsym, hle, hlt⟩ := findSymbol_some hfind
  have hfreq := freqAt_pos_of_interval hle hlt
  rw [decodeValue_eq_natCast hl hh hT, Nat.cast_le] at hle
  rw [decodeValue_eq_natCast hl hh hT, Nat.cast_lt] at hlt
  refine ⟨sym, hsym, hfreq, hle, hlt, ?_⟩
  rintro n rfl hpad
  have hsource' : SourceHolds (s.setCV.setBounds (narrowedLow s.eng sym) (narrowedHigh s.eng sym)) bytes more := hsource
  obtain ⟨v, u, hbody, rfl, bits, hbits, hreads, hlow, hhigh, hcode, -⟩ :=
    (dreadBody_spec hs hrun hc hfind).exists_done fun w t => hsource'.not_readFails hpad
  have hu := hreads.state_eq hsource'
  obtain ⟨-, hrest, hpadded, -, -, -, hinb⟩ := hreads.2.2 bytes more hsource'
  rw [hbits] at hrest hpadded hinb
  rw [hbits, hlow, hhigh, hcode, hpadded] at hu
  refine ⟨u.answered 0 v, exec_done (i := .dread) hrun hbody, ?_, hinb, hrest, ?_, ?_⟩
  · rw [State.answered_eng, hu]
    rfl
  · rw [State.answered_params, hu]
    rfl
  · rw [State.answered_env, hu]
    rfl

/-- Settles O51: both sides follow the plan of the same symbol, which the width, the bounds and the table determine. -/
theorem decoderBoundsFollowTheEncoders : Obligations.DecoderBoundsFollowTheEncoders := by
  unfold Obligations.DecoderBoundsFollowTheEncoders
  intro e d e' d' sym he hd hrune hrund hW hN hF hl hh hexe hfe hexd hfd hrsp
  obtain ⟨⟨-, hsym, -⟩, hlowe, hhighe, -⟩ := exec_ewrite_unfaulted he hrune hexe hfe
  obtain ⟨found, hfound, hlowd, hhighd, hrspd⟩ := exec_dread_unfaulted hd hrund hexd hfd
  have hfits : ∀ {a : Nat}, a < d.eng.NSYM → a < 2 ^ 48 := fun ha => by
    obtain ⟨⟨-, -, -, hNMAX, -⟩, -, ⟨-, hNSYM, -⟩, -⟩ := hd
    omega
  have hsame : found = sym := responseWord_val_inj (hfits hfound) (hfits (hN ▸ hsym)) (by simpa [hrspd] using hrsp)
  obtain ⟨-, -, hte, -⟩ := he
  obtain ⟨-, -, htd, -⟩ := hd
  rw [hsame, ← planFor_congr hte htd hW hN (hN ▸ hF) hl hh hsym] at hlowd hhighd
  exact ⟨hlowd.trans hlowe.symm, hhighd.trans hhighe.symm⟩

/-- Settles O30: a command that ends without a fault leaves `CAUSE` at 0, and the pseudocode raises neither range
error. -/
theorem rangeErrorsAreNeverRaised : Obligations.RangeErrorsAreNeverRaised := by
  unfold Obligations.RangeErrorsAreNeverRaised
  intro i s t hs hrun h
  have hrange := bodyOf_inRange i hs hrun
  have hinv := exec_keeps_inv hs hrun.2 h
  rcases exec_next hrun.2 h with ⟨hf, -⟩ | ⟨-, ⟨v, u, hb, rfl⟩ | ⟨c, u, hb, rfl⟩⟩
  · simp [hrun.1] at hf
  · have hframe := bodyOf_frame i s
    rw [hb] at hframe
    obtain ⟨-, -, -, -, -, -, hlatch, -⟩ := hinv
    obtain ⟨hcause, -⟩ := hlatch (CommandFrame.unfaulted hframe hrun.1).1
    rw [hcause]
    decide
  · rw [hb] at hrange
    obtain ⟨hcoding, hdecoding⟩ := hrange
    exact causeCode_inRange (fun hc => hcoding (congrArg Stop.raised hc)) fun hc => hdecoding (congrArg Stop.raised hc)

end Sys2Proof.Machine
end

section
/-! SUPPORT. How a command ends in a fault (rules R200 to R213): what each raised cause leaves, the ports' `ERR` through
the primitives above `WriteBit` and `ReadBit`, and a decoder that needs more padded reads than `PADMAX`. -/

namespace Sys2Proof.Machine

/-! ### Refused, or ended in a fault -/

/-- A word that is not well formed is refused like any other while a fault is latched (rule R212). -/
theorem issueMalformed_faulted {s : State} (w : Word) (hf : s.eng.FAULT = true) (hr : s.env.rstIn = none) :
    issueMalformed w s = .next (s.answered s.eng.CAUSE.toNat 0) := by
  rw [issueMalformed, if_pos hf, answer_undisturbed _ _ hr]

/-- A command whose pseudocode raises keeps what it has written and has its fault recorded (rules R210, R211). -/
theorem exec_raised {i : Instr} {s u : State} {c : Cause} (hs : Running s) (hb : bodyOf i s = .stop (.raised c) u) :
    exec i s = .next (u.faulted (causeCode c) (opcodeOf i) (symOf i) (portBit c)) := by
  have hu := bodyOf_undisturbed i hs.2
  rw [hb] at hu
  rw [exec_running i hs.1, hb]
  exact conclude_raised _ _ c hu

/-- What a command that ends with a fault latched has raised (rule R210). -/
theorem exec_fault_raised {i : Instr} {s t : State} (hs : Running s) (h : exec i s = .next t)
    (hf : t.eng.FAULT = true) :
    ∃ c u, bodyOf i s = .stop (.raised c) u ∧
      t = u.faulted (causeCode c) (opcodeOf i) (symOf i) (portBit c) := by
  rcases exec_next hs.2 h with ⟨hfault, -⟩ | ⟨-, ⟨v, u, hb, rfl⟩ | hraised⟩
  · simp [hs.1] at hfault
  · have hframe := bodyOf_frame i s
    rw [hb] at hframe
    simp [(CommandFrame.unfaulted hframe hs.1).1] at hf
  · exact hraised

/-- The codes of the two clean causes are theirs alone (rule R201). -/
theorem cause_of_clean_code {c : Cause} (h : BitVec.ofNat 8 (causeCode c) = 6 ∨ BitVec.ofNat 8 (causeCode c) = 1) :
    c = .illegalCommand ∨ c = .invalidFrequencyTable := by
  cases c with
  | illegalCommand => exact .inl rfl
  | invalidFrequencyTable => exact .inr rfl
  | _ => simp [causeCode] at h

/-- `IllegalCommand` and `InvalidFrequencyTable` are raised before anything is written (rule R211). -/
theorem bodyOf_clean_raise {i : Instr} {s u : State} {c : Cause} (hb : bodyOf i s = .stop (.raised c) u)
    (hc : c = .illegalCommand ∨ c = .invalidFrequencyTable) : u = s := by
  rcases bodyOf_stop hb with ⟨-, hu⟩ | hother
  · exact hu
  · rcases hc with rfl | rfl <;> simp at hother

/-- Pseudocode that cannot run to its end stops early. -/
theorem Run.Ends.exists_stop {α : Type} {D : α → State → Prop} {S : Stop → State → Prop} {r : Run α}
    (h : r.Ends D S) (hd : ∀ a t, ¬ D a t) : ∃ w t, r = .stop w t ∧ S w t := by
  cases r with
  | done a t => exact absurd h (hd a t)
  | stop w t => exact ⟨w, t, rfl, h⟩

/-! ### A port that answers `ERR` -/

/-- `EmitBit` whose first bit completes a byte the sink does not take (rules R154, R206). -/
theorem emitBit_err {s : State} {r : List (Option SinkReply)} (b : Bool) (hr : s.env.rstIn = none)
    (ha : s.env.sinkAnswers = some .err :: r) (h7 : s.eng.onb.val = 7) :
    emitBit b s = .stop (.raised (.ioError .sink))
      { s with eng.obuf := 0, eng.onb := 0, env.sinkAnswers := r } := by
  rw [emitBit, writeBit_err b hr ha h7]
  rfl

/-- `EFINISH` with room in `pend` whose first bit completes such a byte (rules R157, R206). -/
theorem efinishBody_err {s : State} {r : List (Option SinkReply)} (hr : s.env.rstIn = none) (hm : s.eng.MODE = .enc)
    (hp : s.eng.pend ≠ s.params.PENDMAX) (ha : s.env.sinkAnswers = some .err :: r) (h7 : s.eng.onb.val = 7) :
    efinishBody s = .stop (.raised (.ioError .sink))
      { s with eng.pend := s.eng.pend + 1, eng.obuf := 0, eng.onb := 0, env.sinkAnswers := r } := by
  rw [efinishBody, if_neg (not_not.2 hm), if_neg hp, emitBit_err (s := s.setPend (s.eng.pend + 1)) _ hr ha h7]
  rfl

/-- The first of `DINIT`'s reads, when it needs a byte the source does not give (rules R181, R206). -/
theorem fillCode_err {s : State} {r : List (Option SourceReply)} {n : Nat} (hn : n ≠ 0) (hr : s.env.rstIn = none)
    (ha : s.env.source = some .err :: r) (he : s.eng.eof = false) (h0 : s.eng.inb = 0) :
    fillCode n s = .stop (.raised (.ioError .source)) { s with env.source := r } := by
  obtain ⟨m, rfl⟩ := Nat.exists_eq_succ_of_ne_zero hn
  rw [fillCode, pullBit, readBitPad, readBit_err hr ha he h0]
  rfl

/-- `DINIT` in `IDLE` has opened the session when its first byte fails (rules R181, R206). -/
theorem dinitBody_err {s : State} {r : List (Option SourceReply)} (hp : s.params.Legal) (hr : s.env.rstIn = none)
    (hm : s.eng.MODE = .idle) (ha : s.env.source = some .err :: r) :
    dinitBody s = .stop (.raised (.ioError .source)) { dinitStart s with env.source := r } := by
  have hW : s.params.W ≠ 0 := by have := hp.1; omega
  rw [dinitBody, if_neg (not_not.2 hm)]
  change (fillCode s.params.W (dinitStart s)).bind _ = _
  rw [fillCode_err (s := dinitStart s) hW hr ha rfl rfl]
  rfl

/-! ### Past the pad bound (rules R105, R205) -/

/-- Reads that would take more padded reads than `PADMAX` do not all succeed. -/
theorem SourceHolds.not_reads {s t : State} {bytes : List Byte} {more : Option (List (Option SourceReply))}
    {bits : List Bool} (hs : SourceHolds s bytes more) (hpad : s.eng.padcnt ≤ s.params.PADMAX)
    (hover : s.params.PADMAX < s.eng.padcnt + (bits.length - (inBits s.eng bytes).length)) : ¬ Reads s bits t := by
  rintro ⟨hframe, hkept, hread⟩
  obtain ⟨-, -, -, hcount, -⟩ := hread bytes more hs
  have hparams : t.params = s.params := by rw [hframe]
  have hbound := hkept hpad
  rw [hparams] at hbound
  omega

/-- A command whose reads, begun in `u`, fail where the source says `EOF` after its bytes ends in
`PrematureEndOfStream`. -/
theorem exec_readFails {i : Instr} {s u t : State} {bytes : List Byte} {more : Option (List (Option SourceReply))}
    {n : Nat} {w : Stop} (hrun : Running s) (hb : bodyOf i s = .stop w t) (hs : SourceHolds u bytes more)
    (hfail : ReadFails u n w t) :
    exec i s = .next (t.faulted 4 (opcodeOf i) (symOf i) 0) ∧ t.eng.eof = true ∧
      t.eng.padcnt = u.params.PADMAX ∧ t.eng.MODE = u.eng.MODE := by
  obtain ⟨hframe, -, -, hheld⟩ := hfail
  obtain ⟨rfl, hpad, heof, -⟩ := hheld bytes more hs
  refine ⟨exec_raised hrun hb, heof, hpad.trans ?_, ?_⟩ <;> rw [hframe]

end Sys2Proof.Machine
end

section
/-! CERTIFICATES. The statements of the family: refused commands, and what each fault leaves. -/

namespace Sys2Proof.Machine

/-- Settles O18: a clean cause was raised before anything was written. -/
theorem illegalCommandAndTableFaultsAreClean : Obligations.IllegalCommandAndTableFaultsAreClean := by
  unfold Obligations.IllegalCommandAndTableFaultsAreClean
  intro i s t hs h hf hcode
  obtain ⟨c, u, hb, rfl⟩ := exec_fault_raised hs h hf
  have hc := cause_of_clean_code hcode
  obtain rfl := bodyOf_clean_raise hb hc
  rcases hc with rfl | rfl <;> rfl

/-- Settles O42: with a sink that accepts, an `EWRITE` that cannot fit its underflow steps can only stop at the limit;
`EFINISH` checks the limit before it writes. -/
theorem pendNeverWraps : Obligations.PendNeverWraps := by
  unfold Obligations.PendNeverWraps
  refine ⟨fun s sym hs hrun hm hsym h1 hmax hf hsink hover => ?_, fun s hrun hm hp => ?_⟩
  · have hspec := ewriteBody_spec hs hrun ⟨hm, hsym, h1, hmax, hf⟩
    obtain ⟨w, u, hbody, ⟨hfail, -⟩ | ⟨rfl, -, hpend, -⟩⟩ := hspec.exists_stop fun v u hdone =>
      absurd hover (not_lt.2 hdone.2.1)
    · exact absurd hsink hfail
    · exact ⟨_, exec_raised (i := .ewrite sym) hrun hbody, rfl, rfl, hpend⟩
  · refine exec_raise (i := .efinish) (c := .pendOverflow) hrun ?_
    rw [bodyOf, efinishBody, if_neg (not_not.2 hm), if_pos hp]

/-- Settles O50: reads past the pad bound do not succeed, and where the source says `EOF` they fail in one way. -/
theorem readingFarPastTheEndIsPremature : Obligations.ReadingFarPastTheEndIsPremature := by
  unfold Obligations.ReadingFarPastTheEndIsPremature
  refine ⟨fun s bytes more hp hrun hm hsource hover => ?_,
    fun s bytes more sym hs hrun hm hT hmax hsource hfind hover => ?_⟩
  · have hheld : SourceHolds (dinitStart s) bytes more := fun _ => hsource
    obtain ⟨w, u, hbody, hfail⟩ := (dinitBody_spec hp hrun.2 hm).exists_stop fun v u hdone => by
      obtain ⟨-, bits, hbits, hreads, -⟩ := hdone
      refine hheld.not_reads (Nat.zero_le _) ?_ hreads
      rwa [hbits, dinitStart_padcnt, dinitStart_inBits, flatMap_byteBits_length, Nat.zero_add]
    obtain ⟨hexec, heof, hpad, hmode⟩ := exec_readFails (i := .dinit) hrun hbody hheld hfail
    exact ⟨_, hexec, rfl, rfl, heof, hpad, hmode⟩
  · have hheld : SourceHolds (s.setCV.setBounds (narrowedLow s.eng sym) (narrowedHigh s.eng sym)) bytes more := hsource
    have hspec := dreadBody_spec hs hrun ⟨hm, hT, hmax⟩ hfind
    obtain ⟨-, ⟨-, -, -, -, -, hpadcnt⟩, -⟩ := hs
    obtain ⟨w, u, hbody, hfail⟩ := hspec.exists_stop fun v u hdone => by
      obtain ⟨-, bits, hbits, hreads, -⟩ := hdone
      exact hheld.not_reads hpadcnt (hbits ▸ hover) hreads
    obtain ⟨hexec, heof, hpad, -⟩ := exec_readFails (i := .dread) hrun hbody hheld hfail
    exact ⟨_, hexec, rfl, rfl, heof, hpad⟩

/-- Settles O16: a refused command and a refused word are answered with `CAUSE`, and nothing of them runs. -/
theorem commandsAreRefusedWhileFaulted : Obligations.CommandsAreRefusedWhileFaulted := by
  unfold Obligations.CommandsAreRefusedWhileFaulted
  refine ⟨fun i s hf hr hi => ?_, fun s w rest hf hinbox hd => ?_⟩
  · rw [exec_refused hf hi, answer_undisturbed _ _ hr]
  · obtain ⟨e, he⟩ := exists_bad_of_not_instr hd
    rw [step_cmd hinbox, runWord_bad _ he]
    exact issueMalformed_faulted w hf rfl

/-- Settles O37: each port's `ERR` ends the command where it meets it. -/
theorem portErrorsAreRecordedWithTheirPort : Obligations.PortErrorsAreRecordedWithTheirPort := by
  unfold Obligations.PortErrorsAreRecordedWithTheirPort
  refine ⟨fun s r hp hrun hm ha => ?_, fun s r hrun hm hpend h7 ha => ?_⟩
  · exact exec_raised (i := .dinit) hrun (dinitBody_err hp hrun.2 hm ha)
  · exact exec_raised (i := .efinish) hrun (efinishBody_err hrun.2 hm hpend ha h7)

end Sys2Proof.Machine
end

section
/-! SUPPORT. Commands whose answer does not come, or not in time (rules R230, R240): which commands end at all, how far a
command gets before RST cuts it short, and a `DINIT` whose first request is never answered. -/

namespace Sys2Proof.Machine

/-! ### Every command ends, unless a request is never answered -/

theorem conclude_ends {op sym : Nat} {r : Run Nat} (h : ∀ p u, r ≠ .stop (.unanswered p) u) :
    ∃ t, conclude op sym r = .next t := by
  match r with
  | .done _ _ => exact ⟨_, rfl⟩
  | .stop (.raised _) _ => exact ⟨_, rfl⟩
  | .stop (.unanswered p) u => exact absurd rfl (h p u)
  | .stop .rst _ => exact ⟨_, rfl⟩

/-- A command waits for ever only where the host leaves a request unanswered and RST does not come (rules R230, R240). -/
theorem bodyOf_not_unanswered {s : State} (i : Instr) (h : s.env.rstIn ≠ none ∨ HostAnswers s) (p : Port) (u : State) :
    bodyOf i s ≠ .stop (.unanswered p) u := by
  intro hb
  obtain ⟨hnone, hmissing⟩ := bodyOf_stop hb
  rcases h with hcut | ⟨hsink, hsource⟩
  · have hdue := bodyOf_cut i hcut
    rw [hb] at hdue
    exact hdue.1 hnone
  · rcases hmissing with hmem | hmem
    · exact hsink _ hmem rfl
    · exact hsource _ hmem rfl

theorem exec_ends {s : State} (i : Instr) (h : s.env.rstIn ≠ none ∨ HostAnswers s) : ∃ t, exec i s = .next t := by
  by_cases hc : s.eng.FAULT = false ∨ RunsFaulted i
  · rw [exec_of_runs hc]
    exact conclude_ends (bodyOf_not_unanswered i h)
  · rw [not_or, Bool.not_eq_false] at hc
    exact ⟨_, exec_refused hc.1 hc.2⟩

/-! ### A host that answers goes on answering -/

/-- The answers left over by a host that answers every request are answers too. -/
theorem HostAnswers.of_drop {s t : State} (h : HostAnswers s) (hsink : ∃ n, t.env.sinkAnswers = s.env.sinkAnswers.drop n)
    (hsource : ∃ n, t.env.source = s.env.source.drop n) : HostAnswers t := by
  obtain ⟨n, hn⟩ := hsink
  obtain ⟨m, hm⟩ := hsource
  exact ⟨fun a ha => h.1 a (List.mem_of_mem_drop (hn ▸ ha)), fun a ha => h.2 a (List.mem_of_mem_drop (hm ▸ ha))⟩

/-- The primitives only take answers off the lists (rules R55, R56). -/
theorem bodyOf_hostAnswers {s : State} (i : Instr) (h : HostAnswers s) : (bodyOf i s).Leaves HostAnswers := by
  refine bodyOf_leaves i h (fun _ _ _ hu => hu) (fun u v m hu => ?_) (fun u v m hu => ?_)
  · obtain ⟨hsource, hsink⟩ := EncMoves.answers (.single m)
    exact hu.of_drop hsink ⟨0, hsource⟩
  · obtain ⟨hsink, hsource⟩ := DecMoves.answers (.single m)
    exact hu.of_drop ⟨0, hsink⟩ hsource

/-! ### How far a command gets before RST cuts it short -/

/-- What the host's side may have become, from `e`, when `made` of the `k` port transactions before RST are made: each
appends at most one byte and takes at most one answer, and nothing is said at RSP (rules R55, R56, R230). -/
structure CutProgress (e : Env) (k made : Nat) (v : Env) : Prop where
  left : v.rstIn = some (k - made)
  made_le : made ≤ k
  rsps : v.rsps = e.rsps
  inbox : v.inbox = e.inbox
  sink : ∃ bytes, v.sink = e.sink ++ bytes ∧ bytes.length ≤ made
  sinkAnswers : ∃ n ≤ made, v.sinkAnswers = e.sinkAnswers.drop n
  source : ∃ n ≤ made, v.source = e.source.drop n

namespace CutProgress

variable {e v : Env} {k made : Nat}

theorem start (h : e.rstIn = some k) : CutProgress e k 0 e :=
  ⟨h, Nat.zero_le k, rfl, rfl, ⟨[], by simp, le_rfl⟩, ⟨0, le_rfl, rfl⟩, ⟨0, le_rfl, rfl⟩⟩

theorem made_lt (h : CutProgress e k made v) (hdue : v.rstIn ≠ some 0) : made < k := by
  have hne : k - made ≠ 0 := fun h0 => hdue (h0 ▸ h.left)
  omega

theorem transacted_left (h : CutProgress e k made v) : v.transacted.rstIn = some (k - (made + 1)) := by
  simp [Env.transacted, h.left, Nat.sub_sub]

/-- A `SinkAppend` counts as one transaction, whether its byte got into the stream or not (rule R55). -/
theorem sinkAppend (h : CutProgress e k made v) (hdue : v.rstIn ≠ some 0) (bs : List Byte) (hbs : bs.length ≤ 1) :
    CutProgress e k (made + 1)
      { v.transacted with sink := v.sink ++ bs, sinkAnswers := v.sinkAnswers.drop 1 } := by
  obtain ⟨bytes, hsink, hlen⟩ := h.sink
  obtain ⟨n, hn, hanswers⟩ := h.sinkAnswers
  obtain ⟨m, hm, hsource⟩ := h.source
  refine ⟨h.transacted_left, h.made_lt hdue, h.rsps, h.inbox, ⟨bytes ++ bs, ?_, ?_⟩, ⟨n + 1, by omega, ?_⟩,
    ⟨m, by omega, hsource⟩⟩
  · simp [hsink]
  · rw [List.length_append]
    omega
  · simp [hanswers]

/-- So does a `SourceNext` (rule R56). -/
theorem sourceNext (h : CutProgress e k made v) (hdue : v.rstIn ≠ some 0) :
    CutProgress e k (made + 1) { v.transacted with source := v.source.drop 1 } := by
  obtain ⟨bytes, hsink, hlen⟩ := h.sink
  obtain ⟨n, hn, hanswers⟩ := h.sinkAnswers
  obtain ⟨m, hm, hsource⟩ := h.source
  refine ⟨h.transacted_left, h.made_lt hdue, h.rsps, h.inbox, ⟨bytes, hsink, by omega⟩, ⟨n, by omega, hanswers⟩,
    ⟨m + 1, by omega, ?_⟩⟩
  simp [hsource]

end CutProgress

theorem EncMove.cutProgress {e : Env} {k : Nat} {u v : State} (m : EncMove u v)
    (hu : ∃ made, CutProgress e k made u.env) : ∃ made, CutProgress e k made v.env := by
  obtain ⟨made, h⟩ := hu
  cases m with
  | packer | pend | bounds => exact ⟨made, h⟩
  | append b hdue => exact ⟨made + 1, h.sinkAppend hdue [b] le_rfl⟩
  | failed hdue => exact ⟨made + 1, by simpa [Env.transacted] using h.sinkAppend hdue [] (Nat.zero_le 1)⟩

theorem DecMove.cutProgress {e : Env} {k : Nat} {u v : State} (m : DecMove u v)
    (hu : ∃ made, CutProgress e k made u.env) : ∃ made, CutProgress e k made v.env := by
  obtain ⟨made, h⟩ := hu
  cases m with
  | unpacker | eof | padcnt | code | bounds => exact ⟨made, h⟩
  | asked hdue => exact ⟨made + 1, h.sourceNext hdue⟩

theorem bodyOf_cutProgress {s : State} {k : Nat} (i : Instr) (h : s.env.rstIn = some k) :
    (bodyOf i s).Leaves fun u => ∃ made, CutProgress s.env k made u.env :=
  bodyOf_leaves i ⟨0, .start h⟩ (fun _ _ _ hu => hu) (fun _ _ m => m.cutProgress) fun _ _ m => m.cutProgress

/-- RST leaves the host's side as the command's pseudocode left it (rule R231). -/
theorem conclude_cut_env {P : Env → Prop} {op sym : Nat} {r : Run Nat} {t : State} (hr : r.Leaves fun u => P u.env)
    (hcut : ∀ v, P v → v.rstIn ≠ none) (h : conclude op sym r = .next t) :
    ∃ v, P v ∧ t.env = { v with rstIn := none } := by
  rcases conclude_next h with ⟨v, u, rfl, hn, -⟩ | ⟨c, u, rfl, hn, -⟩ | ⟨v, u, rfl, -, rfl⟩ | ⟨c, u, rfl, -, rfl⟩ |
    ⟨u, rfl, rfl⟩
  · exact absurd hn (hcut _ hr)
  · exact absurd hn (hcut _ hr)
  · exact ⟨u.env, hr, rfl⟩
  · exact ⟨u.env, hr, rfl⟩
  · exact ⟨u.env, hr, rfl⟩

theorem exec_cut_env {i : Instr} {s t : State} {k : Nat} (hr : s.env.rstIn = some k) (h : exec i s = .next t) :
    ∃ made v, CutProgress s.env k made v ∧ t.env = { v with rstIn := none } := by
  have hne : s.env.rstIn ≠ none := by simp [hr]
  by_cases hc : s.eng.FAULT = false ∨ RunsFaulted i
  · rw [exec_of_runs hc] at h
    obtain ⟨v, ⟨made, hv⟩, ht⟩ := conclude_cut_env (P := fun v => ∃ made, CutProgress s.env k made v)
      (bodyOf_cutProgress i hr) (fun v ⟨_, hv⟩ => by simp [hv.left]) h
    exact ⟨made, v, hv, ht⟩
  · rw [not_or, Bool.not_eq_false] at hc
    rw [exec_refused hc.1 hc.2, answer_cut _ _ hne] at h
    obtain rfl := Host.Outcome.next.inj h
    exact ⟨0, s.env, .start hr, rfl⟩

/-- Any command RST cuts short ends in the reset state, with no more than the transactions before RST (rule R230). -/
theorem exec_cutByRst {s : State} {k : Nat} (i : Instr) (hr : s.env.rstIn = some k) :
    ∃ t, exec i s = .next t ∧ AtReset s.params t.eng ∧ t.params = s.params ∧
      ∃ made v, CutProgress s.env k made v ∧ t.env = { v with rstIn := none } := by
  have hne : s.env.rstIn ≠ none := by simp [hr]
  obtain ⟨t, h⟩ := exec_ends i (.inl hne)
  have henv := exec_cut_env hr h
  obtain ⟨u, hu, rfl⟩ := exec_cut hne h
  exact ⟨_, h, hu ▸ hardReset_atReset u, hu, henv⟩

/-- A word that is not well formed makes no port transaction before RST cuts it short (rules R75, R230). -/
theorem issueMalformed_cutByRst {s : State} (w : Word) (hr : s.env.rstIn ≠ none) :
    ∃ t, issueMalformed w s = .next t ∧ AtReset s.params t.eng ∧ t.params = s.params ∧
      t.env = { s.env with rstIn := none } := by
  by_cases hf : s.eng.FAULT = true
  · exact ⟨_, (if_pos hf).trans (answer_cut _ _ hr), hardReset_atReset s, rfl, rfl⟩
  · exact ⟨_, (if_neg hf).trans (answer_cut _ _ (s := enterFault _ _ _ s) hr), resetEngine_atReset s, rfl, rfl⟩

/-! ### A request never answered (rule R240) -/

theorem sourceNext_unanswered {s : State} {r : List (Option SourceReply)} (hr : s.env.rstIn = none)
    (ha : s.env.source = none :: r) :
    sourceNext s = .stop (.unanswered .source) { s with env.source := r } := by
  simp only [sourceNext, rstDue, hr, ha, unanswered, Env.transacted_undisturbed hr]
  rfl

theorem readBit_unanswered {s : State} {r : List (Option SourceReply)} (hr : s.env.rstIn = none)
    (ha : s.env.source = none :: r) (he : s.eng.eof = false) (h0 : s.eng.inb = 0) :
    readBit s = .stop (.unanswered .source) { s with env.source := r } := by
  simp only [readBit, he, h0, sourceNext_unanswered hr ha]
  rfl

/-- Filling `code` stops where its first read does (rules R105, R181). -/
theorem fillCode_of_readBit_stop {s t : State} {w : Stop} {n : Nat} (hn : n ≠ 0) (h : readBit s = .stop w t) :
    fillCode n s = .stop w t := by
  obtain ⟨m, rfl⟩ := Nat.exists_eq_succ_of_ne_zero hn
  rw [fillCode, pullBit, readBitPad, h]
  rfl

/-- `DINIT` in `IDLE` needs a byte at once, whatever the unpacker held (rule R181). -/
theorem dinitBody_unanswered {s : State} {r : List (Option SourceReply)} (hp : s.params.Legal)
    (hr : s.env.rstIn = none) (hm : s.eng.MODE = .idle) (ha : s.env.source = none :: r) :
    dinitBody s = .stop (.unanswered .source) { dinitStart s with env.source := r } := by
  have hW : s.params.W ≠ 0 := by have := hp.1; omega
  have hread := readBit_unanswered (s := dinitStart s) hr ha rfl rfl
  rw [dinitBody, if_neg (not_not.2 hm)]
  change (fillCode s.params.W (dinitStart s)).bind _ = _
  rw [fillCode_of_readBit_stop hW hread]
  rfl

end Sys2Proof.Machine
end

section
/-! CERTIFICATES. The statements of the family: commands cut short by RST, and commands that wait for the host. -/

namespace Sys2Proof.Machine

/-- Settles O9: the transactions made are counted through the pseudocode by the primitives' moves; a word that is not
well formed has no pseudocode. -/
theorem rstAbandonsTheCommandItInterrupts : Obligations.RstAbandonsTheCommandItInterrupts := by
  unfold Obligations.RstAbandonsTheCommandItInterrupts
  refine ⟨fun i s k hr => ?_, fun s w k rest hi => ?_⟩
  · obtain ⟨t, h, hreset, hparams, made, v, hv, henv⟩ := exec_cutByRst i hr
    obtain ⟨bytes, hsink, hlen⟩ := hv.sink
    obtain ⟨n, hn, hanswers⟩ := hv.sinkAnswers
    obtain ⟨m, hm, hsource⟩ := hv.source
    have hmade := hv.made_le
    refine ⟨t, h, hreset, hparams, ?_⟩
    rw [henv]
    exact ⟨hv.rsps, hv.inbox, rfl, ⟨bytes, hsink, hlen.trans hmade⟩, ⟨n, hn.trans hmade, hanswers⟩,
      ⟨m, hm.trans hmade, hsource⟩⟩
  · rw [step_cmdCutByRst hi]
    cases hd : decode w with
    | instr i =>
      obtain ⟨t, h, hreset, hparams, made, v, hv, henv⟩ := exec_cutByRst (s := takeEvent rest (some k) s) i rfl
      refine ⟨t, (runWord_instr _ hd).trans h, hreset, hparams, ?_⟩
      rw [henv]
      exact ⟨hv.rsps, hv.inbox, rfl, fun hno => absurd ⟨i, rfl⟩ hno⟩
    | bad e =>
      obtain ⟨t, h, hreset, hparams, henv⟩ := issueMalformed_cutByRst (s := takeEvent rest (some k) s) w (by simp)
      refine ⟨t, (runWord_bad _ hd).trans h, hreset, hparams, ?_⟩
      rw [henv]
      exact ⟨rfl, rfl, rfl, fun _ => rfl⟩

/-- Settles O27: a command that is not left waiting ends, and no command puts an answer back. -/
theorem everyCommandEndsWhenTheHostAnswers : Obligations.EveryCommandEndsWhenTheHostAnswers := by
  unfold Obligations.EveryCommandEndsWhenTheHostAnswers
  intro i s hs
  cases hr : s.env.rstIn with
  | none =>
    obtain ⟨t, h⟩ := exec_ends i (.inr hs)
    refine ⟨t, h, ?_⟩
    rcases exec_next_leaves (bodyOf_hostAnswers i hs) hr h with ⟨-, -, rfl⟩ | ⟨u, hu, ⟨v, rfl⟩ | ⟨c, rfl⟩⟩
    · exact hs
    · exact hu
    · exact hu
  | some k =>
    obtain ⟨t, h, -, -, made, v, hv, henv⟩ := exec_cutByRst i hr
    obtain ⟨n, -, hanswers⟩ := hv.sinkAnswers
    obtain ⟨m, -, hsource⟩ := hv.source
    exact ⟨t, h, hs.of_drop ⟨n, by rw [henv]; exact hanswers⟩ ⟨m, by rw [henv]; exact hsource⟩⟩

/-- Settles O38: `DINIT` stops at its first read, and RST ends any command. -/
theorem unansweredRequestNeverEndsTheCommand : Obligations.UnansweredRequestNeverEndsTheCommand := by
  unfold Obligations.UnansweredRequestNeverEndsTheCommand
  intro s r hp hf hm ha
  refine ⟨fun hr => ?_, fun k hr => ?_⟩
  · rw [exec_running .dinit hf, bodyOf, dinitBody_unanswered hp hr hm ha]
    rfl
  · obtain ⟨t, h, hreset, -⟩ := exec_cutByRst .dinit hr
    exact ⟨t, h, hreset⟩

end Sys2Proof.Machine
end
